-- ==== Sys2Proof/Word.lean ====
section
/-! DEFINITION. The word of KDLY (R8): 32 bits, bit 31 the most significant. A word that stands for a
sample, a parameter or a real-valued state element is an `F32` pattern (R10); its arithmetic is in
Machine/Float.lean. -/

namespace Sys2Proof

/-- A 32-bit word (R8). -/
abbrev Word := BitVec 32

/-- An 8-bit byte, used only where words are laid out in bytes (R63). -/
abbrev Byte := BitVec 8

end Sys2Proof
end

