-- ==== Sys2Proof/Syntax.lean ====
section
/-! DEFINITION. The commands of KDLY (R2, R81, R83, R86), the transfer that carries one (R81), and the
bank names (R90). One constructor per row of spec/opcode_table.json. -/

namespace Sys2Proof

/-- A channel, and its bank of the delay memory: 0 = left, 1 = right (R7, R90). -/
inductive Chan where
  | left
  | right
deriving DecidableEq, Repr

/-- The number of a channel (R90). -/
def Chan.num : Chan → Nat
  | .left => 0
  | .right => 1

/-- One transfer on the command port: `cmd_word`, `cmd_op0`, `cmd_op1` (R81). -/
structure Command where
  word : Word
  op0 : Word
  op1 : Word
deriving DecidableEq, Repr

/-- A command, with the operand words it uses (R83). A register index is a number; `Instr.wf` says when
it fits the 8-bit `arg` field. -/
inductive Instr where
  /-- NOP (R180). -/
  | nop
  /-- PREPARE.PLAIN sampleRate, maxDelaySeconds (R181). -/
  | preparePlain (s m : Word)
  /-- PREPARE.MOD sampleRate, maxDelaySeconds (R181). -/
  | prepareMod (s m : Word)
  /-- PREPARE.UTIL sampleRate, maxDelaySeconds (R181). -/
  | prepareUtil (s m : Word)
  /-- PROCESS leftIn, rightIn (R160). -/
  | process (inL inR : Word)
  /-- WRREG idx, value (R187). -/
  | wrreg (idx : Nat) (v : Word)
  /-- RDREG idx (R188). -/
  | rdreg (idx : Nat)
  /-- RDMEM ch, index (R189). -/
  | rdmem (ch : Chan) (i : Word)
deriving DecidableEq, Repr

/-! The pseudo-instructions of R92 (`.word` is a `Command` as it stands). -/

/-- SET reg, value (R92). -/
abbrev Instr.set (idx : Nat) (v : Word) : Instr := .wrreg idx v

/-- CHORUS (R92). -/
abbrev Instr.chorus : Instr := .wrreg 0x06 0

/-- FLANGER (R92). -/
abbrev Instr.flanger : Instr := .wrreg 0x06 1

/-- PROCESSM x: the same sample on both channels (R92). -/
abbrev Instr.processM (x : Word) : Instr := .process x x

/-- DEFAULTS: eight WRREG commands in index order with the reset values of R50 (R92). -/
abbrev Instr.defaults : List Instr :=
  [.wrreg 0 0x3F000000, .wrreg 1 0x3F000000, .wrreg 2 0x41200000, .wrreg 3 0x00000000,
   .wrreg 4 0x3F000000, .wrreg 5 0x3F000000, .wrreg 6 0x00000000, .wrreg 7 0x3F000000]

end Sys2Proof
end

