-- ==== Sys2Proof/WellFormed.lean ====
section
/-! DEFINITION. Which command terms have an encoding: the register index is an unsigned 8-bit number
used as it stands (R81, R82). Every other operand fits its field by its type. An unimplemented index
is well formed: it is a legal encoding that raises BadReg (R88). -/

namespace Sys2Proof

/-- The index of WRREG and RDREG fits `cmd_word[7:0]` (R82). -/
def Instr.wf : Instr → Bool
  | .nop => true
  | .preparePlain _ _ => true
  | .prepareMod _ _ => true
  | .prepareUtil _ _ => true
  | .process _ _ => true
  | .wrreg idx _ => idx < 256
  | .rdreg idx => idx < 256
  | .rdmem _ _ => true

end Sys2Proof
end

