-- ==== Sys2Proof/Decode.lean ====
section
/-! DEFINITION. Decoding (R81 to R89): total on any three words and on any bytes, rejecting by name; then
the encoder (R86, R91) and the layouts in bytes (R63) and in one number (the numbering of
spec/opcode_table.json). -/

namespace Sys2Proof

/-- Why a command word is illegal, in the order R89 checks. All four raise the one fault IllegalCmd
(R88, R201). -/
inductive DecodeError where
  /-- opcode 0x06 to 0xFF. -/
  | reservedOpcode
  /-- a non-zero bit in `rsv`. -/
  | reservedBits
  /-- a non-zero must-be-zero bit of `arg`. -/
  | nonzeroArg
  /-- PREPARE with `var` = 3. -/
  | reservedVariant
deriving DecidableEq, Repr

/-- `opc` = `cmd_word[31:24]` (R81). -/
def opcField (w : Word) : Nat := w.toNat / 2 ^ 24

/-- `rsv` = `cmd_word[23:8]` (R81). -/
def rsvField (w : Word) : Nat := w.toNat / 2 ^ 8 % 2 ^ 16

/-- `arg` = `cmd_word[7:0]` (R81). -/
def argField (w : Word) : Nat := w.toNat % 2 ^ 8

/-- PREPARE: `arg[7:2]` must be zero, `arg[1:0]` is the variant, 3 is reserved (R82, R87). -/
def decodePrepare (arg : Nat) (s m : Word) : Except DecodeError Instr :=
  if arg = 0 then .ok (.preparePlain s m)
  else if arg = 1 then .ok (.prepareMod s m)
  else if arg = 2 then .ok (.prepareUtil s m)
  else if arg = 3 then .error .reservedVariant
  else .error .nonzeroArg

/-- RDMEM: `arg[7:1]` must be zero, `arg[0]` is the bank (R82). -/
def decodeRdmem (arg : Nat) (i : Word) : Except DecodeError Instr :=
  if arg = 0 then .ok (.rdmem .left i)
  else if arg = 1 then .ok (.rdmem .right i)
  else .error .nonzeroArg

/-- The decoder, in the order of R89: opcode, `rsv`, must-be-zero bits of `arg`, variant. The operand
words never make a command illegal (R83). -/
def decode (c : Command) : Except DecodeError Instr :=
  let arg := argField c.word
  if 0x05 < opcField c.word then .error .reservedOpcode
  else if rsvField c.word ≠ 0 then .error .reservedBits
  else match opcField c.word with
    | 0x00 => if arg = 0 then .ok .nop else .error .nonzeroArg
    | 0x01 => decodePrepare arg c.op0 c.op1
    | 0x02 => if arg = 0 then .ok (.process c.op0 c.op1) else .error .nonzeroArg
    | 0x03 => .ok (.wrreg arg c.op0)
    | 0x04 => .ok (.rdreg arg)
    | 0x05 => decodeRdmem arg c.op0
    | _ => .error .reservedOpcode

/-- The word of opcode `opc` and argument `arg`, `rsv` zero (R81, R86). -/
def commandWord (opc arg : Nat) : Word := BitVec.ofNat 32 (opc * 2 ^ 24 + arg)

/-- The encoder: R86 and R91, 0 in every ignored operand word. -/
def encode : Instr → Command
  | .nop => ⟨commandWord 0x00 0, 0, 0⟩
  | .preparePlain s m => ⟨commandWord 0x01 0, s, m⟩
  | .prepareMod s m => ⟨commandWord 0x01 1, s, m⟩
  | .prepareUtil s m => ⟨commandWord 0x01 2, s, m⟩
  | .process inL inR => ⟨commandWord 0x02 0, inL, inR⟩
  | .wrreg idx v => ⟨commandWord 0x03 idx, v, 0⟩
  | .rdreg idx => ⟨commandWord 0x04 idx, 0, 0⟩
  | .rdmem ch i => ⟨commandWord 0x05 ch.num, i, 0⟩

/-! ### Commands as bytes: a serial bridge or a test file (R63), little-endian, 12 bytes a command. -/

/-- The four bytes of a word, byte 0 = bits 7:0 first (R63). -/
def wordToBytes (w : Word) : List Byte :=
  [w.extractLsb' 0 8, w.extractLsb' 8 8, w.extractLsb' 16 8, w.extractLsb' 24 8]

/-- The word of four bytes, the first in bits 7:0 (R63). -/
def wordOfBytes (b0 b1 b2 b3 : Byte) : Word := b3 ++ b2 ++ b1 ++ b0

/-- A command as bytes: `cmd_word`, `cmd_op0`, `cmd_op1` in that order, each little-endian. -/
def commandToBytes (c : Command) : List Byte :=
  wordToBytes c.word ++ wordToBytes c.op0 ++ wordToBytes c.op1

/-- Why bytes do not hold a command that the machine would run. -/
inductive ByteDecodeError where
  /-- fewer than the 12 bytes of one transfer are left. -/
  | truncated
  /-- the transfer's word is illegal. -/
  | illegal (e : DecodeError)
deriving DecidableEq, Repr

/-- Reads one command from the front of any list of bytes, with the bytes that follow it. -/
def decodeBytes : List Byte → Except ByteDecodeError (Instr × List Byte)
  | b0 :: b1 :: b2 :: b3 :: b4 :: b5 :: b6 :: b7 :: b8 :: b9 :: b10 :: b11 :: rest =>
    match decode ⟨wordOfBytes b0 b1 b2 b3, wordOfBytes b4 b5 b6 b7, wordOfBytes b8 b9 b10 b11⟩ with
    | .ok i => .ok (i, rest)
    | .error e => .error (.illegal e)
  | _ => .error .truncated

/-! ### Commands as one number, numbered as spec/opcode_table.json numbers bits. -/

/-- The transfer whose bits are `w`, of which `nbits` are given and the rest are 0: `cmd_word` is bits
31:0, `cmd_op0` bits 63:32, `cmd_op1` bits 95:64. -/
def commandOfNat (nbits w : Nat) : Command :=
  let v := w % 2 ^ nbits
  ⟨BitVec.ofNat 32 v, BitVec.ofNat 32 (v / 2 ^ 32), BitVec.ofNat 32 (v / 2 ^ 64)⟩

/-- What the decoder reads from a row of the opcode table. -/
def decodeTableWord (nbits w : Nat) : Option Instr :=
  match decode (commandOfNat nbits w) with
  | .ok i => some i
  | .error _ => none

end Sys2Proof
end

