-- ==== Sys2Proof/Config.lean ====
section
/-! DEFINITION. What the spec leaves open and no test can settle: free values, each a constant with no
body, so that every theorem holds whatever they are. The parameter AW of R7 is not here: it is the
field `aw` of State, so that statements over all states hold for every AW and the machine still runs
(log 1). -/

namespace Sys2Proof.Config

/-- The `any F32` of R104: the delayed sample of channel `ch` (0 left, 1 right) when the range check
fails, for the `n`-th failure of that channel (log 7). -/
opaque freeDelayed : (ch : Nat) → (n : Nat) → Word

/-- The free choice behind LFO_SIN (R7, R141): `Machine.lfoSin` takes its values from here wherever R141
admits them (log 8). -/
opaque lfoSinRaw : Word → Word

/-- How far SIN_ERR lies above 2^-23, in units of 2^-64 (log 8). -/
opaque sinErrExtra : Nat

/-- SIN_ERR (R7, V3): a bound of at least 2^-23 that nothing else constrains. -/
def sinErr : Rat := ((2 ^ 41 + sinErrExtra : Nat) : Rat) / 2 ^ 64

end Sys2Proof.Config
end

