-- ==== Sys2Proof/Machine/Float.lean ====
section
/-! DEFINITION. The arithmetic of R10 to R15 and R19 on binary32 patterns. A finite value is held exactly
as a whole number of units of 2^-149, the smallest positive binary32 number, so every primitive is an
exact operation on whole numbers and one rounding. -/

namespace Sys2Proof.Machine

/-! ### Patterns (R8, R19) -/

/-- The sign bit: true is negative. -/
def signBit (w : Word) : Bool := w.msb

/-- Bits 30:0, exponent and fraction as one number; it grows with the magnitude. -/
def magBits (w : Word) : Nat := w.toNat % 2 ^ 31

/-- Bits 30:23, the biased exponent. -/
def expField (w : Word) : Nat := magBits w / 2 ^ 23

/-- Bits 22:0, the fraction. -/
def fracField (w : Word) : Nat := w.toNat % 2 ^ 23

def isNaN (w : Word) : Bool := expField w = 255 && fracField w ≠ 0

def isInf (w : Word) : Bool := expField w = 255 && fracField w = 0

def isFinite (w : Word) : Bool := expField w ≠ 255

/-- A zero of either sign. -/
def isZero (w : Word) : Bool := magBits w = 0

/-- The magnitude of a finite pattern in units of 2^-149 (R19): `(1 + f/2^23) * 2^(e-127)` when `e ≥ 1`,
`(f/2^23) * 2^-126` when `e = 0`. -/
def magUnits (w : Word) : Nat :=
  if expField w = 0 then fracField w else (2 ^ 23 + fracField w) * 2 ^ (expField w - 1)

/-- The value of a finite pattern in units of 2^-149 (R19). -/
def valueUnits (w : Word) : Int := if signBit w then -(magUnits w : Int) else magUnits w

/-- The value of a finite pattern (R19). -/
def valueRat (w : Word) : Rat := (valueUnits w : Rat) / 2 ^ 149

/-- The pattern with sign `neg` and bits 30:0 `m`. -/
def packBits (neg : Bool) (m : Nat) : Word := BitVec.ofNat 32 (if neg then 2 ^ 31 + m else m)

/-- Bits 30:0 of an infinity. -/
def infBits : Nat := 0x7F800000

/-- The one NaN arithmetic produces (R12 b). -/
def canonicalNaN : Word := 0x7FC00000

/-- `1.0` (R15). -/
def one : Word := 0x3F800000

/-- `0.5` (R15). -/
def half : Word := 0x3F000000

/-- `+0` (R15). -/
def plusZero : Word := 0x00000000

/-- `+inf`. -/
def plusInf : Word := 0x7F800000

/-! ### Rounding (R19) -/

/-- The whole number nearest to `n / d`, ties to even. -/
def roundHalfEven (n d : Nat) : Nat :=
  let q := n / d
  let r := n % d
  if 2 * r < d then q else if d < 2 * r then q + 1 else q + q % 2

/-- The rounding of R19 for the magnitude `n / d` units of 2^-149: bits 30:0 of the result. `k` drops the
bits below the last of the 24 a binary32 number keeps, `m` is the rounded significand; a significand
that rounds up to 2^24 carries into the exponent, and a magnitude past the largest finite one gives the
infinity. -/
def roundMag (n d : Nat) : Nat :=
  let k := (n / d).log2 - 23
  let m := roundHalfEven n (d * 2 ^ k)
  min (k * 2 ^ 23 + m) infBits

/-! ### Primitives (R11, R12) -/

/-- Changes the sign bit. -/
def fneg (a : Word) : Word := a ^^^ 0x80000000

/-- IEEE 754 addition (R11, R12): the exact sum, rounded once. An exact zero sum is -0 only when both
operands are negative. -/
def fadd (a b : Word) : Word :=
  if isNaN a || isNaN b then canonicalNaN
  else if isInf a then (if isInf b && signBit a != signBit b then canonicalNaN else a)
  else if isInf b then b
  else
    let x := valueUnits a + valueUnits b
    if x = 0 then packBits (signBit a && signBit b) 0
    else packBits (decide (x < 0)) (roundMag x.natAbs 1)

/-- `fsub(a,b)` equals `fadd(a, -b)` (R11). -/
def fsub (a b : Word) : Word := fadd a (fneg b)

/-- IEEE 754 multiplication (R11, R12). -/
def fmul (a b : Word) : Word :=
  let neg := signBit a != signBit b
  if isNaN a || isNaN b then canonicalNaN
  else if isInf a || isInf b then
    (if isZero a || isZero b then canonicalNaN else packBits neg infBits)
  else packBits neg (roundMag (magUnits a * magUnits b) (2 ^ 149))

/-- IEEE 754 division (R11, R12; an infinity divided by a finite number and a finite number divided by an
infinity as IEEE 754 has them, log 13). -/
def fdiv (a b : Word) : Word :=
  let neg := signBit a != signBit b
  if isNaN a || isNaN b then canonicalNaN
  else if isInf a then (if isInf b then canonicalNaN else packBits neg infBits)
  else if isInf b then packBits neg 0
  else if isZero b then (if isZero a then canonicalNaN else packBits neg infBits)
  else packBits neg (roundMag (magUnits a * 2 ^ 149) (magUnits b))

/-! ### Comparisons (R13) -/

/-- A number that orders the patterns other than NaN as their values are ordered, -0 equal to +0. -/
def orderKey (w : Word) : Int := if signBit w then -(magBits w : Int) else magBits w

/-- `a < b` (R13): false when an operand is NaN. -/
def flt (a b : Word) : Bool := !isNaN a && !isNaN b && decide (orderKey a < orderKey b)

/-- `a <= b` (R13). -/
def fle (a b : Word) : Bool := !isNaN a && !isNaN b && decide (orderKey a ≤ orderKey b)

/-- `a = b` (R13). -/
def feq (a b : Word) : Bool := !isNaN a && !isNaN b && decide (orderKey a = orderKey b)

/-! ### Conversions (R14) -/

/-- `u2f(n)`: exact for n ≤ 2^24 (R14). -/
def u2f (n : Nat) : Word := packBits false (roundMag (n * 2 ^ 149) 1)

/-- `ifloor(v)` for a finite v ≥ 0 (R14). -/
def ifloor (v : Word) : Nat := magUnits v / 2 ^ 149

end Sys2Proof.Machine
end

