-- ==== Sys2Proof/Machine/Interp.lean ====
section
/-! DEFINITION. The linear interpolator (41_interpolator.md). -/

namespace Sys2Proof.Machine

/-- INTERP(x0, x1, frac) (R120): `(1-frac)*x0 + frac*x1`, four primitives. -/
def interp (x0 x1 frac : Word) : Word :=
  let w0 := fsub one frac
  let a := fmul w0 x0
  let b := fmul frac x1
  fadd a b

end Sys2Proof.Machine
end

