-- ==== Sys2Proof/Machine/State.lean ====
section
/-! DEFINITION. The state of KDLY as plain data (R20, R21, R32 to R39, R52), the port of R80 as the host
sees it, the reasons a step can stop, and the state after reset (R54). -/

namespace Sys2Proof.Machine

/-- The variant chosen by PREPARE: 0 PLAIN, 1 MOD, 2 UTIL; 3 is never held (R18, R21, R87). -/
inductive Variant where
  | plain
  | mod
  | util
deriving DecidableEq, Repr

/-- Bit 0 of register MODE: 0 = Chorus, 1 = Flanger (R38, R90). -/
inductive Mode where
  | chorus
  | flanger
deriving DecidableEq, Repr

/-- The seven faults of R200. They are recorded in `err` and in the response; they stop nothing (R203). -/
inductive CmdFault where
  | illegalCmd
  | notPrepared
  | delayRange
  | resourceExhaustion
  | prepareRange
  | badReg
  | badAddr
deriving DecidableEq, Repr

/-- Why the model stops although KDLY never does. -/
inductive Fault where
  /-- A delay-memory access at an index of 2^AW or more, which the bank does not have (R52, R60). Raised by
  PROCESS (DL_WRITE, DL_READI) and RDMEM, only in states outside `State.Inv`, which no run reaches (R62).
  Safe: log 10. -/
  | noSuchWord
deriving DecidableEq, Repr

/-- No meaning for the instruction. -/
inductive Refusal where
  /-- An arm of `exec` without a meaning yet; no arm is in this case. Safe. -/
  | notModelled (mnemonic : String)
deriving DecidableEq, Repr

/-- One bank of the delay memory (R52): (index, word) pairs, indices strictly rising, no pair whose word
is what an unlisted index reads as (`Memory.wf`). The unit is the word: nothing reads or writes part of
one (R63, R65, log 6). -/
abbrev Memory := List (Nat × Word)

/-- The state of one channel (R21, R52): write head, feedback state, bank. `draws` is the model's own: how
many `any F32` values the channel has drawn (log 7). -/
structure Channel where
  wh : Nat
  fb : Word
  mem : Memory
  draws : Nat
deriving DecidableEq, Repr

/-- The eight parameter registers (R32 to R39). -/
structure Params where
  drywet : Word
  depth : Word
  rate : Word
  phaseoff : Word
  feedback : Word
  delaytime : Word
  mode : Mode
  gain : Word
deriving DecidableEq, Repr

/-- A response: `rsp_code`, `rsp_d0`, `rsp_d1` (R84). -/
structure Response where
  code : BitVec 4
  d0 : Word
  d1 : Word
deriving DecidableEq, Repr

/-- What the host does to the port: present a command, or assert `rst_n` (R230, R248). -/
inductive PortEvent where
  | command (c : Command)
  | reset
deriving DecidableEq, Repr

/-- The state of KDLY (R20), its response pins (R80) and the model's own `aw`, `pending`. -/
structure State where
  /-- The parameter AW of R7, which no step writes (log 1). -/
  aw : Nat
  prepared : Bool
  variant : Variant
  err : BitVec 7
  len : Nat
  sr : Word
  maxdly : Word
  left : Channel
  right : Channel
  phase : Word
  smTime : Word
  smGain : Word
  par : Params
  /-- The response presented in this step; `none` is `rsp_valid` = 0 (R85). -/
  rsp : Option Response
  /-- What the host presents next, first entry first (log 2). -/
  pending : List PortEvent
deriving DecidableEq, Repr

/-- The parameter registers after reset (R54): the document's defaults. -/
def Params.reset : Params :=
  { drywet := 0x3F000000, depth := 0x3F000000, rate := 0x41200000, phaseoff := 0x00000000,
    feedback := 0x3F000000, delaytime := 0x3F000000, mode := .chorus, gain := 0x3F000000 }

/-- A channel after reset (R54), its memory with nothing listed (log 5). -/
def Channel.reset : Channel := { wh := 0, fb := 0x00000000, mem := [], draws := 0 }

/-- The state right after reset for a given AW (R54). -/
def State.resetWith (aw : Nat) : State :=
  { aw := aw, prepared := false, variant := .plain, err := 0, len := 0, sr := 0x00000000,
    maxdly := 0x00000000, left := Channel.reset, right := Channel.reset, phase := 0x00000000,
    smTime := 0x00000000, smGain := 0x00000000, par := Params.reset, rsp := none, pending := [] }

/-- The state right after reset with the default AW = 19 of R7 (log 1). -/
def State.reset : State := State.resetWith 19

end Sys2Proof.Machine
end

