-- ==== Sys2Proof/Machine/Flags.lean ====
section
/-! DEFINITION. The sticky fault bits (R30, R43, R200), the words software reads them and STATUS in
(R42, R43), and the `fault` pin (R209). There are no condition codes and no arithmetic flags (R30). -/

namespace Sys2Proof.Machine

/-- The response code of a fault (R84, R200). -/
def CmdFault.code : CmdFault → BitVec 4
  | .illegalCmd => 1
  | .notPrepared => 2
  | .delayRange => 3
  | .resourceExhaustion => 4
  | .prepareRange => 5
  | .badReg => 6
  | .badAddr => 7

/-- The `err` bit of a fault (R43, R200): bit n belongs to the fault whose code is n + 1. -/
def CmdFault.mask : CmdFault → BitVec 7
  | .illegalCmd => 0b0000001
  | .notPrepared => 0b0000010
  | .delayRange => 0b0000100
  | .resourceExhaustion => 0b0001000
  | .prepareRange => 0b0010000
  | .badReg => 0b0100000
  | .badAddr => 0b1000000

/-- The 2-bit code of a variant (R87, R90). -/
def Variant.code : Variant → Nat
  | .plain => 0
  | .mod => 1
  | .util => 2

/-- Register MODE as a word: bit 0, the rest zero (R38). -/
def Mode.word : Mode → Word
  | .chorus => 0
  | .flanger => 1

/-- What a write of `v` to MODE keeps: bit 0 (R38, R187). -/
def Mode.ofWord (v : Word) : Mode := if v.getLsbD 0 then .flanger else .chorus

/-- Register STATUS (R42): bit 0 PREPARED, bits 2:1 VARIANT, the rest zero. -/
def statusWord (prepared : Bool) (v : Variant) : Word :=
  BitVec.ofNat 32 (prepared.toNat + 2 * v.code)

/-- Register ERR (R43): bits 6:0 are `err`, the rest zero. -/
def errWord (err : BitVec 7) : Word := err.zeroExtend 32

/-- The `fault` pin (R209): the OR of the seven bits. -/
def State.faultPin (s : State) : Bool := s.err ≠ 0

/-- The pin `rsp_valid` (R80, R85). -/
def State.rspValid (s : State) : Bool := s.rsp.isSome

/-- Is the sticky bit of `f` set? -/
def State.recorded (s : State) (f : CmdFault) : Bool := s.err &&& f.mask ≠ 0

end Sys2Proof.Machine
end

