-- ==== Sys2Proof/Machine/Ops.lean ====
section
/-! DEFINITION. The operations every command is built from: reads and writes of the delay memory (R9, R52,
R60), recording a fault and answering (R203, R84), and what the port does between commands (R85, R230,
R232). KDLY takes no exception and returns from none (R212, R213): `raiseFault` is the whole mechanism. -/

namespace Sys2Proof.Machine

/-! ### The delay memory -/

/-- What an index that is not listed reads as: +0, what DL_CLEAR leaves (R107) and, by choice, what reset
leaves (log 5). -/
def unlistedWord : Word := 0x00000000

/-- The word at index `i` of a bank. -/
def Memory.read : Memory → Nat → Word
  | [], _ => unlistedWord
  | (k, w) :: rest, i => if i = k then w else Memory.read rest i

/-- `rest` with the pair `(i, v)` in front, unless `v` is what an unlisted index reads as. -/
def Memory.push (i : Nat) (v : Word) (rest : Memory) : Memory :=
  if v = unlistedWord then rest else (i, v) :: rest

/-- The bank with the whole word at index `i` replaced by `v` (R65), in canonical form. -/
def Memory.write : Memory → Nat → Word → Memory
  | [], i, v => Memory.push i v []
  | (k, w) :: rest, i, v =>
    if i < k then Memory.push i v ((k, w) :: rest)
    else if i = k then Memory.push i v rest
    else (k, w) :: Memory.write rest i v

/-- The bank with +0 at every index below `n` and the rest as it was (R107). -/
def Memory.clear (n : Nat) (m : Memory) : Memory := m.filter fun c => n ≤ c.1

/-- Every index listed is `lo` or more, they rise strictly, and no word listed is what an unlisted index
reads as. -/
def Memory.wfFrom : Nat → Memory → Bool
  | _, [] => true
  | lo, (k, w) :: rest => lo ≤ k && w ≠ unlistedWord && Memory.wfFrom (k + 1) rest

/-- The canonical form: equal banks are equal lists. -/
def Memory.wf (m : Memory) : Bool := Memory.wfFrom 0 m

/-- Every index listed exists in a bank of `depth` words (R52). -/
def Memory.within (depth : Nat) (m : Memory) : Bool := m.all fun c => c.1 < depth

/-- DEPTH, the number of words of a bank: 2^AW (R7). -/
def depthWords (aw : Nat) : Nat := 2 ^ aw

/-- `MemRead(ch:i, 1)` (R9); an index the bank does not have stops the model (log 10). -/
def memRead (aw : Nat) (m : Memory) (i : Nat) : Except Fault Word :=
  if i < depthWords aw then .ok (Memory.read m i) else .error .noSuchWord

/-- `MemWrite(ch:i, 1, v)` (R9); an index the bank does not have stops the model (log 10). -/
def memWrite (aw : Nat) (m : Memory) (i : Nat) (v : Word) : Except Fault Memory :=
  if i < depthWords aw then .ok (Memory.write m i v) else .error .noSuchWord

/-- The channel of a number (R90). -/
def State.chan (s : State) : Chan → Channel
  | .left => s.left
  | .right => s.right

/-! ### Faults and responses -/

/-- `raise F` (R203): sets the sticky bit of `f`, and nothing else of the state. -/
def raiseFault (f : CmdFault) (s : State) : State := { s with err := s.err ||| f.mask }

/-- `respond(code, d0, d1)` (R9, R84): presents the response. -/
def respond (code : BitVec 4) (d0 d1 : Word) (s : State) : State := { s with rsp := some ⟨code, d0, d1⟩ }

/-- The response of a command that completes without fault: code 0 (R84). -/
def respondOk (d0 d1 : Word) (s : State) : State := respond 0 d0 d1 s

/-- A command that a fault ends: the bit, the fault's code and zero data (R203, R84). -/
def reject (f : CmdFault) (s : State) : State := respond f.code 0 0 (raiseFault f s)

/-! ### The port -/

/-- A cycle in which the host presents nothing: the core waits, no response is presented (R85, R232). -/
def idle (s : State) : State := { s with rsp := none }

/-- `rst_n` asserted (R230): the registers of R21 and the parameter registers take the values of R54,
`rsp_valid` becomes 0, the delay memory is not written. AW and what the host presents next are no part of
it, and a free value already drawn is not drawn again (log 7). -/
def resetEvent (s : State) : State :=
  { State.resetWith s.aw with
    left := { Channel.reset with mem := s.left.mem, draws := s.left.draws }
    right := { Channel.reset with mem := s.right.mem, draws := s.right.draws }
    pending := s.pending }

/-- An illegal command word (R88, R201): IllegalCmd, response (1, 0, 0), nothing else. -/
def illegalCommand (s : State) : State := reject .illegalCmd s

/-- What the host presents in this step, and the state with it taken from the port (R85). -/
def takeEvent (s : State) : Option (PortEvent × State) :=
  match s.pending with
  | [] => none
  | e :: rest => some (e, { s with pending := rest })

end Sys2Proof.Machine
end

