-- ==== Sys2Proof/Machine/DelayLine.lean ====
section
/-! DEFINITION. The delay line (40_delay_line.md): DL_WRITE, DL_READI with its range check, read position
and split, DL_ADVANCE, DL_CLEAR. -/

namespace Sys2Proof.Machine

/-- DL_WRITE(ch, v) (R101): stores `v` at the write head, which does not move. -/
def dlWrite (aw : Nat) (v : Word) (c : Channel) : Except Fault Channel :=
  match memWrite aw c.mem c.wh v with
  | .ok m => .ok { c with mem := m }
  | .error e => .error e

/-- The delay range check (R104): `+0 <= d < u2f(len)`. -/
def delayInRange (len : Nat) (d : Word) : Bool := fle plusZero d && flt d (u2f len)

/-- READPOS(ch, d) (R103): the read position, with its two corrections. -/
def readPos (len wh : Nat) (d : Word) : Word :=
  let l := u2f len
  let pos0 := fsub (u2f wh) d
  let pos1 := if flt pos0 plusZero then fadd pos0 l else pos0
  if fle l pos1 then fsub pos1 l else pos1

/-- The next index, which wraps where it would equal the length (R105, R106). -/
def nextIndex (len i : Nat) : Nat := if i + 1 = len then 0 else i + 1

/-- What SPLIT leaves (R105): floor index, next index, fraction. -/
structure ReadPoint where
  i0 : Nat
  i1 : Nat
  frac : Word
deriving DecidableEq, Repr

/-- SPLIT(pos2) (R105). -/
def splitPos (len : Nat) (pos2 : Word) : ReadPoint :=
  { i0 := ifloor pos2, i1 := nextIndex len (ifloor pos2), frac := fsub pos2 (u2f (ifloor pos2)) }

/-- Step 4 of R155: where a channel reads for delay `d`. -/
def readPoint (len wh : Nat) (d : Word) : ReadPoint := splitPos len (readPos len wh d)

/-- DL_READI(ch, d) (R102): the delayed sample and whether the range check failed. On a failure no word is
read and the sample is the channel's next `any F32` (R104, log 7). -/
def dlReadI (ch : Chan) (aw len : Nat) (d : Word) (c : Channel) : Except Fault (Word × Bool) :=
  if delayInRange len d then
    let p := readPoint len c.wh d
    match memRead aw c.mem p.i0, memRead aw c.mem p.i1 with
    | .ok x0, .ok x1 => .ok (interp x0 x1 p.frac, false)
    | .error e, _ => .error e
    | .ok _, .error e => .error e
  else .ok (Config.freeDelayed ch.num c.draws, true)

/-- DL_ADVANCE(ch) (R106). -/
def dlAdvance (len : Nat) (c : Channel) : Channel := { c with wh := nextIndex len c.wh }

/-- DL_CLEAR for one bank (R107): +0 in slots 0 to len-1, nothing else written. -/
def dlClear (len : Nat) (c : Channel) : Channel := { c with mem := Memory.clear len c.mem }

end Sys2Proof.Machine
end

