-- ==== Sys2Proof/Machine/Operands.lean ====
section
/-! DEFINITION. The operand forms: register indices (R31, R50), reads and writes of registers (R32 to R49),
the operands of PREPARE (R181, R183) and of RDMEM (R189). -/

namespace Sys2Proof.Machine

/-- The parameter registers, indices 0x00 to 0x07 (R50). -/
inductive ParamReg where
  | drywet
  | depth
  | rate
  | phaseoff
  | feedback
  | delaytime
  | mode
  | gain
deriving DecidableEq, Repr

/-- The status registers, indices 0x10 to 0x1D, read-only (R50). -/
inductive StatusReg where
  | id
  | cap
  | status
  | err
  | length
  | sr
  | maxdly
  | wh0
  | wh1
  | fb0
  | fb1
  | lfophase
  | smtime
  | smgain
deriving DecidableEq, Repr

/-- The parameter register of an index (R50). -/
def paramOfIdx : Nat → Option ParamReg
  | 0x00 => some .drywet
  | 0x01 => some .depth
  | 0x02 => some .rate
  | 0x03 => some .phaseoff
  | 0x04 => some .feedback
  | 0x05 => some .delaytime
  | 0x06 => some .mode
  | 0x07 => some .gain
  | _ => none

/-- The status register of an index (R50). -/
def statusOfIdx : Nat → Option StatusReg
  | 0x10 => some .id
  | 0x11 => some .cap
  | 0x12 => some .status
  | 0x13 => some .err
  | 0x14 => some .length
  | 0x15 => some .sr
  | 0x16 => some .maxdly
  | 0x17 => some .wh0
  | 0x18 => some .wh1
  | 0x19 => some .fb0
  | 0x1A => some .fb1
  | 0x1B => some .lfophase
  | 0x1C => some .smtime
  | 0x1D => some .smgain
  | _ => none

/-- The word of a parameter register (R32 to R39). -/
def readParam (r : ParamReg) (p : Params) : Word :=
  match r with
  | .drywet => p.drywet
  | .depth => p.depth
  | .rate => p.rate
  | .phaseoff => p.phaseoff
  | .feedback => p.feedback
  | .delaytime => p.delaytime
  | .mode => p.mode.word
  | .gain => p.gain

/-- A write of `v` to a parameter register: the 32 bits as they are, bit 0 only for MODE (R187). -/
def writeParam (r : ParamReg) (v : Word) (p : Params) : Params :=
  match r with
  | .drywet => { p with drywet := v }
  | .depth => { p with depth := v }
  | .rate => { p with rate := v }
  | .phaseoff => { p with phaseoff := v }
  | .feedback => { p with feedback := v }
  | .delaytime => { p with delaytime := v }
  | .mode => { p with mode := Mode.ofWord v }
  | .gain => { p with gain := v }

/-- ID_WORD (R1, R7, R40). -/
def idWord : Word := 0x4B444C01

/-- The word of a status register (R40 to R49). -/
def readStatus (r : StatusReg) (s : State) : Word :=
  match r with
  | .id => idWord
  | .cap => BitVec.ofNat 32 (depthWords s.aw)
  | .status => statusWord s.prepared s.variant
  | .err => errWord s.err
  | .length => BitVec.ofNat 32 s.len
  | .sr => s.sr
  | .maxdly => s.maxdly
  | .wh0 => BitVec.ofNat 32 s.left.wh
  | .wh1 => BitVec.ofNat 32 s.right.wh
  | .fb0 => s.left.fb
  | .fb1 => s.right.fb
  | .lfophase => s.phase
  | .smtime => s.smTime
  | .smgain => s.smGain

/-- `x[idx]` for RDREG: none where the index is unimplemented (R31, R188). -/
def readReg (idx : Nat) (s : State) : Option Word :=
  match paramOfIdx idx with
  | some r => some (readParam r s.par)
  | none =>
    match statusOfIdx idx with
    | some r => some (readStatus r s)
    | none => none

/-- `x[idx] <- v` for WRREG: none where the index is read-only or unimplemented (R31, R187). -/
def writeReg (idx : Nat) (v : Word) (s : State) : Option State :=
  match paramOfIdx idx with
  | some r => some { s with par := writeParam r v s.par }
  | none => none

/-- A finite number above zero: the test of R181 on each operand of PREPARE. -/
def finitePositive (w : Word) : Bool := flt plusZero w && flt w plusInf

/-- The checks of PREPARE on its operands, in the order of R181 and R210: the fault, or the length of R183. -/
def prepareLength (aw : Nat) (s m : Word) : Except CmdFault Nat :=
  if !(finitePositive s && finitePositive m) then .error .prepareRange
  else
    let prod := fmul s m
    if flt prod one then .error .prepareRange
    else if feq prod plusInf || decide (depthWords aw < ifloor prod) then .error .resourceExhaustion
    else .ok (ifloor prod)

end Sys2Proof.Machine
end

