-- ==== Sys2Proof/Machine/Control.lean ====
section
/-! DEFINITION. The control commands (45_control.md): NOP, PREPARE, WRREG, RDREG, RDMEM. -/

namespace Sys2Proof.Machine

/-- NOP (R180): answers, changes nothing else. -/
def execNop (s : State) : Host.Outcome State Fault Refusal := .next (respondOk 0 0 s)

/-- What a successful PREPARE leaves of a channel (R184): slots below `len` at +0, write head 0, feedback +0. -/
def prepareChannel (len : Nat) (c : Channel) : Channel := { dlClear len c with wh := 0, fb := plusZero }

/-- The state of a successful PREPARE (R181, R182, R184), SM_RESET of both smoothers (R128) included. -/
def prepareState (v : Variant) (sr m : Word) (len : Nat) (s : State) : State :=
  { s with
    len := len, sr := sr, maxdly := m, variant := v
    left := prepareChannel len s.left, right := prepareChannel len s.right
    phase := plusZero, smTime := s.par.delaytime, smGain := s.par.gain, prepared := true }

/-- PREPARE (R181): a failed check records its fault and leaves the block unprepared (R185). -/
def prepare (v : Variant) (sr m : Word) (s : State) : State :=
  match prepareLength s.aw sr m with
  | .error f => reject f { s with prepared := false }
  | .ok len => respondOk (BitVec.ofNat 32 len) 0 (prepareState v sr m len s)

/-- PREPARE.PLAIN sampleRate, maxDelaySeconds (R181). -/
def execPreparePlain (sr m : Word) (s : State) : Host.Outcome State Fault Refusal :=
  .next (prepare .plain sr m s)

/-- PREPARE.MOD sampleRate, maxDelaySeconds (R181). -/
def execPrepareMod (sr m : Word) (s : State) : Host.Outcome State Fault Refusal :=
  .next (prepare .mod sr m s)

/-- PREPARE.UTIL sampleRate, maxDelaySeconds (R181). -/
def execPrepareUtil (sr m : Word) (s : State) : Host.Outcome State Fault Refusal :=
  .next (prepare .util sr m s)

/-- WRREG idx, v (R187): BadReg where the index is no parameter register. -/
def execWrreg (idx : Nat) (v : Word) (s : State) : Host.Outcome State Fault Refusal :=
  match writeReg idx v s with
  | some s' => .next (respondOk 0 0 s')
  | none => .next (reject .badReg s)

/-- RDREG idx (R188): BadReg where the index is unimplemented. -/
def execRdreg (idx : Nat) (s : State) : Host.Outcome State Fault Refusal :=
  match readReg idx s with
  | some w => .next (respondOk w 0 s)
  | none => .next (reject .badReg s)

/-- RDMEM ch, i (R189): NotPrepared, then BadAddr, then the slot's word. -/
def execRdmem (ch : Chan) (i : Word) (s : State) : Host.Outcome State Fault Refusal :=
  if !s.prepared then .next (reject .notPrepared s)
  else if s.len ≤ i.toNat then .next (reject .badAddr s)
  else
    match memRead s.aw (s.chan ch).mem i.toNat with
    | .ok w => .next (respondOk w 0 s)
    | .error e => .fault e

end Sys2Proof.Machine
end

