-- ==== Sys2Proof/Machine/Lfo.lean ====
section
/-! DEFINITION. The LFO (43_lfo.md): phase advance, secondary phase, the sine and what R141 fixes of it,
and the map into the delay-time window. -/

namespace Sys2Proof.Machine

/-- WRAP1(p) (R135): one conditional subtraction; the wrap is at 1.0 or above (R137). -/
def wrap1 (p : Word) : Word := if fle one p then fsub p one else p

/-- LFO_ADV(rate) (R136): the advanced phase. -/
def lfoAdv (rate sr phase : Word) : Word := wrap1 (fadd phase (fdiv rate sr))

/-- LFO_PH2(off) (R138): the secondary phase, from the advanced phase. -/
def lfoPh2 (off phase : Word) : Word := wrap1 (fadd phase off)

/-! ### LFO_SIN (R141)

R141 fixes no function: it fixes which functions are admissible. `lfoSin` is the free function
`Config.lfoSinRaw` wherever that is admissible, so that it can be any admissible function and no other
(log 8). To say which values lie within SIN_ERR of the real sine it uses a polynomial in exact rational
arithmetic, whose own error is below `sinRatErr`. -/

/-- Half of pi to 22 decimals, rounded down. -/
def halfPi : Rat := 15707963267948966192313 / 10 ^ 22

/-- `n` factors of the Taylor polynomial of the sine from the `k`-th on, in nested form; `y2` is the
square of the argument. -/
def sinTail (y2 : Rat) : Nat → Nat → Rat
  | 0, _ => 1
  | n + 1, k => 1 - y2 / ((2 * k * (2 * k + 1) : Nat) : Rat) * sinTail y2 n (k + 1)

/-- The Taylor polynomial of the sine to the term y^19/19!. -/
def sinPoly (y : Rat) : Rat := y * sinTail (y * y) 9 1

/-- sin(2*pi*x) for 0 ≤ x < 1 up to `sinRatErr`, by the symmetry of the sine about a quarter and three
quarters of a cycle. -/
def sinRat (x : Rat) : Rat :=
  if x ≤ 1 / 4 then sinPoly (4 * x * halfPi)
  else if x ≤ 3 / 4 then sinPoly ((2 - 4 * x) * halfPi)
  else sinPoly ((4 * x - 4) * halfPi)

/-- A bound on the error of `sinRat`: 2^-45. -/
def sinRatErr : Rat := 1 / 2 ^ 45

/-- The nearest number in [-1, 1]. -/
def clampUnit (r : Rat) : Rat := if r < -1 then -1 else if 1 < r then 1 else r

/-- A rational rounded to binary32 (R19). -/
def roundRat (r : Rat) : Word := packBits (decide (r < 0)) (roundMag (r.num.natAbs * 2 ^ 149) r.den)

/-- Is `v` a value that R141 (b) and (d) admit at phase `p`, 0 ≤ p < 1: finite, in [-1, 1], within SIN_ERR of
the sine? -/
def sinAdmits (p v : Word) : Bool :=
  let x := valueRat v
  let c := sinRat (valueRat p)
  let b := Config.sinErr - sinRatErr
  isFinite v && decide (-1 ≤ x) && decide (x ≤ 1) && decide (c - b ≤ x) && decide (x ≤ c + b)

/-- `-1.0`. -/
def minusOne : Word := 0xBF800000

/-- LFO_SIN at a phase in [0, 1): exact at the four quarter points (R141 c); elsewhere the free function
where it is admissible, and an admissible value where it is not. -/
def lfoSinUnit (p : Word) : Word :=
  if p = 0x00000000 then plusZero
  else if p = 0x3E800000 then one
  else if p = 0x3F000000 then plusZero
  else if p = 0x3F400000 then minusOne
  else if sinAdmits p (Config.lfoSinRaw p) then Config.lfoSinRaw p
  else roundRat (clampUnit (sinRat (valueRat p)))

/-- LFO_SIN(p) (R141): the canonical NaN for a NaN and a free function of `p` for any other `p` outside
[0, 1) (e). -/
def lfoSin (p : Word) : Word :=
  if isNaN p then canonicalNaN
  else if fle plusZero p && flt p one then lfoSinUnit p
  else Config.lfoSinRaw p

/-! ### The map (R142, R143, R144) -/

/-- The delay-time window of a mode: T_CH_LO, T_CH_HI or T_FL_LO, T_FL_HI (R7, R144). -/
def window : Mode → Word × Word
  | .chorus => (0x3BA3D70A, 0x3CF5C28F)
  | .flanger => (0x3A83126F, 0x3BA3D70A)

/-- LFO_MAP(m, mode) (R143): the delay time in seconds. -/
def lfoMap (m : Word) (mode : Mode) : Word :=
  let (lo, hi) := window mode
  let u := fmul (fadd m one) half
  interp lo hi u

/-- The delay time of a channel from its phase: sine, depth scaling (R142), map. -/
def lfoTime (ph depth : Word) (mode : Mode) : Word := lfoMap (fmul (lfoSin ph) depth) mode

end Sys2Proof.Machine
end

