-- ==== Sys2Proof/Machine/Smoother.lean ====
section
/-! DEFINITION. The parameter smoother (42_smoother.md). -/

namespace Sys2Proof.Machine

/-- K_TIME, the binary32 nearest 0.001 (R7, R126, R127). -/
def kTime : Word := 0x3A83126F

/-- K_GAIN, the binary32 nearest 0.004 (R7, R126, R127). -/
def kGain : Word := 0x3B83126F

/-- SM_STEP(cur, target, k) (R125): `cur - k*(cur - target)`, three primitives. -/
def smStep (cur target k : Word) : Word :=
  let e := fsub cur target
  let s := fmul k e
  fsub cur s

end Sys2Proof.Machine
end

