-- ==== Sys2Proof/Machine/Engine.lean ====
section
/-! DEFINITION. The effect engine (44_engine.md): the once-per-sample section, the eight steps of a channel,
the two mixers, and the command PROCESS. -/

namespace Sys2Proof.Machine

/-- FB_UPDATE (R167). -/
def fbUpdate (delayed fbk : Word) : Word := fmul delayed fbk

/-- MIX_XFADE(x, y, w) (R169): the dry/wet crossfade of PLAIN and MOD, four primitives. -/
def mixXfade (x y w : Word) : Word :=
  let g := fsub one w
  let dry := fmul x g
  let wet := fmul y w
  fadd dry wet

/-- MIX_ADD(g, x, y) (R170): the sum of UTIL. -/
def mixAdd (g x y : Word) : Word := fadd (fmul g x) y

/-- What the once-per-sample section leaves (R161): the stepped units and each channel's delay time. -/
structure Shared where
  smTime : Word
  smGain : Word
  phase : Word
  tLeft : Word
  tRight : Word
deriving DecidableEq, Repr

/-- The once-per-sample section (R160, R161, R126, R140, R147): the time smoother in PLAIN and UTIL, the gain
smoother in UTIL, the LFO in MOD; a unit the variant does not use keeps its value. -/
def sharedSection (s : State) : Shared :=
  match s.variant with
  | .plain =>
    let t := smStep s.smTime s.par.delaytime kTime
    { smTime := t, smGain := s.smGain, phase := s.phase, tLeft := t, tRight := t }
  | .util =>
    let t := smStep s.smTime s.par.delaytime kTime
    { smTime := t, smGain := smStep s.smGain s.par.gain kGain, phase := s.phase, tLeft := t, tRight := t }
  | .mod =>
    let ph := lfoAdv s.par.rate s.sr s.phase
    { smTime := s.smTime, smGain := s.smGain, phase := ph
      tLeft := lfoTime ph s.par.depth s.par.mode
      tRight := lfoTime (lfoPh2 s.par.phaseoff ph) s.par.depth s.par.mode }

/-- Step 8 (R169, R170, R172): the variant's mixer; `g` is the stepped `sm_gain`, `w` is DRYWET. -/
def mixOut (v : Variant) (g w x y : Word) : Word :=
  match v with
  | .util => mixAdd g x y
  | .plain => mixXfade x y w
  | .mod => mixXfade x y w

/-- Delay in samples (R163). -/
def delaySamples (t sr : Word) : Word := fmul t sr

/-- What a channel's steps leave: the channel, the delayed sample, and whether its delay failed the check. -/
structure ChannelStep where
  chan : Channel
  delayed : Word
  failed : Bool
deriving DecidableEq, Repr

/-- Steps 1 to 7 for one channel, in the order of R155 and R160: feedback-augmented input (R164), store (R165),
delay in samples `d` (R163), read (R166), feedback (R167), advance (R168). -/
def channelStep (ch : Chan) (aw len : Nat) (d fbk x : Word) (c : Channel) : Except Fault ChannelStep :=
  match dlWrite aw (fadd x c.fb) c with
  | .error e => .error e
  | .ok c1 =>
    match dlReadI ch aw len d c1 with
    | .error e => .error e
    | .ok (y, failed) =>
      let c2 := { c1 with fb := fbUpdate y fbk, draws := if failed then c1.draws + 1 else c1.draws }
      .ok { chan := dlAdvance len c2, delayed := y, failed := failed }

/-- PROCESS with the two channels' steps done: state written, DelayRange recorded, outputs mixed and
answered (R160, R204). -/
def processFinish (sh : Shared) (l r : ChannelStep) (inL inR : Word) (s : State) : State :=
  let outL := mixOut s.variant sh.smGain s.par.drywet inL l.delayed
  let outR := mixOut s.variant sh.smGain s.par.drywet inR r.delayed
  let s1 := { s with left := l.chan, right := r.chan, smTime := sh.smTime, smGain := sh.smGain, phase := sh.phase }
  if l.failed || r.failed then respond CmdFault.delayRange.code outL outR (raiseFault .delayRange s1)
  else respondOk outL outR s1

/-- PROCESS leftIn, rightIn (R160): NotPrepared before anything else (R177); otherwise the section shared by
both channels, then each channel. The registers are read in place (R162). -/
def execProcess (inL inR : Word) (s : State) : Host.Outcome State Fault Refusal :=
  if s.prepared then
    let sh := sharedSection s
    match channelStep .left s.aw s.len (delaySamples sh.tLeft s.sr) s.par.feedback inL s.left,
          channelStep .right s.aw s.len (delaySamples sh.tRight s.sr) s.par.feedback inR s.right with
    | .ok l, .ok r => .next (processFinish sh l r inL inR s)
    | .error e, _ => .fault e
    | .ok _, .error e => .fault e
  else .next (reject .notPrepared s)

end Sys2Proof.Machine
end

