-- ==== Sys2Proof/Machine/Dispatch.lean ====
section
/-! DEFINITION. Which meaning each command has: one arm per constructor, in the order of spec/opcode_table.json. -/

namespace Sys2Proof.Machine

def exec (i : Instr) (s : State) : Host.Outcome State Fault Refusal :=
  match i with
  | .nop => Sys2Proof.Machine.execNop s
  | .preparePlain sr m => Sys2Proof.Machine.execPreparePlain sr m s
  | .prepareMod sr m => Sys2Proof.Machine.execPrepareMod sr m s
  | .prepareUtil sr m => Sys2Proof.Machine.execPrepareUtil sr m s
  | .process inL inR => Sys2Proof.Machine.execProcess inL inR s
  | .wrreg idx v => Sys2Proof.Machine.execWrreg idx v s
  | .rdreg idx => Sys2Proof.Machine.execRdreg idx s
  | .rdmem ch slot => Sys2Proof.Machine.execRdmem ch slot s

end Sys2Proof.Machine
end

