-- ==== Sys2Proof/Machine/Step.lean ====
section
/-! DEFINITION. One step: what the host presents next, to completion (R6, R53, R66, R85). There is no program
counter and no fetch (R22). -/

namespace Sys2Proof.Machine

/-- A command accepted on the port: an illegal word is answered (R201), a legal one is executed (R89). -/
def runCommand (c : Command) (s : State) : Host.Outcome State Fault Refusal :=
  match decode c with
  | .ok i => exec i s
  | .error _ => .next (illegalCommand s)

/-- One step: nothing presented (R232), reset asserted (R230), or one command (R85). -/
def step (s : State) : Host.Outcome State Fault Refusal :=
  match takeEvent s with
  | none => .next (idle s)
  | some (.reset, s1) => .next (resetEvent s1)
  | some (.command c, s1) => runCommand c s1

/-- The state in which the host presents the transfer with bits `w` next (log 2). -/
def State.withFetchWord (s : State) (nbits w : Nat) : State :=
  { s with pending := .command (commandOfNat nbits w) :: s.pending }

end Sys2Proof.Machine
end

