-- ==== Sys2Proof/Safety.lean ====
section
/-! DEFINITION. What counts as a good state and a safe run, in the terms the statements use: the invariant
(R23, R24, R25, R29, R52), the delays PROCESS will ask for (R163), what the host can see of two states (R54),
runs (R250), and the premises about numbers. -/

namespace Sys2Proof.Machine

/-- The invariant of KDLY: every state that a run reaches has it. -/
structure State.Inv (s : State) : Prop where
  /-- AW is a legal parameter: 1 to 24 (R7). -/
  aw_pos : 1 ≤ s.aw
  aw_le : s.aw ≤ 24
  /-- `len` fits the bank (R25). -/
  len_le : s.len ≤ depthWords s.aw
  /-- While prepared the length is at least 1 (R25). -/
  len_pos : s.prepared = true → 1 ≤ s.len
  /-- While prepared the length is the floor of the product PREPARE formed from the latched operands (R29, R183). -/
  len_latched : s.prepared = true → s.len = ifloor (fmul s.sr s.maxdly)
  /-- While prepared the latched operands passed PREPARE's test (R29, R181). -/
  sr_ok : s.prepared = true → finitePositive s.sr = true
  maxdly_ok : s.prepared = true → finitePositive s.maxdly = true
  /-- A write head has AW bits (R21), and while prepared it is a slot (R23). -/
  wh_width : s.left.wh < depthWords s.aw
  wh_lt : s.prepared = true → s.left.wh < s.len
  /-- The two write heads are equal (R24). -/
  wh_eq : s.right.wh = s.left.wh
  /-- Both banks are canonical and list only words they have (R52). -/
  left_wf : Memory.wf s.left.mem = true
  right_wf : Memory.wf s.right.mem = true
  left_within : Memory.within (depthWords s.aw) s.left.mem = true
  right_within : Memory.within (depthWords s.aw) s.right.mem = true

/-- The delay in samples that the next PROCESS asks of a channel (R163). -/
def State.delayOf (s : State) : Chan → Word
  | .left => delaySamples (sharedSection s).tLeft s.sr
  | .right => delaySamples (sharedSection s).tRight s.sr

/-- Both channels' delays pass the range check (R104, R234). -/
def State.delaysInRange (s : State) : Bool :=
  delayInRange s.len (s.delayOf .left) && delayInRange s.len (s.delayOf .right)

/-- The states differ at most in delay-memory words that no command can read: any word while not
prepared, words at `len` and above while prepared (R52, R54, V6, V7). -/
structure SameVisible (s t : State) : Prop where
  rest : { s with left := { s.left with mem := [] }, right := { s.right with mem := [] } } =
    { t with left := { t.left with mem := [] }, right := { t.right with mem := [] } }
  left_slots : s.prepared = true → ∀ i, i < s.len → Memory.read s.left.mem i = Memory.read t.left.mem i
  right_slots : s.prepared = true → ∀ i, i < s.len → Memory.read s.right.mem i = Memory.read t.right.mem i

/-- The commands of a list as what the host presents. -/
def presents (is : List Instr) : List PortEvent := is.map fun i => .command (encode i)

/-- The state in which the host presents these commands next, and then nothing. -/
def State.offered (s : State) (is : List Instr) : State := { s with pending := presents is }

/-- `n` steps (R250). -/
def runSteps (n : Nat) (s : State) : Host.Outcome State Fault Refusal := core.run n s

/-- PREPARE of a variant, as a command (R87). -/
def prepareInstr : Variant → Word → Word → Instr
  | .plain => .preparePlain
  | .mod => .prepareMod
  | .util => .prepareUtil

/-- Is the command a PREPARE? -/
def isPrepare : Instr → Bool
  | .nop => false
  | .preparePlain _ _ => true
  | .prepareMod _ _ => true
  | .prepareUtil _ _ => true
  | .process _ _ => false
  | .wrreg _ _ => false
  | .rdreg _ => false
  | .rdmem _ _ => false

/-- Is the command a PROCESS? -/
def isProcess : Instr → Bool
  | .nop => false
  | .preparePlain _ _ => false
  | .prepareMod _ _ => false
  | .prepareUtil _ _ => false
  | .process _ _ => true
  | .wrreg _ _ => false
  | .rdreg _ => false
  | .rdmem _ _ => false

/-- Does the transfer decode to a command with property `p`? An illegal word does not. -/
def decodesTo (p : Instr → Bool) (c : Command) : Bool :=
  match decode c with
  | .ok i => p i
  | .error _ => false

/-- `w` is a rational number `r` rounded to binary32 as R19 says: at `(2 - 2^-24) * 2^127` and above the
infinity of its sign; below that a finite number of its sign to which no finite number is nearer, and whose
fraction is even where another is as near. -/
structure RoundsTo (r : Rat) (w : Word) : Prop where
  overflow : (2 - 1 / 2 ^ 24) * 2 ^ 127 ≤ r → w = packBits false infBits
  overflow_neg : r ≤ -((2 - 1 / 2 ^ 24) * 2 ^ 127) → w = packBits true infBits
  finite : -((2 - 1 / 2 ^ 24) * 2 ^ 127) < r → r < (2 - 1 / 2 ^ 24) * 2 ^ 127 → isFinite w = true
  sign : r ≠ 0 → signBit w = decide (r < 0)
  nearest : isFinite w = true → ∀ v, isFinite v = true →
    (valueRat w - r) * (valueRat w - r) ≤ (valueRat v - r) * (valueRat v - r)
  even : isFinite w = true → ∀ v, isFinite v = true → valueRat v ≠ valueRat w →
    (valueRat w - r) * (valueRat w - r) = (valueRat v - r) * (valueRat v - r) → fracField w % 2 = 0

/-- A phase in [0, 1) (R26). -/
def inUnit (p : Word) : Bool := fle plusZero p && flt p one

/-- A legal value in [0, 1] (R32, R33, R35, R39). -/
def unitRange (p : Word) : Bool := fle plusZero p && fle p one

end Sys2Proof.Machine
end

