-- ==== Sys2Proof/Certificates/Slice0/Obligations.lean ====
section
/-! DEFINITION. The statements for the provers, each with the rule of spec/ it formalises. First the words they
share: what the opcode table says of a word, what PROCESS leaves of a channel. -/

open Sys2Proof Sys2Proof.Machine

/-! ### Words the statements share -/

/-- The rows of R86 in order, (match, mask): NOP, PREPARE.PLAIN, PREPARE.MOD, PREPARE.UTIL, PROCESS, WRREG, RDREG,
RDMEM. -/
def Sys2Proof.opcodeRows : List (Word × Word) :=
  [(0x00000000, 0xFFFFFFFF), (0x01000000, 0xFFFFFFFF), (0x01000001, 0xFFFFFFFF), (0x01000002, 0xFFFFFFFF),
   (0x02000000, 0xFFFFFFFF), (0x03000000, 0xFFFFFF00), (0x04000000, 0xFFFFFF00), (0x05000000, 0xFFFFFFFE)]

/-- The place in `opcodeRows` of a command's row. -/
def Sys2Proof.rowOf : Instr → Nat
  | .nop => 0
  | .preparePlain _ _ => 1
  | .prepareMod _ _ => 2
  | .prepareUtil _ _ => 3
  | .process _ _ => 4
  | .wrreg _ _ => 5
  | .rdreg _ => 6
  | .rdmem _ _ => 7

/-- The same command with other operand words, by the table of R83: which of the two words each command uses. -/
def Sys2Proof.withOperands (a b : Word) : Instr → Instr
  | .nop => .nop
  | .preparePlain _ _ => .preparePlain a b
  | .prepareMod _ _ => .prepareMod a b
  | .prepareUtil _ _ => .prepareUtil a b
  | .process _ _ => .process a b
  | .wrreg idx _ => .wrreg idx a
  | .rdreg idx => .rdreg idx
  | .rdmem ch _ => .rdmem ch a

namespace Sys2Proof.Machine

/-- The delayed sample of a channel in a PROCESS from `s` to `t` with delay `d` (R102 to R105): the words are read
after the store, which is the only store to that bank, so they are the words of `t`. -/
def delayedIn (ch : Chan) (s t : State) (d : Word) : Word :=
  if delayInRange s.len d then
    interp (Memory.read (t.chan ch).mem (readPoint s.len (s.chan ch).wh d).i0)
      (Memory.read (t.chan ch).mem (readPoint s.len (s.chan ch).wh d).i1) (readPoint s.len (s.chan ch).wh d).frac
  else Config.freeDelayed ch.num (s.chan ch).draws

/-- What steps 1, 2, 6 and 7 leave of a channel (R164, R165, R167, R168) with input `x` and delayed sample `y`: one
word stored, at the write head; the feedback product; the head moved on by one slot of `len`. -/
structure ChannelDone (ch : Chan) (s t : State) (x y : Word) : Prop where
  stored : Memory.read (t.chan ch).mem (s.chan ch).wh = fadd x (s.chan ch).fb
  others : ∀ i, i ≠ (s.chan ch).wh → Memory.read (t.chan ch).mem i = Memory.read (s.chan ch).mem i
  fb : (t.chan ch).fb = fmul y s.par.feedback
  wh : (t.chan ch).wh = ((s.chan ch).wh + 1) % s.len

/-- The registers that PROCESS never writes are as they were (R29, R31). -/
structure ProcessKeeps (s t : State) : Prop where
  aw : t.aw = s.aw
  prepared : t.prepared = s.prepared
  variant : t.variant = s.variant
  len : t.len = s.len
  sr : t.sr = s.sr
  maxdly : t.maxdly = s.maxdly
  par : t.par = s.par
  pending : t.pending = s.pending

/-- The value of a word that is no NaN, with the infinities at the two ends (R11, R13). -/
def extValue (w : Word) : WithBot (WithTop ℚ) :=
  if isInf w then (if signBit w then ⊥ else ((⊤ : WithTop ℚ) : WithBot (WithTop ℚ)))
  else ((valueRat w : WithTop ℚ) : WithBot (WithTop ℚ))

/-- A bank reads the same at every slot of the ring buffer and is a zero there. -/
def ringIsZero (len : Nat) (c : Channel) : Prop := ∀ i, i < len → isZero (Memory.read c.mem i) = true

end Sys2Proof.Machine

/-! ### Encoding and decoding -/

/-- R81, R82, R86, R91: no bit of a command is lost between encoder and decoder, as words and as bytes (that
the encoder writes 0 in an ignored operand word, and 12 bytes a command, is the model's choice: log 15). -/
def Obligations.DecodeOfEncodeIsTheCommand : Prop :=
  ∀ (i : Instr) (rest : List Byte), i.wf = true →
    decode (encode i) = .ok i ∧ decodeBytes (commandToBytes (encode i) ++ rest) = .ok (i, rest)

/-- R86: a word decodes to a command of row `n` exactly when it matches row `n` under its mask; a word that matches no
row is rejected. -/
def Obligations.DecodeAcceptsExactlyTheOpcodeRows : Prop :=
  ∀ c : Command,
    (∀ n, (∃ i, decode c = .ok i ∧ rowOf i = n) ↔ ∃ r, opcodeRows[n]? = some r ∧ c.word &&& r.2 = r.1) ∧
    ((∃ e, decode c = .error e) ↔ ∀ r ∈ opcodeRows, c.word &&& r.2 ≠ r.1)

/-- R83: an operand word that a command does not use is ignored, and the words it uses are its operands in order. -/
def Obligations.UnusedOperandWordsAreIgnored : Prop :=
  ∀ (w a b a' b' : Word),
    (∀ i, decode ⟨w, a, b⟩ = .ok i → i = withOperands a b i ∧ decode ⟨w, a', b'⟩ = .ok (withOperands a' b' i)) ∧
    (∀ e, decode ⟨w, a, b⟩ = .error e → decode ⟨w, a', b'⟩ = .error e)

/-- 95_test_vectors.md section 2.1: words written out from R86 decode to their commands, and reserved ones are rejected.
The spec has one fault for them (R88, R201); the names of the four errors are the model's choice (log 15). -/
def Obligations.WordsFromTheOpcodeMapDecode : Prop :=
  decode ⟨0x00000000, 0xDEADBEEF, 0xFFFFFFFF⟩ = .ok .nop ∧
  decode ⟨0x01000000, 0x472C4400, 0x40000000⟩ = .ok (.preparePlain 0x472C4400 0x40000000) ∧
  decode ⟨0x01000001, 0x42200000, 0x40000000⟩ = .ok (.prepareMod 0x42200000 0x40000000) ∧
  decode ⟨0x01000002, 0x40800000, 0x3F800000⟩ = .ok (.prepareUtil 0x40800000 0x3F800000) ∧
  decode ⟨0x02000000, 0x3F800000, 0x41200000⟩ = .ok (.process 0x3F800000 0x41200000) ∧
  decode ⟨0x03000007, 0x3F800000, 0⟩ = .ok (.wrreg 0x07 0x3F800000) ∧
  decode ⟨0x0400001D, 0, 0⟩ = .ok (.rdreg 0x1D) ∧
  decode ⟨0x05000001, 3, 0⟩ = .ok (.rdmem .right 3) ∧
  decode ⟨0x01000003, 0, 0⟩ = .error .reservedVariant ∧
  decode ⟨0x05000002, 0, 0⟩ = .error .nonzeroArg ∧
  decode ⟨0x03000105, 0, 0⟩ = .error .reservedBits ∧
  decode ⟨0x06000000, 0, 0⟩ = .error .reservedOpcode

/-! ### The step -/

/-- R66, R85: a step with a legal command on the port is that command's meaning, the command taken from the port
(the port as a list of what the host presents is the model's choice: log 2). -/
def Obligations.StepRunsTheDecodedCommand : Prop :=
  ∀ (s : State) (c : Command) (rest : List PortEvent) (i : Instr),
    s.pending = .command c :: rest → decode c = .ok i → step s = exec i { s with pending := rest }

/-- R201: an illegal word sets its bit and is answered (1, 0, 0), whatever its operands; nothing else happens
(the port as a list: log 2). -/
def Obligations.StepAnswersAnIllegalWord : Prop :=
  ∀ (s : State) (w a b : Word) (rest : List PortEvent) (e : DecodeError),
    s.pending = .command ⟨w, a, b⟩ :: rest → decode ⟨w, a, b⟩ = .error e →
      step s = .next { s with pending := rest, err := s.err ||| 0b0000001, rsp := some ⟨1, 0, 0⟩ }

/-- R230 with R54: an assertion of reset gives every register its reset value and no response, for every AW, and writes
no word of the delay memory (that `aw`, `pending` and `draws` stay is the model's choice: log 1, 2, 7). -/
def Obligations.ResetEventGivesTheResetValues : Prop :=
  ∀ (s : State) (rest : List PortEvent), s.pending = .reset :: rest →
    step s = .next
      { aw := s.aw, prepared := false, variant := .plain, err := 0, len := 0, sr := 0, maxdly := 0
        left := ⟨0, 0, s.left.mem, s.left.draws⟩, right := ⟨0, 0, s.right.mem, s.right.draws⟩
        phase := 0, smTime := 0, smGain := 0
        par := ⟨0x3F000000, 0x3F000000, 0x41200000, 0, 0x3F000000, 0x3F000000, .chorus, 0x3F000000⟩
        rsp := none, pending := rest }

/-- R232: with nothing presented the core waits and does nothing (a step with nothing presented is the model's: log 2). -/
def Obligations.AnIdlePortChangesNothing : Prop :=
  ∀ s : State, s.pending = [] → step s = .next { s with rsp := none }

/-- R54, R231: the state the machine starts in. AW = 19, the empty banks and the empty port are the model's choices
(log 1, 5, 2); nothing is said of `draws` (log 7). -/
def Obligations.TheStartIsTheResetState : Prop :=
  State.reset =
    { aw := 19, prepared := false, variant := .plain, err := 0, len := 0, sr := 0, maxdly := 0
      left := ⟨0, 0, [], State.reset.left.draws⟩, right := ⟨0, 0, [], State.reset.right.draws⟩
      phase := 0, smTime := 0, smGain := 0
      par := ⟨0x3F000000, 0x3F000000, 0x41200000, 0, 0x3F000000, 0x3F000000, .chorus, 0x3F000000⟩
      rsp := none, pending := [] } ∧
  State.reset.faultPin = false ∧ State.reset.rspValid = false

/-! ### The control commands -/

/-- R180: NOP, the word 0 with any operands, answers (0, 0, 0) and changes nothing. -/
def Obligations.NopOnlyAnswers : Prop :=
  ∀ (s : State) (a b : Word), decode ⟨0x00000000, a, b⟩ = .ok .nop ∧ exec .nop s = .next { s with rsp := some ⟨0, 0, 0⟩ }

/-- R184 and R181 (completion of PREPARE.PLAIN, PREPARE.MOD, PREPARE.UTIL): operands that pass R181's checks give the state
of a successful PREPARE and the response (0, len, 0); the parameter registers, `err` and the words at `len` and above are unchanged (and so are the model's own `aw`,
`pending` and `draws`: log 1, 2, 7). -/
def Obligations.PrepareLeavesThePreparedState : Prop :=
  ∀ (v : Variant) (sr m : Word) (s : State),
    flt plusZero sr = true → flt sr plusInf = true → flt plusZero m = true → flt m plusInf = true →
    flt (fmul sr m) one = false → feq (fmul sr m) plusInf = false → ifloor (fmul sr m) ≤ 2 ^ s.aw →
    ∃ t, exec (prepareInstr v sr m) s = .next t ∧
      t.prepared = true ∧ t.variant = v ∧ t.sr = sr ∧ t.maxdly = m ∧ t.len = ifloor (fmul sr m) ∧
      (∀ ch i, Memory.read (t.chan ch).mem i = if i < t.len then 0x00000000 else Memory.read (s.chan ch).mem i) ∧
      (∀ ch, (t.chan ch).wh = 0 ∧ (t.chan ch).fb = 0x00000000 ∧ (t.chan ch).draws = (s.chan ch).draws) ∧
      t.phase = 0x00000000 ∧ t.smTime = s.par.delaytime ∧ t.smGain = s.par.gain ∧
      t.rsp = some ⟨0, BitVec.ofNat 32 (ifloor (fmul sr m)), 0⟩ ∧
      t.par = s.par ∧ t.err = s.err ∧ t.aw = s.aw ∧ t.pending = s.pending

/-- R205, R206 with R181, R185 and R210: which operands PREPARE turns away, with which fault, and that it then leaves
everything but `prepared`, the sticky bit and the response as it was. PrepareRange comes first. -/
def Obligations.PrepareTurnsAwayBadOperands : Prop :=
  ∀ (v : Variant) (sr m : Word) (s : State),
    ((finitePositive sr = false ∨ finitePositive m = false ∨ flt (fmul sr m) one = true) →
      exec (prepareInstr v sr m) s =
        .next { s with prepared := false, err := s.err ||| 0b0010000, rsp := some ⟨5, 0, 0⟩ }) ∧
    (finitePositive sr = true → finitePositive m = true → flt (fmul sr m) one = false →
      (feq (fmul sr m) plusInf = true ∨ 2 ^ s.aw < ifloor (fmul sr m)) →
      exec (prepareInstr v sr m) s =
        .next { s with prepared := false, err := s.err ||| 0b0001000, rsp := some ⟨4, 0, 0⟩ })

/-- R183: the length is the floor of the one rounded product, at least 1 and exactly representable; since it is at most
the product, a delay of exactly the maximum fails the range check. The three examples of the rule. -/
def Obligations.PrepareLengthIsTheFloorOfTheProduct : Prop :=
  (∀ (aw n : Nat) (sr m : Word), aw ≤ 24 → prepareLength aw sr m = .ok n →
    1 ≤ n ∧ n ≤ 2 ^ aw ∧ (n : Rat) ≤ valueRat (fmul sr m) ∧ valueRat (fmul sr m) < n + 1 ∧
      valueRat (u2f n) = n ∧ delayInRange n (fmul m sr) = false) ∧
  prepareLength 19 0x472C4400 0x40000000 = .ok 88200 ∧
  prepareLength 19 0x46AC4400 0x3CF5C28F = .ok 661 ∧
  prepareLength 19 0x40400000 0x3F000000 = .ok 1

/-- R187: WRREG, the word 0x03000000 OR the index, to an index up to 0x07 stores the word (bit 0 of it for MODE), which RDREG then reads, and writes no
other register; to any other index of eight bits it raises BadReg. -/
def Obligations.WrregWritesOneParameterRegister : Prop :=
  ∀ (idx : Nat) (v : Word) (s : State),
    (∀ b : Word, idx ≤ 0xFF → decode ⟨0x03000000 ||| BitVec.ofNat 32 idx, v, b⟩ = .ok (.wrreg idx v)) ∧
    (idx ≤ 0x07 → ∃ t, exec (.wrreg idx v) s = .next t ∧
      readReg idx t = some (if idx = 0x06 then v &&& 1 else v) ∧
      (∀ j, j ≤ 0x07 → j ≠ idx → readReg j t = readReg j s) ∧
      t = { s with par := t.par, rsp := some ⟨0, 0, 0⟩ }) ∧
    (0x07 < idx → idx ≤ 0xFF → exec (.wrreg idx v) s = .next { s with err := s.err ||| 0b0100000, rsp := some ⟨6, 0, 0⟩ })

/-- R188 with R32 to R49: the encoding 0x04000000 OR the index, the word of every register, and BadReg at every other index of eight bits; RDREG changes nothing. -/
def Obligations.RdregReadsEveryRegister : Prop :=
  ∀ (idx : Nat) (s : State),
    (∀ a b : Word, idx ≤ 0xFF → decode ⟨0x04000000 ||| BitVec.ofNat 32 idx, a, b⟩ = .ok (.rdreg idx)) ∧
    exec (.rdreg 0x00) s = .next { s with rsp := some ⟨0, s.par.drywet, 0⟩ } ∧
    exec (.rdreg 0x01) s = .next { s with rsp := some ⟨0, s.par.depth, 0⟩ } ∧
    exec (.rdreg 0x02) s = .next { s with rsp := some ⟨0, s.par.rate, 0⟩ } ∧
    exec (.rdreg 0x03) s = .next { s with rsp := some ⟨0, s.par.phaseoff, 0⟩ } ∧
    exec (.rdreg 0x04) s = .next { s with rsp := some ⟨0, s.par.feedback, 0⟩ } ∧
    exec (.rdreg 0x05) s = .next { s with rsp := some ⟨0, s.par.delaytime, 0⟩ } ∧
    exec (.rdreg 0x06) s = .next { s with rsp := some ⟨0, if s.par.mode = .flanger then 1 else 0, 0⟩ } ∧
    exec (.rdreg 0x07) s = .next { s with rsp := some ⟨0, s.par.gain, 0⟩ } ∧
    exec (.rdreg 0x10) s = .next { s with rsp := some ⟨0, 0x4B444C01, 0⟩ } ∧
    exec (.rdreg 0x11) s = .next { s with rsp := some ⟨0, BitVec.ofNat 32 (2 ^ s.aw), 0⟩ } ∧
    exec (.rdreg 0x12) s = .next { s with rsp := some ⟨0, (if s.prepared then 1 else 0) |||
      (match s.variant with | .plain => 0 | .mod => 2 | .util => 4), 0⟩ } ∧
    exec (.rdreg 0x13) s = .next { s with rsp := some ⟨0, BitVec.ofNat 32 s.err.toNat, 0⟩ } ∧
    exec (.rdreg 0x14) s = .next { s with rsp := some ⟨0, BitVec.ofNat 32 s.len, 0⟩ } ∧
    exec (.rdreg 0x15) s = .next { s with rsp := some ⟨0, s.sr, 0⟩ } ∧
    exec (.rdreg 0x16) s = .next { s with rsp := some ⟨0, s.maxdly, 0⟩ } ∧
    exec (.rdreg 0x17) s = .next { s with rsp := some ⟨0, BitVec.ofNat 32 s.left.wh, 0⟩ } ∧
    exec (.rdreg 0x18) s = .next { s with rsp := some ⟨0, BitVec.ofNat 32 s.right.wh, 0⟩ } ∧
    exec (.rdreg 0x19) s = .next { s with rsp := some ⟨0, s.left.fb, 0⟩ } ∧
    exec (.rdreg 0x1A) s = .next { s with rsp := some ⟨0, s.right.fb, 0⟩ } ∧
    exec (.rdreg 0x1B) s = .next { s with rsp := some ⟨0, s.phase, 0⟩ } ∧
    exec (.rdreg 0x1C) s = .next { s with rsp := some ⟨0, s.smTime, 0⟩ } ∧
    exec (.rdreg 0x1D) s = .next { s with rsp := some ⟨0, s.smGain, 0⟩ } ∧
    ((0x07 < idx ∧ idx < 0x10 ∨ 0x1D < idx ∧ idx ≤ 0xFF) →
      exec (.rdreg idx) s = .next { s with err := s.err ||| 0b0100000, rsp := some ⟨6, 0, 0⟩ })

/-- R189, R208: RDMEM, the word 0x05000000 OR the bank, refuses while not prepared, then at an index of `len` or more, and otherwise answers the word of
the slot (for a length that fits the bank, as R25 has it). -/
def Obligations.RdmemReadsASlot : Prop :=
  ∀ (ch : Chan) (i : Word) (s : State),
    (∀ b : Word, decode ⟨0x05000000 ||| BitVec.ofNat 32 ch.num, i, b⟩ = .ok (.rdmem ch i)) ∧
    (s.prepared = false →
      exec (.rdmem ch i) s = .next { s with err := s.err ||| 0b0000010, rsp := some ⟨2, 0, 0⟩ }) ∧
    (s.prepared = true → s.len ≤ i.toNat →
      exec (.rdmem ch i) s = .next { s with err := s.err ||| 0b1000000, rsp := some ⟨7, 0, 0⟩ }) ∧
    (s.prepared = true → i.toNat < s.len → s.len ≤ 2 ^ s.aw →
      exec (.rdmem ch i) s = .next { s with rsp := some ⟨0, Memory.read (s.chan ch).mem i.toNat, 0⟩ })

/-- R92: DEFAULTS, presented as eight commands (log 2), from any state leaves the parameter registers at their reset values and changes nothing else. -/
def Obligations.DefaultsRestoreTheParameters : Prop :=
  ∀ s : State, runSteps 8 (s.offered Instr.defaults) =
    .next { s with par := Params.reset, rsp := some ⟨0, 0, 0⟩, pending := [] }

/-! ### PROCESS -/

/-- R177: PROCESS before PREPARE. -/
def Obligations.ProcessBeforePrepareIsRefused : Prop :=
  ∀ (inL inR : Word) (s : State), s.prepared = false →
    exec (.process inL inR) s = .next { s with err := s.err ||| 0b0000010, rsp := some ⟨2, 0, 0⟩ }

/-- R160 (completion of PROCESS): in every prepared state that meets the invariant PROCESS completes. The units the
variant uses are stepped once and the others kept (R161); each channel's delay is its time multiplied by the sample
rate (R163); each channel goes through steps 1, 2 and 4 to 7; step 8 mixes as the variant says; the code is 3 and the
DELAY_RANGE bit set exactly when a channel's delay is out of range, in which case that channel's sample is a free value
(log 7) and the command still completes (R204). -/
def Obligations.ProcessDoesTheEightSteps : Prop :=
  ∀ (inL inR : Word) (s : State), s.Inv → s.prepared = true →
    ∃ (t : State) (tL tR : Word), exec (.process inL inR) s = .next t ∧
      (match s.variant with
        | .plain => t.smTime = smStep s.smTime s.par.delaytime 0x3A83126F ∧ t.smGain = s.smGain ∧ t.phase = s.phase ∧
            tL = t.smTime ∧ tR = t.smTime
        | .util => t.smTime = smStep s.smTime s.par.delaytime 0x3A83126F ∧
            t.smGain = smStep s.smGain s.par.gain 0x3B83126F ∧ t.phase = s.phase ∧ tL = t.smTime ∧ tR = t.smTime
        | .mod => t.smTime = s.smTime ∧ t.smGain = s.smGain ∧
            t.phase = wrap1 (fadd s.phase (fdiv s.par.rate s.sr)) ∧
            tL = lfoMap (fmul (lfoSin t.phase) s.par.depth) s.par.mode ∧
            tR = lfoMap (fmul (lfoSin (wrap1 (fadd t.phase s.par.phaseoff))) s.par.depth) s.par.mode) ∧
      ChannelDone .left s t inL (delayedIn .left s t (fmul tL s.sr)) ∧
      ChannelDone .right s t inR (delayedIn .right s t (fmul tR s.sr)) ∧
      (let ok := delayInRange s.len (fmul tL s.sr) && delayInRange s.len (fmul tR s.sr)
       t.err = (if ok then s.err else s.err ||| 0b0000100) ∧
       t.rsp = some
        (match s.variant with
          | .util => ⟨if ok then 0 else 3, mixAdd t.smGain inL (delayedIn .left s t (fmul tL s.sr)),
              mixAdd t.smGain inR (delayedIn .right s t (fmul tR s.sr))⟩
          | _ => ⟨if ok then 0 else 3, mixXfade inL (delayedIn .left s t (fmul tL s.sr)) s.par.drywet,
              mixXfade inR (delayedIn .right s t (fmul tR s.sr)) s.par.drywet⟩)) ∧
      ProcessKeeps s t

/-- The frame of PROCESS (R28, R29, R66, R147), prepared or not: the registers it never writes, a unit the variant does
not use, and every word of a bank but the one at that bank's write head (R165). -/
def Obligations.ProcessChangesNothingElse : Prop :=
  ∀ (inL inR : Word) (s t : State), Memory.wf s.left.mem = true → Memory.wf s.right.mem = true →
    exec (.process inL inR) s = .next t →
      ProcessKeeps s t ∧
      (s.variant = .mod → t.smTime = s.smTime) ∧ (s.variant ≠ .util → t.smGain = s.smGain) ∧
      (s.variant ≠ .mod → t.phase = s.phase) ∧
      (∀ ch i, i ≠ (s.chan ch).wh → Memory.read (t.chan ch).mem i = Memory.read (s.chan ch).mem i) ∧
      (t.err = s.err ∨ t.err = s.err ||| 0b0000010 ∨ t.err = s.err ||| 0b0000100) ∧
      (s.prepared = false → t.left = s.left ∧ t.right = s.right ∧ t.smTime = s.smTime ∧ t.smGain = s.smGain ∧
        t.phase = s.phase)

/-- R175: what PROCESS computes for one channel does not depend on the other channel's input, feedback, head, bank or
free values; and in PLAIN and UTIL both channels have the same delay. Where the channel compared fails its range check, the
equality is the model's: both runs make the same draw of the free value, the channel's own (log 7). -/
def Obligations.ChannelsAreIndependent : Prop :=
  ∀ (x y y' : Word) (c : Channel) (s t t' : State),
    (exec (.process x y) s = .next t → exec (.process x y') { s with right := c } = .next t' →
      t.left = t'.left ∧ t.smTime = t'.smTime ∧ t.smGain = t'.smGain ∧ t.phase = t'.phase ∧
      t.rsp.map (·.d0) = t'.rsp.map (·.d0)) ∧
    (exec (.process y x) s = .next t → exec (.process y' x) { s with left := c } = .next t' →
      t.right = t'.right ∧ t.smTime = t'.smTime ∧ t.smGain = t'.smGain ∧ t.phase = t'.phase ∧
      t.rsp.map (·.d1) = t'.rsp.map (·.d1)) ∧
    (s.variant ≠ .mod → s.delayOf .left = s.delayOf .right)

/-- R173: silence stays silence. In UTIL the gain that must be finite is the stepped one, which the mixer uses
(the model's reading: log 17). -/
def Obligations.SilenceStaysSilence : Prop :=
  ∀ (inL inR : Word) (s : State), s.Inv → s.prepared = true → s.delaysInRange = true →
    isFinite s.par.feedback = true → isFinite s.par.drywet = true →
    (s.variant = .util → isFinite (smStep s.smGain s.par.gain kGain) = true) →
    isZero inL = true → isZero inR = true → isZero s.left.fb = true → isZero s.right.fb = true →
    ringIsZero s.len s.left → ringIsZero s.len s.right →
    ∃ t, exec (.process inL inR) s = .next t ∧
      (∃ outL outR, t.rsp = some ⟨0, outL, outR⟩ ∧ isZero outL = true ∧ isZero outR = true) ∧
      isZero t.left.fb = true ∧ isZero t.right.fb = true ∧ ringIsZero t.len t.left ∧ ringIsZero t.len t.right

/-- R110: number the PROCESS commands after a PREPARE 0, 1, 2, ...: number `n` writes slot `n mod len` of each bank, no
other, and leaves the heads at `(n+1) mod len`, whatever commands other than PREPARE and whatever illegal words stand
between (the run of transfers through the port: log 2). -/
def Obligations.ProcessNumberWritesSlotModuloLength : Prop :=
  ∀ (s : State) (cs : List Command) (inL inR : Word), s.Inv → s.prepared = true → s.left.wh = 0 →
    (∀ c ∈ cs, decodesTo isPrepare c = false) →
    ∃ t u, runSteps cs.length { s with pending := cs.map PortEvent.command } = .next t ∧
      exec (.process inL inR) t = .next u ∧
      (let n := cs.countP (decodesTo isProcess)
       u.left.wh = (n + 1) % s.len ∧ u.right.wh = (n + 1) % s.len ∧
       Memory.read u.left.mem (n % s.len) = fadd inL t.left.fb ∧
       Memory.read u.right.mem (n % s.len) = fadd inR t.right.fb ∧
       (∀ i, i ≠ n % s.len →
         Memory.read u.left.mem i = Memory.read t.left.mem i ∧ Memory.read u.right.mem i = Memory.read t.right.mem i))

/-! ### The delay line -/

/-- R104: the range check passes exactly the finite delays from zero up to and not including the length; a NaN fails, -0
passes. -/
def Obligations.RangeCheckIsTheHalfOpenInterval : Prop :=
  ∀ (len : Nat) (d : Word), len ≤ 2 ^ 24 →
    (delayInRange len d = true ↔ isFinite d = true ∧ 0 ≤ valueRat d ∧ valueRat d < len)

/-- R108: within the contract the read position is in range, and so are both indices; the fraction of R105 is exact and
in [0, 1). -/
def Obligations.ReadPositionIsInRange : Prop :=
  ∀ (len wh : Nat) (d : Word), wh < len → len ≤ 2 ^ 24 → delayInRange len d = true →
    -(len : Rat) < valueRat (fsub (u2f wh) d) ∧ valueRat (fsub (u2f wh) d) ≤ len - 1 ∧
    isFinite (readPos len wh d) = true ∧ 0 ≤ valueRat (readPos len wh d) ∧ valueRat (readPos len wh d) < len ∧
    (readPoint len wh d).i0 < len ∧ (readPoint len wh d).i1 < len ∧
    isFinite (readPoint len wh d).frac = true ∧
    valueRat (readPoint len wh d).frac = valueRat (readPos len wh d) - (readPoint len wh d).i0 ∧
    0 ≤ valueRat (readPoint len wh d).frac ∧ valueRat (readPoint len wh d).frac < 1

/-- R109, R122: a read at delay +0 after a write of any word returns that word (a zero as a zero, a NaN as the canonical
NaN) when the word at the next slot is finite, and the canonical NaN when that one is an infinity or a NaN. -/
def Obligations.DelayZeroReturnsTheWordWritten : Prop :=
  ∀ (ch : Chan) (aw len : Nat) (v : Word) (c : Channel), Memory.wf c.mem = true → c.wh < len → len ≤ 2 ^ aw → aw ≤ 24 →
    ∃ c1 y, dlWrite aw v c = .ok c1 ∧ dlReadI ch aw len plusZero c1 = .ok (y, false) ∧
      (isFinite (Memory.read c1.mem ((c.wh + 1) % len)) = true →
        (isNaN v = false → feq y v = true ∧ (isZero v = false → y = v)) ∧ (isNaN v = true → y = canonicalNaN)) ∧
      (isFinite (Memory.read c1.mem ((c.wh + 1) % len)) = false → y = canonicalNaN)

/-- R106: the write head moves on by one and wraps to 0 at the length; nothing else of the channel moves. -/
def Obligations.AdvanceWrapsAtTheLength : Prop :=
  ∀ (len : Nat) (c : Channel), c.wh < len →
    dlAdvance len c = { c with wh := if c.wh + 1 = len then 0 else c.wh + 1 } ∧ (dlAdvance len c).wh < len

/-! ### Interpolator, mixers, smoother -/

/-- R121: the boundary identities of INTERP, numerically for all finite words and bit for bit for non-zero ones. -/
def Obligations.InterpReturnsItsEnds : Prop :=
  (∀ x0 x1 : Word, isFinite x0 = true → isFinite x1 = true →
    feq (interp x0 x1 plusZero) x0 = true ∧ feq (interp x0 x1 one) x1 = true ∧
    (isZero x0 = false → interp x0 x1 plusZero = x0) ∧ (isZero x1 = false → interp x0 x1 one = x1)) ∧
  interp 0x80000000 0x40A00000 plusZero = 0x00000000 ∧ interp 0x40A00000 0x80000000 one = 0x00000000

/-- R174: at DRYWET 0 the output is the input, at 1 the delayed sample, numerically, for finite samples; where the other
operand is not finite the result is a NaN. -/
def Obligations.CrossfadeReturnsItsEnds : Prop :=
  ∀ x y : Word,
    (isFinite x = true → isFinite y = true →
      feq (mixXfade x y plusZero) x = true ∧ feq (mixXfade x y one) y = true) ∧
    (isFinite y = false → isNaN (mixXfade x y plusZero) = true) ∧
    (isFinite x = false → isNaN (mixXfade x y one) = true)

/-- R129: a smoother at its target stays there, numerically; and bit for bit where the patterns are the same (the model's
reading of the rule: log 17). -/
def Obligations.SmootherStaysAtItsTarget : Prop :=
  ∀ cur target k : Word, k = kTime ∨ k = kGain → isFinite cur = true → isFinite target = true →
    (feq cur target = true → feq (smStep cur target k) cur = true) ∧ (cur = target → smStep cur target k = cur)

/-- R130: one step moves toward the target and never past it, for either coefficient, wherever the difference does not
overflow. -/
def Obligations.SmootherNeverOvershoots : Prop :=
  ∀ cur target k : Word, k = kTime ∨ k = kGain → isFinite cur = true → isFinite target = true →
    isFinite (fsub cur target) = true →
    (fle cur target = true → fle cur (smStep cur target k) = true ∧ fle (smStep cur target k) target = true) ∧
    (fle target cur = true → fle (smStep cur target k) cur = true ∧ fle target (smStep cur target k) = true)

/-- R236: a delay time that moves from one legal value to another passes through legal values only. -/
def Obligations.SmoothingKeepsTheDelayInRange : Prop :=
  ∀ (len : Nat) (cur target sr : Word), len ≤ 2 ^ 24 → finitePositive sr = true →
    isFinite cur = true → isFinite target = true →
    delayInRange len (delaySamples cur sr) = true → delayInRange len (delaySamples target sr) = true →
    delayInRange len (delaySamples (smStep cur target kTime) sr) = true

/-! ### The LFO -/

/-- R26, R136, R138: an offset or an advance of at most a whole cycle keeps a phase in [0, 1), but for the one pair
(0x3F7FFFFF, 1.0) on which the rules' own arithmetic gives 1.0 (log 16). -/
def Obligations.PhaseStaysInTheUnitInterval : Prop :=
  ∀ phase x : Word, inUnit phase = true → unitRange x = true → ¬(phase = 0x3F7FFFFF ∧ x = one) →
    inUnit (lfoPh2 x phase) = true ∧ ∀ rate sr, fdiv rate sr = x → inUnit (lfoAdv rate sr phase) = true

/-- R26 as it is printed, with the increment 1.0 allowed. It FAILS: from phase 0x3F7FFFFF (1 - 2^-24) the sum with 1.0
rounds to 2.0 and one subtraction leaves 1.0 (log 16). -/
def Obligations.PhaseStaysInTheUnitIntervalUpToAWholeCycle : Prop :=
  ∀ rate sr phase : Word, inUnit phase = true → fle plusZero (fdiv rate sr) = true → fle (fdiv rate sr) one = true →
    inUnit (lfoAdv rate sr phase) = true

/-- R141: what the spec fixes of LFO_SIN: bounded by 1 (b), exact at the quarter points (c), within SIN_ERR of the real
sine (d), the canonical NaN for a NaN and a free function elsewhere (e). SIN_ERR and the function are the model's free
values (log 8); -0 falls under (b) and (d) (log 9). -/
def Obligations.LfoSineIsAdmissible : Prop :=
  (∀ p, inUnit p = true →
    isFinite (lfoSin p) = true ∧ fle minusOne (lfoSin p) = true ∧ fle (lfoSin p) one = true ∧
    |((valueRat (lfoSin p) : ℚ) : ℝ) - Real.sin (2 * Real.pi * ((valueRat p : ℚ) : ℝ))| ≤ ((Config.sinErr : ℚ) : ℝ)) ∧
  lfoSin 0x00000000 = 0x00000000 ∧ lfoSin 0x3E800000 = 0x3F800000 ∧ lfoSin 0x3F000000 = 0x00000000 ∧
  lfoSin 0x3F400000 = 0xBF800000 ∧
  (∀ p, isNaN p = true → lfoSin p = 0x7FC00000) ∧
  (∀ p, isNaN p = false → inUnit p = false → lfoSin p = Config.lfoSinRaw p)

/-- R145: at full depth and the peak of the sine the delay time is the top of the mode's window; the delays in samples at
44100 and 48000 Hz and their ratio. -/
def Obligations.PeakReachesTheTopOfTheWindow : Prop :=
  (∀ ph mode, lfoSin ph = one → lfoTime ph one mode = (if mode = .chorus then 0x3CF5C28F else 0x3BA3D70A)) ∧
  lfoTime 0x3E800000 one .chorus = 0x3CF5C28F ∧ lfoTime 0x3E800000 one .flanger = 0x3BA3D70A ∧
  delaySamples 0x3CF5C28F 0x472C4400 = 0x44A56000 ∧ delaySamples 0x3BA3D70A 0x472C4400 = 0x435C8000 ∧
  delaySamples 0x3CF5C28F 0x473B8000 = 0x44B40000 ∧ delaySamples 0x3BA3D70A 0x473B8000 = 0x43700000 ∧
  fdiv 0x44A56000 0x435C8000 = 0x40C00000 ∧ fdiv 0x44B40000 0x43700000 = 0x40C00000

/-- R237, R143: for a phase in [0, 1) and a depth in [0, 1] the modulated delay time is at least 0 and at most the top of
the mode's window. -/
def Obligations.ModulatedDelayTimeIsAtMostTheWindowTop : Prop :=
  ∀ (ph depth : Word) (mode : Mode), inUnit ph = true → unitRange depth = true →
    fle plusZero (lfoTime ph depth mode) = true ∧ fle (lfoTime ph depth mode) (window mode).2 = true

/-! ### Arithmetic -/

/-- R11, R19: addition and subtraction of finite numbers are correctly rounded. -/
def Obligations.AdditionIsCorrectlyRounded : Prop :=
  ∀ a b : Word, isFinite a = true → isFinite b = true →
    RoundsTo (valueRat a + valueRat b) (fadd a b) ∧ RoundsTo (valueRat a - valueRat b) (fsub a b)

/-- R11, R19: multiplication of finite numbers is correctly rounded. -/
def Obligations.MultiplicationIsCorrectlyRounded : Prop :=
  ∀ a b : Word, isFinite a = true → isFinite b = true → RoundsTo (valueRat a * valueRat b) (fmul a b)

/-- R11, R19: division by a finite number other than zero is correctly rounded. -/
def Obligations.DivisionIsCorrectlyRounded : Prop :=
  ∀ a b : Word, isFinite a = true → isFinite b = true → isZero b = false →
    RoundsTo (valueRat a / valueRat b) (fdiv a b)

/-- R12 (a) to (c): signed zeros, invalid operations, division by zero, and that the canonical NaN is the only NaN an
operation produces. -/
def Obligations.SpecialValuesOfArithmetic : Prop :=
  (fadd 0x00000000 0x80000000 = 0x00000000 ∧ fadd 0x80000000 0x80000000 = 0x80000000) ∧
  (∀ x, isFinite x = true → fsub x x = 0x00000000) ∧
  (∀ a b, isZero a = true → isFinite b = true →
    fmul a b = packBits (signBit a != signBit b) 0 ∧ fmul b a = packBits (signBit a != signBit b) 0) ∧
  (∀ a b, isZero a = true → isInf b = true → fmul a b = 0x7FC00000 ∧ fmul b a = 0x7FC00000) ∧
  (fadd 0x7F800000 0xFF800000 = 0x7FC00000 ∧ fadd 0xFF800000 0x7F800000 = 0x7FC00000) ∧
  (∀ a b, isZero a = true → isZero b = true → fdiv a b = 0x7FC00000) ∧
  (∀ a b, isInf a = true → isInf b = true → fdiv a b = 0x7FC00000) ∧
  (∀ a b, isFinite a = true → isZero a = false → isZero b = true →
    fdiv a b = packBits (signBit a != signBit b) infBits) ∧
  (∀ a b, isNaN a = true ∨ isNaN b = true →
    fadd a b = 0x7FC00000 ∧ fsub a b = 0x7FC00000 ∧ fmul a b = 0x7FC00000 ∧ fdiv a b = 0x7FC00000) ∧
  (∀ a b, (isNaN (fadd a b) = true → fadd a b = 0x7FC00000) ∧ (isNaN (fsub a b) = true → fsub a b = 0x7FC00000) ∧
    (isNaN (fmul a b) = true → fmul a b = 0x7FC00000) ∧ (isNaN (fdiv a b) = true → fdiv a b = 0x7FC00000))

/-- R13: comparisons are false with a NaN and compare the values of all other words, with -inf below and +inf above every
finite number; -0 and +0 are equal. -/
def Obligations.ComparisonsCompareValues : Prop :=
  (∀ a b, isNaN a = true ∨ isNaN b = true → flt a b = false ∧ fle a b = false ∧ feq a b = false) ∧
  (∀ a b, isNaN a = false → isNaN b = false →
    (flt a b = true ↔ extValue a < extValue b) ∧ (fle a b = true ↔ extValue a ≤ extValue b) ∧
    (feq a b = true ↔ extValue a = extValue b)) ∧
  (∀ a, isFinite a = true →
    (flt a plusInf = true ∧ fle a plusInf = true ∧ feq a plusInf = false ∧ flt plusInf a = false ∧
      fle plusInf a = false) ∧
    (flt 0xFF800000 a = true ∧ fle 0xFF800000 a = true ∧ feq a 0xFF800000 = false ∧ flt a 0xFF800000 = false ∧
      fle a 0xFF800000 = false)) ∧
  (feq 0x80000000 0x00000000 = true ∧ flt 0x80000000 0x00000000 = false ∧ fle 0x00000000 0x80000000 = true) ∧
  (flt 0xFF800000 plusInf = true ∧ flt plusInf 0xFF800000 = false ∧ fle plusInf 0xFF800000 = false ∧
    feq plusInf plusInf = true ∧ feq 0xFF800000 0xFF800000 = true ∧ feq plusInf 0xFF800000 = false)

/-- R14: `u2f` is exact up to 2^24 and `ifloor` is the floor of a finite number that is not negative. -/
def Obligations.ConversionsAreExact : Prop :=
  (∀ n : Nat, n ≤ 2 ^ 24 → isFinite (u2f n) = true ∧ valueRat (u2f n) = n) ∧
  (∀ v, isFinite v = true → fle plusZero v = true → (ifloor v : Rat) ≤ valueRat v ∧ valueRat v < ifloor v + 1)

/-! ### The whole machine -/

/-- R23, R24, R25, R29, R52: the invariant holds after reset, for every legal AW. -/
def Obligations.ResetMeetsTheInvariant : Prop :=
  State.reset.Inv ∧ ∀ aw, 1 ≤ aw → aw ≤ 24 → (State.resetWith aw).Inv

/-- R23, R24, R25, R29, R52: every step keeps the invariant. -/
def Obligations.EveryStepKeepsTheInvariant : Prop :=
  ∀ s t : State, s.Inv → step s = .next t → t.Inv

/-- R62, R85, R176 and 93_implementation_defined.md (nothing is stuck): from every state that meets the invariant a step
answers a next state, takes what was presented from the port, and a command gets exactly one response (the port as a
list: log 2). -/
def Obligations.EveryCommandIsAnswered : Prop :=
  ∀ s : State, s.Inv → ∃ t, step s = .next t ∧ t.pending = s.pending.tail ∧
    (t.rspValid = true ↔ ∃ c rest, s.pending = .command c :: rest)

/-- R242 with R30: no command clears a sticky bit, PREPARE included; reset clears them all. -/
def Obligations.OnlyResetClearsAFaultBit : Prop :=
  ∀ s t : State, step s = .next t →
    ((∀ rest, s.pending ≠ .reset :: rest) → ∀ f, s.recorded f = true → t.recorded f = true) ∧
    (∀ rest, s.pending = .reset :: rest → t.err = 0)

/-- R203, R84, R200: a command is answered with code 0 and no new bit, or with the code of a fault and that fault's bit
set and no other. -/
def Obligations.ResponseCodeAndBitNameTheFault : Prop :=
  ∀ (i : Instr) (s t : State), exec i s = .next t →
    ∃ r, t.rsp = some r ∧ ((r.code = 0 ∧ t.err = s.err) ∨
      ∃ f : CmdFault, r.code = f.code ∧ r.code.toNat ≤ 7 ∧ t.err = s.err ||| ((1 : BitVec 7) <<< (r.code.toNat - 1)) ∧ t.recorded f = true)

/-- R209: the `fault` pin is the OR of the seven sticky bits, with no mask. -/
def Obligations.FaultPinIsTheOrOfTheBits : Prop :=
  ∀ s : State, s.faultPin = true ↔ ∃ f, s.recorded f = true

/-- R29: `sr`, `maxdly`, `variant` and `len` are written by a successful PREPARE and by nothing else but reset. -/
def Obligations.OnlyPrepareWritesTheLatchedState : Prop :=
  ∀ s t : State, step s = .next t →
    (t.sr, t.maxdly, t.variant, t.len) = (s.sr, s.maxdly, s.variant, s.len) ∨
    (∃ rest, s.pending = .reset :: rest) ∨
    (∃ c rest v sr m, s.pending = .command c :: rest ∧ decode c = .ok (prepareInstr v sr m) ∧
      t.rsp = some ⟨0, BitVec.ofNat 32 t.len, 0⟩ ∧ t.prepared = true)

/-- R31, R51: the core only reads the parameter registers: a step changes them only by WRREG or reset. -/
def Obligations.OnlyWrregWritesTheParameters : Prop :=
  ∀ s t : State, step s = .next t → t.par ≠ s.par →
    (∃ rest, s.pending = .reset :: rest) ∨
    (∃ c rest idx v, s.pending = .command c :: rest ∧ decode c = .ok (.wrreg idx v) ∧ idx ≤ 0x07)

/-- R65, R180, R188, R189: NOP, RDREG and RDMEM change nothing but the response, and a sticky bit on a fault. -/
def Obligations.ObserversChangeNothing : Prop :=
  ∀ (i : Instr) (s t : State), (i = .nop ∨ (∃ idx, i = .rdreg idx) ∨ ∃ ch a, i = .rdmem ch a) →
    exec i s = .next t →
      t = { s with err := t.err, rsp := t.rsp } ∧ ((t.rsp.map (·.code)) = some 0 → t.err = s.err)

/-- R185: while not prepared the block stays so, whatever is presented (log 2), until a PREPARE succeeds, and PROCESS and RDMEM
are answered NotPrepared. -/
def Obligations.UnpreparedUntilAPrepareSucceeds : Prop :=
  ∀ s t : State, s.prepared = false → step s = .next t →
    (t.prepared = true → ∃ c rest v sr m, s.pending = .command c :: rest ∧ decode c = .ok (prepareInstr v sr m) ∧
      ∃ n, t.rsp = some ⟨0, n, 0⟩) ∧
    (∀ c rest, s.pending = .command c :: rest →
      ((∃ x y, decode c = .ok (.process x y)) ∨ ∃ ch a, decode c = .ok (.rdmem ch a)) → t.rsp = some ⟨2, 0, 0⟩)

/-- R52, R54 (and V6, V7): the delay memory before a PREPARE and its words at `len` and above cannot be observed: two
states that differ only there answer alike, and still differ only there. Where a range check fails, both make the same draw
of the free value (log 7). -/
def Obligations.HiddenMemoryIsUnobservable : Prop :=
  ∀ s t s' : State, s.Inv → t.Inv → SameVisible s t → step s = .next s' →
    ∃ t', step t = .next t' ∧ SameVisible s' t' ∧ t'.rsp = s'.rsp

/-- R26 over the machine (with R136 and R147): every step, whatever is presented, keeps a phase in [0, 1), if a PROCESS has an
increment of at most a whole cycle; but for the one pair (0x3F7FFFFF, 1.0) on which R136's own arithmetic gives 1.0
(log 16). -/
def Obligations.EveryStepKeepsThePhaseInTheUnitInterval : Prop :=
  ∀ s t : State, inUnit s.phase = true →
    (∀ c rest, s.pending = .command c :: rest → decodesTo isProcess c = true →
      unitRange (fdiv s.par.rate s.sr) = true ∧ ¬(s.phase = 0x3F7FFFFF ∧ fdiv s.par.rate s.sr = one)) →
    step s = .next t → inUnit t.phase = true
end

