-- ==== Sys2Proof/Laws/Float.lean ====
section
/-! SUPPORT. Laws of the arithmetic of Machine/Float.lean: patterns, the value of bits 30:0 as a function of
one number, the rounding as a threshold (`lt_roundBits_iff`), and from it exactness, monotonicity and
nearness; then the special values and one lemma per primitive on finite operands. -/

namespace Sys2Proof.Machine

/-! ### Patterns -/

theorem infBits_eq : infBits = 2139095040 := rfl

theorem magBits_lt (w : Word) : magBits w < 2 ^ 31 := Nat.mod_lt _ (by decide)

theorem signBit_eq (w : Word) : signBit w = decide (2 ^ 31 ≤ w.toNat) := by
  simp [signBit, BitVec.msb_eq_decide]

theorem toNat_eq (w : Word) : w.toNat = (if signBit w then 2 ^ 31 else 0) + magBits w := by
  rw [signBit_eq, magBits]
  have := w.isLt
  by_cases h : 2 ^ 31 ≤ w.toNat
  · simp only [h, decide_true, if_true]; omega
  · simp only [h, decide_false, Bool.false_eq_true, if_false]; omega

theorem word_ext {a b : Word} (hs : signBit a = signBit b) (hm : magBits a = magBits b) : a = b := by
  apply BitVec.eq_of_toNat_eq
  rw [toNat_eq a, toNat_eq b, hs, hm]

theorem toNat_packBits (neg : Bool) {m : Nat} (h : m < 2 ^ 31) :
    (packBits neg m).toNat = (if neg then 2 ^ 31 else 0) + m := by
  cases neg
  · simp [packBits, BitVec.toNat_ofNat]; omega
  · simp [packBits, BitVec.toNat_ofNat]; omega

theorem signBit_packBits (neg : Bool) {m : Nat} (h : m < 2 ^ 31) : signBit (packBits neg m) = neg := by
  rw [signBit_eq, toNat_packBits neg h]
  cases neg
  · simp; omega
  · simp

theorem magBits_packBits (neg : Bool) {m : Nat} (h : m < 2 ^ 31) : magBits (packBits neg m) = m := by
  rw [magBits, toNat_packBits neg h]
  cases neg <;> simp <;> omega

theorem packBits_self (w : Word) : packBits (signBit w) (magBits w) = w :=
  word_ext (signBit_packBits _ (magBits_lt w)) (magBits_packBits _ (magBits_lt w))

theorem fracField_eq (w : Word) : fracField w = magBits w % 2 ^ 23 := by
  simp only [fracField, magBits]; omega

theorem isFinite_iff (w : Word) : isFinite w = true ↔ magBits w < infBits := by
  have := magBits_lt w
  rw [isFinite, decide_eq_true_iff, expField, infBits_eq]; omega

theorem isInf_iff (w : Word) : isInf w = true ↔ magBits w = infBits := by
  have := magBits_lt w
  rw [isInf, Bool.and_eq_true, decide_eq_true_iff, decide_eq_true_iff, expField, fracField_eq, infBits_eq]; omega

theorem isNaN_iff (w : Word) : isNaN w = true ↔ infBits < magBits w := by
  have := magBits_lt w
  rw [isNaN, Bool.and_eq_true, decide_eq_true_iff, decide_eq_true_iff, expField, fracField_eq, infBits_eq]; omega

theorem isZero_iff (w : Word) : isZero w = true ↔ magBits w = 0 := by simp [isZero]

/-- A pattern is finite, an infinity or a NaN. -/
theorem finite_or (w : Word) : isFinite w = true ∨ isInf w = true ∨ isNaN w = true := by
  rw [isFinite_iff, isInf_iff, isNaN_iff]; omega

theorem not_nan_of_finite {w : Word} (h : isFinite w = true) : isNaN w = false := by
  rw [Bool.eq_false_iff, Ne, isNaN_iff]; rw [isFinite_iff] at h; omega

theorem not_inf_of_finite {w : Word} (h : isFinite w = true) : isInf w = false := by
  rw [Bool.eq_false_iff, Ne, isInf_iff]; rw [isFinite_iff] at h; omega

/-! ### The value of bits 30:0 -/

/-- The value, in units of 2^-149, of bits 30:0 taken as one number `m` (R19), without an end to the exponents. -/
def bitsUnits (m : Nat) : Nat := if m < 2 ^ 23 then m else (2 ^ 23 + m % 2 ^ 23) * 2 ^ (m / 2 ^ 23 - 1)

theorem magUnits_eq (w : Word) : magUnits w = bitsUnits (magBits w) := by
  simp only [magUnits, bitsUnits, expField, fracField_eq]
  by_cases h : magBits w < 2 ^ 23
  · rw [if_pos h, if_pos (Nat.div_eq_of_lt h), Nat.mod_eq_of_lt h]
  · rw [if_neg h, if_neg (by rw [Nat.div_eq_zero_iff]; omega)]

/-- A significand of 24 bits at exponent step `k`. -/
theorem bitsUnits_step {k s : Nat} (hs : 2 ^ 23 ≤ s) (hs' : s ≤ 2 ^ 24) : bitsUnits (k * 2 ^ 23 + s) = s * 2 ^ k := by
  rw [bitsUnits, if_neg (by omega)]
  rcases Nat.lt_or_ge s (2 ^ 24) with h | h
  · have h1 : (k * 2 ^ 23 + s) / 2 ^ 23 - 1 = k := by omega
    have h2 : 2 ^ 23 + (k * 2 ^ 23 + s) % 2 ^ 23 = s := by omega
    rw [h1, h2]
  · have h1 : (k * 2 ^ 23 + s) / 2 ^ 23 - 1 = k + 1 := by omega
    have h2 : 2 ^ 23 + (k * 2 ^ 23 + s) % 2 ^ 23 = 2 ^ 23 := by omega
    have h3 : s = 2 ^ 24 := by omega
    rw [h1, h2, h3, pow_succ]; ring

theorem bitsUnits_small {s : Nat} (hs : s ≤ 2 ^ 24) : bitsUnits s = s := by
  rcases Nat.lt_or_ge s (2 ^ 23) with h | h
  · rw [bitsUnits, if_pos h]
  · have := bitsUnits_step (k := 0) h hs
    simpa using this

theorem bitsUnits_succ (m : Nat) : bitsUnits m < bitsUnits (m + 1) := by
  rcases Nat.lt_or_ge m (2 ^ 23) with h | h
  · rw [bitsUnits_small (by omega), bitsUnits_small (by omega)]; omega
  · obtain ⟨k, s, rfl, h1, h2⟩ : ∃ k s, m = k * 2 ^ 23 + s ∧ 2 ^ 23 ≤ s ∧ s < 2 ^ 24 :=
      ⟨m / 2 ^ 23 - 1, 2 ^ 23 + m % 2 ^ 23, by omega, by omega, by omega⟩
    rw [bitsUnits_step h1 h2.le, Nat.add_assoc, bitsUnits_step (by omega) (by omega)]
    exact Nat.mul_lt_mul_of_pos_right (by omega) (by positivity)

theorem bitsUnits_strictMono : StrictMono bitsUnits := strictMono_nat_of_lt_succ bitsUnits_succ

theorem bitsUnits_mono : Monotone bitsUnits := bitsUnits_strictMono.monotone

@[simp] theorem bitsUnits_zero : bitsUnits 0 = 0 := rfl

/-- Every significand and exponent step is some bits. -/
theorem exists_step (m : Nat) :
    m < 2 ^ 23 ∨ ∃ k s, m = k * 2 ^ 23 + s ∧ 2 ^ 23 ≤ s ∧ s < 2 ^ 24 := by
  rcases Nat.lt_or_ge m (2 ^ 23) with h | h
  · exact .inl h
  · exact .inr ⟨m / 2 ^ 23 - 1, 2 ^ 23 + m % 2 ^ 23, by omega, by omega, by omega⟩

/-! ### Rounding -/

/-- The rounding half to even as a threshold. -/
theorem lt_roundHalfEven_iff {n d : Nat} (hd : 0 < d) (j : Nat) :
    j < roundHalfEven n d ↔ (2 * j + 1) * d < 2 * n ∨ ((2 * j + 1) * d = 2 * n ∧ j % 2 = 1) := by
  have hn : n = d * (n / d) + n % d := (Nat.div_add_mod n d).symm
  have hr : n % d < d := Nat.mod_lt _ hd
  set q := n / d with hq
  set r := n % d with hrdef
  have key : ∀ a b : Nat, a < b → (2 * a + 1) * d + d ≤ (2 * b) * d := by
    intro a b hab; rw [← Nat.succ_mul]; exact Nat.mul_le_mul_right _ (by omega)
  have e1 : (2 * q) * d = 2 * (d * q) := by ring
  have e2 : (2 * q + 1) * d = 2 * (d * q) + d := by ring
  have e3 : (2 * (q + 1)) * d = 2 * (d * q) + 2 * d := by ring
  have e4 : ∀ j, (2 * j + 1) * d = 2 * j * d + d := by intro j; ring
  simp only [roundHalfEven, ← hq, ← hrdef]
  rcases Nat.lt_trichotomy j q with h | h | h
  · have := key j q h
    constructor
    · intro _; left; omega
    · intro _; split_ifs <;> omega
  · subst h
    rw [e2]
    split_ifs with h1 h2
    · constructor <;> intro hh <;> omega
    · constructor <;> intro hh <;> omega
    · constructor <;> intro hh <;> omega
  · have : (2 * (q + 1)) * d ≤ (2 * j) * d := Nat.mul_le_mul_right _ (by omega)
    rw [e4 j]
    constructor
    · intro hh; split_ifs at hh <;> omega
    · intro hh; omega

/-- `roundMag` before the infinity cuts it off. -/
def roundBits (n d : Nat) : Nat :=
  (( n / d).log2 - 23) * 2 ^ 23 + roundHalfEven n (d * 2 ^ ((n / d).log2 - 23))

theorem roundMag_eq (n d : Nat) : roundMag n d = min (roundBits n d) infBits := rfl

theorem roundMag_le (n d : Nat) : roundMag n d ≤ infBits := min_le_right _ _

theorem roundMag_lt (n d : Nat) : roundMag n d < 2 ^ 31 := lt_of_le_of_lt (roundMag_le n d) (by decide)

/-- The quotient lies in the exponent step that `roundBits` picks. -/
theorem log2_step (q : Nat) :
    q + 1 ≤ 2 ^ 24 * 2 ^ (q.log2 - 23) ∧ (0 < q.log2 - 23 → 2 ^ 23 * 2 ^ (q.log2 - 23) ≤ q) := by
  constructor
  · have := Nat.lt_log2_self (n := q)
    have h2 : 2 ^ (q.log2 + 1) ≤ 2 ^ (24 + (q.log2 - 23)) := Nat.pow_le_pow_right (by decide) (by omega)
    rw [pow_add 2 24] at h2
    exact le_trans this h2
  · intro hk
    have h0 : q ≠ 0 := by rintro rfl; simp at hk
    have := Nat.log2_self_le h0
    have h2 : 2 ^ (23 + (q.log2 - 23)) ≤ 2 ^ q.log2 := Nat.pow_le_pow_right (by decide) (by omega)
    rw [pow_add 2 23] at h2
    exact le_trans h2 this

/-- The threshold below the step that is picked: always exceeded. -/
theorem threshold_below {n d k m : Nat} (hd : 0 < d) (hlo : d * (2 ^ 23 * 2 ^ k) ≤ n)
    (hm : m + 1 ≤ k * 2 ^ 23 + 2 ^ 23) :
    2 ^ 23 - 1 < roundHalfEven n (d * 2 ^ k) ∧ (bitsUnits m + bitsUnits (m + 1)) * d < 2 * n := by
  have h3 : bitsUnits (m + 1) ≤ 2 ^ 23 * 2 ^ k := by
    rw [← bitsUnits_step (k := k) (s := 2 ^ 23) le_rfl (by decide)]; exact bitsUnits_mono hm
  have h4 := bitsUnits_succ m
  have hP : 0 < 2 ^ k := by positivity
  constructor
  · rw [lt_roundHalfEven_iff (Nat.mul_pos hd hP)]; left
    have := Nat.mul_pos hd hP
    rw [show d * (2 ^ 23 * 2 ^ k) = 2 ^ 23 * (d * 2 ^ k) by ring] at hlo
    obtain ⟨b, hb⟩ : ∃ b, b = d * 2 ^ k := ⟨_, rfl⟩
    rw [← hb] at hlo this ⊢
    omega
  · obtain ⟨b, hb⟩ : ∃ b, b = 2 ^ 23 * 2 ^ k := ⟨_, rfl⟩
    rw [← hb] at h3 hlo
    have h7 : (bitsUnits m + bitsUnits (m + 1)) * d < 2 * b * d := Nat.mul_lt_mul_of_pos_right (by omega) hd
    have h8 : 2 * b * d = 2 * (d * b) := by ring
    omega

/-- The threshold above the step that is picked: never reached. -/
theorem threshold_above {n d k m : Nat} (hd : 0 < d) (hhi : n < d * (2 ^ 24 * 2 ^ k))
    (hm : k * 2 ^ 23 + 2 ^ 24 ≤ m) :
    ¬ 2 ^ 24 < roundHalfEven n (d * 2 ^ k) ∧ 2 * n < (bitsUnits m + bitsUnits (m + 1)) * d := by
  have h3 : 2 ^ 24 * 2 ^ k ≤ bitsUnits m := by
    rw [← bitsUnits_step (k := k) (s := 2 ^ 24) (by decide) le_rfl]; exact bitsUnits_mono hm
  have h4 := bitsUnits_succ m
  have hP : 0 < 2 ^ k := by positivity
  constructor
  · rw [lt_roundHalfEven_iff (Nat.mul_pos hd hP)]
    have h2 : 2 * n < (2 * 2 ^ 24 + 1) * (d * 2 ^ k) := by
      rw [Nat.mul_left_comm] at hhi; omega
    rintro (h | ⟨h, _⟩)
    · exact absurd h h2.le.not_gt
    · exact absurd h h2.ne'
  · obtain ⟨b, hb⟩ : ∃ b, b = 2 ^ 24 * 2 ^ k := ⟨_, rfl⟩
    rw [← hb] at h3 hhi
    have h5 : 2 * b * d < (bitsUnits m + bitsUnits (m + 1)) * d := Nat.mul_lt_mul_of_pos_right (by omega) hd
    have h6 : 2 * b * d = 2 * (d * b) := by ring
    omega

/-- The threshold within the step that is picked. -/
theorem threshold_within {d k s : Nat} (hs : s < 2 ^ 24) (hlow : 0 < k → 2 ^ 23 ≤ s) :
    (bitsUnits (k * 2 ^ 23 + s) + bitsUnits (k * 2 ^ 23 + s + 1)) * d = (2 * s + 1) * (d * 2 ^ k) := by
  have hU : bitsUnits (k * 2 ^ 23 + s) = s * 2 ^ k ∧ bitsUnits (k * 2 ^ 23 + s + 1) = (s + 1) * 2 ^ k := by
    rcases Nat.eq_zero_or_pos k with h | h
    · rw [h, Nat.zero_mul, Nat.zero_add, pow_zero, mul_one, mul_one]
      exact ⟨bitsUnits_small hs.le, bitsUnits_small hs⟩
    · exact ⟨bitsUnits_step (hlow h) hs.le, by
        rw [Nat.add_assoc]; exact bitsUnits_step (Nat.le_succ_of_le (hlow h)) hs⟩
  rw [hU.1, hU.2]; ring

/-- THE law of the rounding: bits `m` are exceeded exactly above the midpoint between `m` and `m + 1`, and at
it when `m` is odd. -/
theorem lt_roundBits_iff {n d : Nat} (hd : 0 < d) (m : Nat) :
    m < roundBits n d ↔
      (bitsUnits m + bitsUnits (m + 1)) * d < 2 * n ∨
        ((bitsUnits m + bitsUnits (m + 1)) * d = 2 * n ∧ m % 2 = 1) := by
  obtain ⟨hhi, hlo⟩ := log2_step (n / d)
  have hR : roundBits n d = ((n / d).log2 - 23) * 2 ^ 23 + roundHalfEven n (d * 2 ^ ((n / d).log2 - 23)) := rfl
  rw [hR]
  have hqn : d * (n / d) ≤ n := Nat.mul_div_le n d
  have hnq : n < d * (n / d + 1) := Nat.lt_mul_div_succ n hd
  generalize (n / d).log2 - 23 = k at *
  have hn_hi : n < d * (2 ^ 24 * 2 ^ k) := lt_of_lt_of_le hnq (Nat.mul_le_mul_left _ hhi)
  by_cases hlow : 0 < k ∧ m + 1 ≤ k * 2 ^ 23 + 2 ^ 23
  · obtain ⟨h1, h2⟩ := threshold_below hd (le_trans (Nat.mul_le_mul_left _ (hlo hlow.1)) hqn) hlow.2
    exact iff_of_true (by omega) (.inl h2)
  · by_cases hhigh : k * 2 ^ 23 + 2 ^ 24 ≤ m
    · obtain ⟨h1, h2⟩ := threshold_above hd hn_hi hhigh
      exact iff_of_false (by omega) (by omega)
    · obtain ⟨s, rfl⟩ : ∃ s, m = k * 2 ^ 23 + s := ⟨m - k * 2 ^ 23, by
        rcases Nat.eq_zero_or_pos k with h | h <;> omega⟩
      have hP : 0 < 2 ^ k := by positivity
      rw [threshold_within (d := d) (by omega) (by omega), show (k * 2 ^ 23 + s) % 2 = s % 2 by omega,
        ← lt_roundHalfEven_iff (Nat.mul_pos hd hP)]
      omega

/-- Rounding keeps the order of magnitudes. -/
theorem roundBits_mono {n d n' d' : Nat} (hd : 0 < d) (hd' : 0 < d') (h : n * d' ≤ n' * d) :
    roundBits n d ≤ roundBits n' d' := by
  by_contra hc
  have hlt := not_le.mp hc
  rw [lt_roundBits_iff hd] at hlt
  have hnot : ¬ roundBits n' d' < roundBits n' d' := lt_irrefl _
  rw [lt_roundBits_iff hd'] at hnot
  push Not at hnot
  set x := bitsUnits (roundBits n' d') + bitsUnits (roundBits n' d' + 1)
  rcases hlt with hlt | ⟨heq, hodd⟩
  · have h1 : x * d * d' < 2 * n * d' := Nat.mul_lt_mul_of_pos_right hlt hd'
    have h2 : 2 * n * d' ≤ 2 * n' * d := by nlinarith
    have h3 : 2 * n' * d ≤ x * d' * d := Nat.mul_le_mul_right _ hnot.1
    have : x * d * d' = x * d' * d := by ring
    omega
  · rcases Nat.lt_or_ge (2 * n') (x * d') with h5 | h5
    · have h1 : 2 * n' * d < x * d' * d := Nat.mul_lt_mul_of_pos_right h5 hd
      have h2 : x * d * d' = 2 * n * d' := by rw [heq]
      have h3 : 2 * n * d' ≤ 2 * n' * d := by nlinarith
      have : x * d * d' = x * d' * d := by ring
      omega
    · exact hnot.2 (by omega) hodd

theorem roundMag_mono {n d n' d' : Nat} (hd : 0 < d) (hd' : 0 < d') (h : n * d' ≤ n' * d) :
    roundMag n d ≤ roundMag n' d' := by
  rw [roundMag_eq, roundMag_eq]; exact min_le_min_right _ (roundBits_mono hd hd' h)

/-- A magnitude that is some bits rounds to those bits. -/
theorem roundBits_exact {n d m : Nat} (hd : 0 < d) (h : n = bitsUnits m * d) : roundBits n d = m := by
  apply le_antisymm
  · by_contra hc
    have hlt := not_le.mp hc
    rw [lt_roundBits_iff hd] at hlt
    have h1 : (bitsUnits m + bitsUnits m) * d < (bitsUnits m + bitsUnits (m + 1)) * d :=
      Nat.mul_lt_mul_of_pos_right (by have := bitsUnits_succ m; omega) hd
    have h2 : (bitsUnits m + bitsUnits m) * d = 2 * (bitsUnits m * d) := by ring
    omega
  · rcases Nat.eq_zero_or_pos m with h0 | h0
    · omega
    · have : m - 1 < roundBits n d := by
        rw [lt_roundBits_iff hd]; left
        have h1 := bitsUnits_succ (m - 1)
        rw [Nat.sub_add_cancel h0] at h1 ⊢
        have h2 : (bitsUnits (m - 1) + bitsUnits m) * d < (bitsUnits m + bitsUnits m) * d :=
          Nat.mul_lt_mul_of_pos_right (by omega) hd
        have h3 : (bitsUnits m + bitsUnits m) * d = 2 * (bitsUnits m * d) := by ring
        omega
      omega

theorem roundMag_exact {n d m : Nat} (hd : 0 < d) (hm : m ≤ infBits) (h : n = bitsUnits m * d) :
    roundMag n d = m := by
  rw [roundMag_eq, roundBits_exact hd h, min_eq_left hm]

/-- A magnitude at most that of bits `m` rounds to at most `m`. -/
theorem roundMag_le_of_le {n d m : Nat} (hd : 0 < d) (h : n ≤ bitsUnits m * d) : roundMag n d ≤ m := by
  have h1 := roundBits_mono hd hd (Nat.mul_le_mul_right d h)
  rw [roundBits_exact hd rfl] at h1
  exact le_trans (min_le_left _ _) h1

/-- A magnitude at least that of bits `m` rounds to at least `m`. -/
theorem le_roundMag_of_le {n d m : Nat} (hd : 0 < d) (hm : m ≤ infBits) (h : bitsUnits m * d ≤ n) :
    m ≤ roundMag n d := by
  have h1 := roundBits_mono hd hd (Nat.mul_le_mul_right d h)
  rw [roundBits_exact hd rfl] at h1
  exact le_min h1 hm

/-- The two midpoints around the result. -/
theorem roundBits_between {n d : Nat} (hd : 0 < d) :
    2 * n ≤ (bitsUnits (roundBits n d) + bitsUnits (roundBits n d + 1)) * d ∧
      (0 < roundBits n d →
        (bitsUnits (roundBits n d - 1) + bitsUnits (roundBits n d)) * d ≤ 2 * n) := by
  constructor
  · have hnot : ¬ roundBits n d < roundBits n d := lt_irrefl _
    rw [lt_roundBits_iff hd] at hnot
    push Not at hnot; exact hnot.1
  · intro hpos
    have h : roundBits n d - 1 < roundBits n d := by omega
    rw [lt_roundBits_iff hd, Nat.sub_add_cancel hpos] at h
    omega

end Sys2Proof.Machine
end

