-- ==== Sys2Proof/Laws/Arith.lean ====
section
/-! SUPPORT. One lemma per primitive of R11 to R14: what it answers on finite operands, on NaN and on
infinities, and that comparisons of finite patterns are comparisons of their values. -/

namespace Sys2Proof.Machine

/-! ### Values and order -/

theorem valueUnits_eq (w : Word) :
    valueUnits w = if signBit w then -(bitsUnits (magBits w) : Int) else bitsUnits (magBits w) := by
  rw [valueUnits, magUnits_eq]

theorem valueUnits_packBits (neg : Bool) {m : Nat} (h : m < 2 ^ 31) :
    valueUnits (packBits neg m) = if neg then -(bitsUnits m : Int) else bitsUnits m := by
  rw [valueUnits_eq, signBit_packBits neg h, magBits_packBits neg h]

theorem natAbs_valueUnits (w : Word) : (valueUnits w).natAbs = bitsUnits (magBits w) := by
  rw [valueUnits_eq]; split <;> simp

theorem bitsUnits_eq_zero {m : Nat} : bitsUnits m = 0 ↔ m = 0 :=
  ⟨fun h => bitsUnits_strictMono.injective (h.trans bitsUnits_zero.symm), fun h => by rw [h, bitsUnits_zero]⟩

theorem valueUnits_eq_zero {w : Word} : valueUnits w = 0 ↔ magBits w = 0 := by
  rw [← Int.natAbs_eq_zero, natAbs_valueUnits, bitsUnits_eq_zero]

/-- The order key orders patterns as their values are ordered. -/
theorem orderKey_lt_iff (a b : Word) : orderKey a < orderKey b ↔ valueUnits a < valueUnits b := by
  have hlt : ∀ x y : Nat, (bitsUnits x : Int) < bitsUnits y ↔ (x : Int) < y := by
    intro x y; rw [Int.ofNat_lt, Int.ofNat_lt]; exact bitsUnits_strictMono.lt_iff_lt
  have h0 : ∀ x : Nat, (0 : Int) < bitsUnits x ↔ (0 : Int) < x := by
    intro x; have := hlt 0 x; simpa using this
  have hp : ∀ x : Nat, (0 : Int) ≤ bitsUnits x := fun x => Int.natCast_nonneg _
  have hq : ∀ x : Nat, (0 : Int) ≤ x := fun x => Int.natCast_nonneg _
  rw [valueUnits_eq a, valueUnits_eq b, orderKey, orderKey]
  have k1 := hlt (magBits a) (magBits b)
  have k2 := hlt (magBits b) (magBits a)
  have k3 := h0 (magBits a)
  have k4 := h0 (magBits b)
  have k5 := hp (magBits a)
  have k6 := hp (magBits b)
  cases signBit a <;> cases signBit b <;> simp only [if_true, Bool.false_eq_true, if_false] <;> omega

theorem orderKey_le_iff (a b : Word) : orderKey a ≤ orderKey b ↔ valueUnits a ≤ valueUnits b := by
  rw [← not_lt, ← not_lt, orderKey_lt_iff]

theorem orderKey_eq_iff (a b : Word) : orderKey a = orderKey b ↔ valueUnits a = valueUnits b := by
  rw [le_antisymm_iff, le_antisymm_iff, orderKey_le_iff, orderKey_le_iff]

theorem flt_iff {a b : Word} (ha : isNaN a = false) (hb : isNaN b = false) :
    flt a b = true ↔ valueUnits a < valueUnits b := by
  simp [flt, ha, hb, orderKey_lt_iff]

theorem fle_iff {a b : Word} (ha : isNaN a = false) (hb : isNaN b = false) :
    fle a b = true ↔ valueUnits a ≤ valueUnits b := by
  simp [fle, ha, hb, orderKey_le_iff]

theorem feq_iff {a b : Word} (ha : isNaN a = false) (hb : isNaN b = false) :
    feq a b = true ↔ valueUnits a = valueUnits b := by
  simp [feq, ha, hb, orderKey_eq_iff]

theorem flt_nan {a b : Word} (h : isNaN a = true ∨ isNaN b = true) : flt a b = false := by
  rcases h with h | h <;> simp [flt, h]

theorem fle_nan {a b : Word} (h : isNaN a = true ∨ isNaN b = true) : fle a b = false := by
  rcases h with h | h <;> simp [fle, h]

theorem feq_nan {a b : Word} (h : isNaN a = true ∨ isNaN b = true) : feq a b = false := by
  rcases h with h | h <;> simp [feq, h]

/-- A comparison that holds has no NaN operand. -/
theorem not_nan_of_flt {a b : Word} (h : flt a b = true) : isNaN a = false ∧ isNaN b = false := by
  simp only [flt, Bool.and_eq_true, Bool.not_eq_true'] at h; exact h.1

theorem not_nan_of_fle {a b : Word} (h : fle a b = true) : isNaN a = false ∧ isNaN b = false := by
  simp only [fle, Bool.and_eq_true, Bool.not_eq_true'] at h; exact h.1

/-- The largest magnitude: the value at the infinity's bits. -/
theorem finite_iff_natAbs (w : Word) : isFinite w = true ↔ (valueUnits w).natAbs < bitsUnits infBits := by
  rw [isFinite_iff, natAbs_valueUnits, bitsUnits_strictMono.lt_iff_lt]

/-! ### The sign change -/

theorem signBit_fneg (a : Word) : signBit (fneg a) = !signBit a := by
  simp only [signBit, fneg, BitVec.msb_xor]
  rw [show (0x80000000 : Word).msb = true by decide]; simp

theorem magBits_fneg (a : Word) : magBits (fneg a) = magBits a := by
  have h := signBit_fneg a
  have h1 : (fneg a).toNat = a.toNat ^^^ 2147483648 := by rw [fneg, BitVec.toNat_xor]; rfl
  rw [magBits, magBits, h1, show (2147483648 : Nat) = 2 ^ 31 by rfl, Nat.xor_mod_two_pow]
  simp

theorem isNaN_congr {a b : Word} (h : magBits a = magBits b) : isNaN a = isNaN b := by
  rw [Bool.eq_iff_iff, isNaN_iff, isNaN_iff, h]

theorem isInf_congr {a b : Word} (h : magBits a = magBits b) : isInf a = isInf b := by
  rw [Bool.eq_iff_iff, isInf_iff, isInf_iff, h]

theorem isFinite_congr {a b : Word} (h : magBits a = magBits b) : isFinite a = isFinite b := by
  rw [Bool.eq_iff_iff, isFinite_iff, isFinite_iff, h]

@[simp] theorem isNaN_fneg (a : Word) : isNaN (fneg a) = isNaN a := isNaN_congr (magBits_fneg a)
@[simp] theorem isInf_fneg (a : Word) : isInf (fneg a) = isInf a := isInf_congr (magBits_fneg a)
@[simp] theorem isFinite_fneg (a : Word) : isFinite (fneg a) = isFinite a := isFinite_congr (magBits_fneg a)

theorem valueUnits_fneg (a : Word) : valueUnits (fneg a) = -valueUnits a := by
  rw [valueUnits_eq, valueUnits_eq, signBit_fneg, magBits_fneg]; cases signBit a <;> simp

/-! ### The primitives on finite operands -/

theorem fadd_finite {a b : Word} (ha : isFinite a = true) (hb : isFinite b = true) :
    fadd a b = if valueUnits a + valueUnits b = 0 then packBits (signBit a && signBit b) 0
      else packBits (decide (valueUnits a + valueUnits b < 0)) (roundMag (valueUnits a + valueUnits b).natAbs 1) := by
  simp [fadd, not_nan_of_finite ha, not_nan_of_finite hb, not_inf_of_finite ha, not_inf_of_finite hb]

theorem fsub_finite {a b : Word} (ha : isFinite a = true) (hb : isFinite b = true) :
    fsub a b = if valueUnits a - valueUnits b = 0 then packBits (signBit a && !signBit b) 0
      else packBits (decide (valueUnits a - valueUnits b < 0)) (roundMag (valueUnits a - valueUnits b).natAbs 1) := by
  rw [fsub, fadd_finite ha (by simpa using hb), valueUnits_fneg, signBit_fneg, ← sub_eq_add_neg]

theorem fmul_finite {a b : Word} (ha : isFinite a = true) (hb : isFinite b = true) :
    fmul a b = packBits (signBit a != signBit b) (roundMag (bitsUnits (magBits a) * bitsUnits (magBits b)) (2 ^ 149)) := by
  simp [fmul, not_nan_of_finite ha, not_nan_of_finite hb, not_inf_of_finite ha, not_inf_of_finite hb, magUnits_eq]

theorem fdiv_finite {a b : Word} (ha : isFinite a = true) (hb : isFinite b = true) (h0 : isZero b = false) :
    fdiv a b = packBits (signBit a != signBit b) (roundMag (bitsUnits (magBits a) * 2 ^ 149) (bitsUnits (magBits b))) := by
  simp [fdiv, not_nan_of_finite ha, not_nan_of_finite hb, not_inf_of_finite ha, not_inf_of_finite hb, magUnits_eq, h0]

/-- Bits 30:0 of a finite sum: the rounded magnitude. -/
theorem magBits_fadd {a b : Word} (ha : isFinite a = true) (hb : isFinite b = true) :
    magBits (fadd a b) = roundMag (valueUnits a + valueUnits b).natAbs 1 := by
  rw [fadd_finite ha hb]
  split
  · next h => rw [magBits_packBits _ (by decide), h]; rfl
  · exact magBits_packBits _ (roundMag_lt _ _)

/-- The value of a finite sum: the exact sum's sign and its rounded magnitude. -/
theorem valueUnits_fadd {a b : Word} (ha : isFinite a = true) (hb : isFinite b = true) :
    valueUnits (fadd a b) = if valueUnits a + valueUnits b < 0
      then -(bitsUnits (roundMag (valueUnits a + valueUnits b).natAbs 1) : Int)
      else bitsUnits (roundMag (valueUnits a + valueUnits b).natAbs 1) := by
  rw [fadd_finite ha hb]
  split
  · next h => rw [valueUnits_packBits _ (by decide), h]; simp [show roundMag 0 1 = 0 by decide]
  · rw [valueUnits_packBits _ (roundMag_lt _ _)]; simp

theorem valueUnits_fsub {a b : Word} (ha : isFinite a = true) (hb : isFinite b = true) :
    valueUnits (fsub a b) = if valueUnits a - valueUnits b < 0
      then -(bitsUnits (roundMag (valueUnits a - valueUnits b).natAbs 1) : Int)
      else bitsUnits (roundMag (valueUnits a - valueUnits b).natAbs 1) := by
  rw [fsub, valueUnits_fadd ha (by simpa using hb), valueUnits_fneg, ← sub_eq_add_neg]

/-- A sum of finite operands is no NaN. -/
theorem fadd_not_nan {a b : Word} (ha : isFinite a = true) (hb : isFinite b = true) : isNaN (fadd a b) = false := by
  rw [Bool.eq_false_iff, Ne, isNaN_iff, magBits_fadd ha hb, not_lt]; exact roundMag_le _ _

theorem fsub_not_nan {a b : Word} (ha : isFinite a = true) (hb : isFinite b = true) : isNaN (fsub a b) = false :=
  fadd_not_nan ha (by simpa using hb)

theorem magBits_fmul {a b : Word} (ha : isFinite a = true) (hb : isFinite b = true) :
    magBits (fmul a b) = roundMag (bitsUnits (magBits a) * bitsUnits (magBits b)) (2 ^ 149) := by
  rw [fmul_finite ha hb, magBits_packBits _ (roundMag_lt _ _)]

theorem signBit_fmul {a b : Word} (ha : isFinite a = true) (hb : isFinite b = true) :
    signBit (fmul a b) = (signBit a != signBit b) := by
  rw [fmul_finite ha hb, signBit_packBits _ (roundMag_lt _ _)]

theorem fmul_not_nan {a b : Word} (ha : isFinite a = true) (hb : isFinite b = true) : isNaN (fmul a b) = false := by
  rw [Bool.eq_false_iff, Ne, isNaN_iff, magBits_fmul ha hb, not_lt]; exact roundMag_le _ _

/-- Rounding of a whole number of units with its sign keeps it at or below a value that is no NaN. -/
theorem signed_round_le {x : Int} {c : Word} (hc : isNaN c = false) (h : x ≤ valueUnits c) :
    (if x < 0 then -(bitsUnits (roundMag x.natAbs 1) : Int) else bitsUnits (roundMag x.natAbs 1)) ≤ valueUnits c := by
  have hm : magBits c ≤ infBits := by rw [Bool.eq_false_iff, Ne, isNaN_iff, not_lt] at hc; exact hc
  have hv := valueUnits_eq c
  have hcp : (0 : Int) ≤ bitsUnits (magBits c) := Int.natCast_nonneg _
  have hrp : (0 : Int) ≤ bitsUnits (roundMag x.natAbs 1) := Int.natCast_nonneg _
  split
  · next hx =>
    cases hs : signBit c
    · rw [hs, if_neg (by decide)] at hv; omega
    · rw [hs, if_pos rfl] at hv
      have := bitsUnits_mono (le_roundMag_of_le (n := x.natAbs) (d := 1) (by decide) hm (by omega))
      omega
  · next hx =>
    cases hs : signBit c
    · rw [hs, if_neg (by decide)] at hv
      have := bitsUnits_mono (roundMag_le_of_le (n := x.natAbs) (d := 1) (m := magBits c) (by decide) (by omega))
      omega
    · rw [hs, if_pos rfl] at hv
      have h0 : x.natAbs = 0 := by omega
      rw [h0, show roundMag 0 1 = 0 by decide, bitsUnits_zero]; omega

/-- The same from below. -/
theorem le_signed_round {x : Int} {c : Word} (hc : isNaN c = false) (h : valueUnits c ≤ x) :
    valueUnits c ≤ if x < 0 then -(bitsUnits (roundMag x.natAbs 1) : Int) else bitsUnits (roundMag x.natAbs 1) := by
  have hm : magBits c ≤ infBits := by rw [Bool.eq_false_iff, Ne, isNaN_iff, not_lt] at hc; exact hc
  have hv := valueUnits_eq c
  have hcp : (0 : Int) ≤ bitsUnits (magBits c) := Int.natCast_nonneg _
  have hrp : (0 : Int) ≤ bitsUnits (roundMag x.natAbs 1) := Int.natCast_nonneg _
  split
  · next hx =>
    cases hs : signBit c
    · rw [hs, if_neg (by decide)] at hv; omega
    · rw [hs, if_pos rfl] at hv
      have := bitsUnits_mono (roundMag_le_of_le (n := x.natAbs) (d := 1) (m := magBits c) (by decide) (by omega))
      omega
  · next hx =>
    cases hs : signBit c
    · rw [hs, if_neg (by decide)] at hv
      have := bitsUnits_mono (le_roundMag_of_le (n := x.natAbs) (d := 1) (by decide) hm (by omega))
      omega
    · rw [hs, if_pos rfl] at hv; omega

/-- A finite sum at most a value that is no NaN rounds to at most it. -/
theorem valueUnits_fadd_le {a b c : Word} (ha : isFinite a = true) (hb : isFinite b = true) (hc : isNaN c = false)
    (h : valueUnits a + valueUnits b ≤ valueUnits c) : valueUnits (fadd a b) ≤ valueUnits c := by
  rw [valueUnits_fadd ha hb]; exact signed_round_le hc h

theorem le_valueUnits_fadd {a b c : Word} (ha : isFinite a = true) (hb : isFinite b = true) (hc : isNaN c = false)
    (h : valueUnits c ≤ valueUnits a + valueUnits b) : valueUnits c ≤ valueUnits (fadd a b) := by
  rw [valueUnits_fadd ha hb]; exact le_signed_round hc h

theorem valueUnits_fsub_le {a b c : Word} (ha : isFinite a = true) (hb : isFinite b = true) (hc : isNaN c = false)
    (h : valueUnits a - valueUnits b ≤ valueUnits c) : valueUnits (fsub a b) ≤ valueUnits c := by
  rw [valueUnits_fsub ha hb]; exact signed_round_le hc h

theorem le_valueUnits_fsub {a b c : Word} (ha : isFinite a = true) (hb : isFinite b = true) (hc : isNaN c = false)
    (h : valueUnits c ≤ valueUnits a - valueUnits b) : valueUnits c ≤ valueUnits (fsub a b) := by
  rw [valueUnits_fsub ha hb]; exact le_signed_round hc h

/-- A finite sum that is itself the value of a finite pattern is exact. -/
theorem valueUnits_fadd_exact {a b c : Word} (ha : isFinite a = true) (hb : isFinite b = true) (hc : isFinite c = true)
    (h : valueUnits a + valueUnits b = valueUnits c) : valueUnits (fadd a b) = valueUnits c :=
  le_antisymm (valueUnits_fadd_le ha hb (not_nan_of_finite hc) h.le)
    (le_valueUnits_fadd ha hb (not_nan_of_finite hc) h.ge)

theorem valueUnits_fsub_exact {a b c : Word} (ha : isFinite a = true) (hb : isFinite b = true) (hc : isFinite c = true)
    (h : valueUnits a - valueUnits b = valueUnits c) : valueUnits (fsub a b) = valueUnits c :=
  le_antisymm (valueUnits_fsub_le ha hb (not_nan_of_finite hc) h.le)
    (le_valueUnits_fsub ha hb (not_nan_of_finite hc) h.ge)

/-! ### NaN (R12 b) -/

theorem fadd_nan {a b : Word} (h : isNaN a = true ∨ isNaN b = true) : fadd a b = canonicalNaN := by
  rcases h with h | h <;> simp [fadd, h]

theorem fsub_nan {a b : Word} (h : isNaN a = true ∨ isNaN b = true) : fsub a b = canonicalNaN :=
  fadd_nan (by simpa using h)

theorem fmul_nan {a b : Word} (h : isNaN a = true ∨ isNaN b = true) : fmul a b = canonicalNaN := by
  rcases h with h | h <;> simp [fmul, h]

theorem fdiv_nan {a b : Word} (h : isNaN a = true ∨ isNaN b = true) : fdiv a b = canonicalNaN := by
  rcases h with h | h <;> simp [fdiv, h]

/-! ### Conversions (R14) -/

/-- A number up to 2^24 as bits: its own exponent step. -/
theorem exists_bits_of_nat {n : Nat} (h : n ≤ 2 ^ 24) : ∃ m, m < infBits ∧ bitsUnits m = n * 2 ^ 149 := by
  rcases Nat.eq_zero_or_pos n with h0 | h0
  · exact ⟨0, by decide, by rw [h0]; simp⟩
  · have hlo := Nat.log2_self_le h0.ne'
    have hhi := Nat.lt_log2_self (n := n)
    have hL : n.log2 ≤ 24 := by
      by_contra hc
      have : 2 ^ 25 ≤ 2 ^ n.log2 := Nat.pow_le_pow_right (by decide) (by omega)
      omega
    rcases Nat.eq_or_lt_of_le hL with h24 | hlt
    · have hn : n = 2 ^ 24 := by rw [h24] at hlo; omega
      refine ⟨(150 * 2 ^ 23) + 2 ^ 23, by decide, ?_⟩
      rw [bitsUnits_step le_rfl (by decide), hn]; norm_num
    · refine ⟨(126 + n.log2) * 2 ^ 23 + n * 2 ^ (23 - n.log2), ?_, ?_⟩
      · have : n * 2 ^ (23 - n.log2) < 2 ^ (n.log2 + 1) * 2 ^ (23 - n.log2) :=
          Nat.mul_lt_mul_of_pos_right hhi (by positivity)
        rw [← pow_add, show n.log2 + 1 + (23 - n.log2) = 24 by omega] at this
        rw [infBits_eq]; omega
      · rw [bitsUnits_step]
        · rw [mul_assoc, ← pow_add]; congr 2; omega
        · have : 2 ^ n.log2 * 2 ^ (23 - n.log2) ≤ n * 2 ^ (23 - n.log2) := Nat.mul_le_mul_right _ hlo
          rw [← pow_add, show n.log2 + (23 - n.log2) = 23 by omega] at this
          exact this
        · have : n * 2 ^ (23 - n.log2) < 2 ^ (n.log2 + 1) * 2 ^ (23 - n.log2) :=
            Nat.mul_lt_mul_of_pos_right hhi (by positivity)
          rw [← pow_add, show n.log2 + 1 + (23 - n.log2) = 24 by omega] at this
          exact this.le

theorem u2f_bits {n : Nat} (h : n ≤ 2 ^ 24) :
    ∃ m, m < infBits ∧ bitsUnits m = n * 2 ^ 149 ∧ u2f n = packBits false m := by
  obtain ⟨m, hm, hv⟩ := exists_bits_of_nat h
  refine ⟨m, hm, hv, ?_⟩
  rw [u2f, roundMag_exact (m := m) (by decide) hm.le (by rw [hv, mul_one])]

theorem infBits_lt : infBits < 2 ^ 31 := by decide

theorem isFinite_u2f {n : Nat} (h : n ≤ 2 ^ 24) : isFinite (u2f n) = true := by
  obtain ⟨m, hm, -, he⟩ := u2f_bits h
  rw [he, isFinite_iff, magBits_packBits _ (hm.trans infBits_lt)]; exact hm

theorem signBit_u2f {n : Nat} (h : n ≤ 2 ^ 24) : signBit (u2f n) = false := by
  obtain ⟨m, hm, -, he⟩ := u2f_bits h
  rw [he, signBit_packBits _ (hm.trans infBits_lt)]

theorem valueUnits_u2f {n : Nat} (h : n ≤ 2 ^ 24) : valueUnits (u2f n) = (n : Int) * 2 ^ 149 := by
  obtain ⟨m, hm, hv, he⟩ := u2f_bits h
  rw [he, valueUnits_packBits _ (hm.trans infBits_lt), hv]; simp

/-- The floor of a pattern that is not negative, between whole numbers. -/
theorem ifloor_lt {v : Word} {n : Nat} : ifloor v < n ↔ bitsUnits (magBits v) < n * 2 ^ 149 := by
  rw [ifloor, magUnits_eq, Nat.div_lt_iff_lt_mul (by positivity)]

theorem le_ifloor {v : Word} {n : Nat} : n ≤ ifloor v ↔ n * 2 ^ 149 ≤ bitsUnits (magBits v) := by
  rw [ifloor, magUnits_eq, Nat.le_div_iff_mul_le (by positivity)]

/-! ### Constants -/

theorem valueUnits_plusZero : valueUnits plusZero = 0 := by decide
theorem isFinite_plusZero : isFinite plusZero = true := by decide
theorem isFinite_one : isFinite one = true := by decide
theorem valueUnits_one : valueUnits one = 2 ^ 149 := by decide
theorem magBits_plusInf : magBits plusInf = infBits := by decide

/-- PREPARE's test of an operand (R181): no sign, not zero, not infinite, no NaN. -/
theorem finitePositive_bits {w : Word} (h : flt plusZero w = true) (h' : flt w plusInf = true) :
    signBit w = false ∧ 0 < magBits w ∧ magBits w < infBits := by
  have hn := (not_nan_of_flt h).2
  rw [flt_iff (by decide) hn, valueUnits_plusZero] at h
  rw [flt_iff hn (by decide)] at h'
  rw [valueUnits_eq] at h
  cases hs : signBit w
  · rw [hs, if_neg (by decide)] at h
    have h1 : bitsUnits 0 < bitsUnits (magBits w) := by rw [bitsUnits_zero]; omega
    rw [valueUnits_eq w, hs, if_neg (by decide), valueUnits_eq plusInf,
      show signBit plusInf = false by decide, if_neg (by decide), magBits_plusInf] at h'
    exact ⟨rfl, bitsUnits_strictMono.lt_iff_lt.mp h1, bitsUnits_strictMono.lt_iff_lt.mp (by omega)⟩
  · rw [hs, if_pos rfl] at h
    have : (0 : Int) ≤ bitsUnits (magBits w) := Int.natCast_nonneg _
    omega

end Sys2Proof.Machine
end

