-- ==== Sys2Proof/Laws/Decode.lean ====
section
/-! SUPPORT. The fields of a command word: of one the encoder builds, and of any word from its three fields. -/

namespace Sys2Proof

theorem toNat_commandWord {opc arg : Nat} (ho : opc < 256) (ha : arg < 256) :
    (commandWord opc arg).toNat = opc * 2 ^ 24 + arg := by
  simp only [commandWord, BitVec.toNat_ofNat]; omega

theorem opcField_commandWord {opc arg : Nat} (ho : opc < 256) (ha : arg < 256) : opcField (commandWord opc arg) = opc := by
  rw [opcField, toNat_commandWord ho ha]; omega

theorem rsvField_commandWord {opc arg : Nat} (ho : opc < 256) (ha : arg < 256) : rsvField (commandWord opc arg) = 0 := by
  rw [rsvField, toNat_commandWord ho ha]; omega

theorem argField_commandWord {opc arg : Nat} (ho : opc < 256) (ha : arg < 256) : argField (commandWord opc arg) = arg := by
  rw [argField, toNat_commandWord ho ha]; omega

/-- The word as the rules of the commands write it: the opcode's word OR the argument. -/
theorem commandWord_eq_or {opc arg : Nat} (ho : opc < 256) (ha : arg < 256) :
    commandWord opc arg = BitVec.ofNat 32 (opc * 2 ^ 24) ||| BitVec.ofNat 32 arg := by
  apply BitVec.eq_of_toNat_eq
  rw [toNat_commandWord ho ha, BitVec.toNat_or, BitVec.toNat_ofNat, BitVec.toNat_ofNat, Nat.mod_eq_of_lt (by omega),
    Nat.mod_eq_of_lt (by omega), ← Nat.shiftLeft_eq, ← Nat.shiftLeft_add_eq_or_of_lt (by omega)]

theorem argField_lt (w : Word) : argField w < 256 := Nat.mod_lt _ (by decide)

/-- A word is its three fields (R81). -/
theorem toNat_fields (w : Word) : w.toNat = opcField w * 2 ^ 24 + rsvField w * 2 ^ 8 + argField w := by
  simp only [opcField, rsvField, argField]; omega

/-- A word with `rsv` zero is the word of its opcode and argument. -/
theorem eq_commandWord {w : Word} (h : rsvField w = 0) : w = commandWord (opcField w) (argField w) := by
  have ho : opcField w < 256 := Nat.div_lt_of_lt_mul w.isLt
  apply BitVec.eq_of_toNat_eq
  rw [toNat_commandWord ho (argField_lt w), toNat_fields w, h, Nat.zero_mul, Nat.add_zero]

/-- The variants PREPARE decodes, and the one it refuses (R87). -/
theorem decodePrepare_cases {arg : Nat} {s m : Word} {i : Instr} (h : decodePrepare arg s m = .ok i) :
    (arg = 0 ∧ i = .preparePlain s m) ∨ (arg = 1 ∧ i = .prepareMod s m) ∨ (arg = 2 ∧ i = .prepareUtil s m) := by
  unfold decodePrepare at h
  split at h
  · next ha => exact .inl ⟨ha, (Except.ok.inj h).symm⟩
  · split at h
    · next ha => exact .inr (.inl ⟨ha, (Except.ok.inj h).symm⟩)
    · split at h
      · next ha => exact .inr (.inr ⟨ha, (Except.ok.inj h).symm⟩)
      · split at h <;> cases h

/-- The banks RDMEM decodes. -/
theorem decodeRdmem_cases {arg : Nat} {a : Word} {i : Instr} (h : decodeRdmem arg a = .ok i) :
    ∃ ch : Chan, arg = ch.num ∧ i = .rdmem ch a := by
  unfold decodeRdmem at h
  split at h
  · next ha => exact ⟨.left, ha, (Except.ok.inj h).symm⟩
  · split at h
    · next ha => exact ⟨.right, ha, (Except.ok.inj h).symm⟩
    · cases h

/-- Everything the decoder accepts: `rsv` zero, and per opcode the argument and the command (R86). -/
theorem decode_cases {c : Command} {i : Instr} (h : decode c = .ok i) :
    rsvField c.word = 0 ∧
    ((opcField c.word = 0 ∧ argField c.word = 0 ∧ i = .nop) ∨
     (opcField c.word = 1 ∧ decodePrepare (argField c.word) c.op0 c.op1 = .ok i) ∨
     (opcField c.word = 2 ∧ argField c.word = 0 ∧ i = .process c.op0 c.op1) ∨
     (opcField c.word = 3 ∧ i = .wrreg (argField c.word) c.op0) ∨
     (opcField c.word = 4 ∧ i = .rdreg (argField c.word)) ∨
     (opcField c.word = 5 ∧ decodeRdmem (argField c.word) c.op0 = .ok i)) := by
  unfold decode at h
  dsimp only at h
  split at h
  · cases h
  · split at h
    · cases h
    · next hr =>
      refine ⟨not_not.mp hr, ?_⟩
      split at h
      · next ho =>
        split at h
        · next ha => exact .inl ⟨ho, ha, (Except.ok.inj h).symm⟩
        · cases h
      · next ho => exact .inr (.inl ⟨ho, h⟩)
      · next ho =>
        split at h
        · next ha => exact .inr (.inr (.inl ⟨ho, ha, (Except.ok.inj h).symm⟩))
        · cases h
      · next ho => exact .inr (.inr (.inr (.inl ⟨ho, (Except.ok.inj h).symm⟩)))
      · next ho => exact .inr (.inr (.inr (.inr (.inl ⟨ho, (Except.ok.inj h).symm⟩))))
      · next ho => exact .inr (.inr (.inr (.inr (.inr ⟨ho, h⟩))))
      · cases h

section CommandWord

variable {arg : Nat} (a b : Word)

/-- The decoder on the word of a known opcode and argument. -/
theorem decode_commandWord_nop : decode ⟨commandWord 0 0, a, b⟩ = .ok .nop := by
  simp [decode, opcField_commandWord (opc := 0) (arg := 0), rsvField_commandWord (opc := 0) (arg := 0),
    argField_commandWord (opc := 0) (arg := 0)]

theorem decode_commandWord_prepare (ha : arg < 256) :
    decode ⟨commandWord 1 arg, a, b⟩ = decodePrepare arg a b := by
  simp [decode, opcField_commandWord (opc := 1) (by omega) ha, rsvField_commandWord (opc := 1) (by omega) ha,
    argField_commandWord (opc := 1) (by omega) ha]

theorem decode_commandWord_process : decode ⟨commandWord 2 0, a, b⟩ = .ok (.process a b) := by
  simp [decode, opcField_commandWord (opc := 2) (arg := 0), rsvField_commandWord (opc := 2) (arg := 0),
    argField_commandWord (opc := 2) (arg := 0)]

theorem decode_commandWord_wrreg (ha : arg < 256) : decode ⟨commandWord 3 arg, a, b⟩ = .ok (.wrreg arg a) := by
  simp [decode, opcField_commandWord (opc := 3) (by omega) ha, rsvField_commandWord (opc := 3) (by omega) ha,
    argField_commandWord (opc := 3) (by omega) ha]

theorem decode_commandWord_rdreg (ha : arg < 256) : decode ⟨commandWord 4 arg, a, b⟩ = .ok (.rdreg arg) := by
  simp [decode, opcField_commandWord (opc := 4) (by omega) ha, rsvField_commandWord (opc := 4) (by omega) ha,
    argField_commandWord (opc := 4) (by omega) ha]

theorem decode_commandWord_rdmem (ha : arg < 256) : decode ⟨commandWord 5 arg, a, b⟩ = decodeRdmem arg a := by
  simp [decode, opcField_commandWord (opc := 5) (by omega) ha, rsvField_commandWord (opc := 5) (by omega) ha,
    argField_commandWord (opc := 5) (by omega) ha]

end CommandWord

/-- Four bytes of a word give the word back (R63). -/
theorem wordOfBytes_bytes (w : Word) :
    wordOfBytes (w.extractLsb' 0 8) (w.extractLsb' 8 8) (w.extractLsb' 16 8) (w.extractLsb' 24 8) = w := by
  unfold wordOfBytes
  apply BitVec.eq_of_getLsbD_eq
  intro i hi
  simp only [BitVec.getLsbD_append, BitVec.getLsbD_extractLsb']
  interval_cases i <;> simp

end Sys2Proof
end

