-- ==== Sys2Proof/Laws/Memory.lean ====
section
/-! SUPPORT. The laws of the delay memory: a read after a write, a read after a clear, and that every
operation keeps the canonical form and the bound of the bank. -/

namespace Sys2Proof.Machine

@[simp] theorem memory_read_nil (i : Nat) : Memory.read [] i = unlistedWord := rfl

theorem memory_read_cons (k : Nat) (w : Word) (m : Memory) (i : Nat) :
    Memory.read ((k, w) :: m) i = if i = k then w else Memory.read m i := rfl

theorem memory_wfFrom_cons (lo k : Nat) (w : Word) (m : Memory) :
    Memory.wfFrom lo ((k, w) :: m) = true ↔ lo ≤ k ∧ w ≠ unlistedWord ∧ Memory.wfFrom (k + 1) m = true := by
  simp [Memory.wfFrom, and_assoc]

theorem memory_wfFrom_mono {lo lo' : Nat} (h : lo' ≤ lo) {m : Memory} (hm : Memory.wfFrom lo m = true) :
    Memory.wfFrom lo' m = true := by
  cases m with
  | nil => rfl
  | cons c m =>
    obtain ⟨k, w⟩ := c
    rw [memory_wfFrom_cons] at hm ⊢
    exact ⟨le_trans h hm.1, hm.2⟩

/-- Below its first index a canonical list has nothing listed. -/
theorem memory_read_below {lo : Nat} {m : Memory} (hm : Memory.wfFrom lo m = true) {i : Nat} (hi : i < lo) :
    Memory.read m i = unlistedWord := by
  induction m generalizing lo with
  | nil => rfl
  | cons c m ih =>
    obtain ⟨k, w⟩ := c
    rw [memory_wfFrom_cons] at hm
    rw [memory_read_cons, if_neg (by omega)]
    exact ih hm.2.2 (by omega)

theorem memory_push_read (i : Nat) (v : Word) (m : Memory) (j : Nat) (hm : Memory.read m i = unlistedWord ∨ v ≠ unlistedWord) :
    Memory.read (Memory.push i v m) j = if j = i then v else Memory.read m j := by
  unfold Memory.push
  split
  · next h =>
    split
    · next hj => subst hj; rcases hm with hm | hm
                 · rw [hm, h]
                 · exact absurd h hm
    · rfl
  · rfl

theorem memory_push_wf {lo i : Nat} (v : Word) {m : Memory} (hi : lo ≤ i) (hm : Memory.wfFrom (i + 1) m = true) :
    Memory.wfFrom lo (Memory.push i v m) = true := by
  unfold Memory.push
  split
  · exact memory_wfFrom_mono (by omega) hm
  · next h => rw [memory_wfFrom_cons]; exact ⟨hi, h, hm⟩

/-- A write keeps the canonical form from any bound. -/
theorem memory_write_wfFrom {lo : Nat} {m : Memory} (hm : Memory.wfFrom lo m = true) {i : Nat} (hi : lo ≤ i) (v : Word) :
    Memory.wfFrom lo (Memory.write m i v) = true := by
  induction m generalizing lo with
  | nil => exact memory_push_wf v hi rfl
  | cons c m ih =>
    obtain ⟨k, w⟩ := c
    have hc := (memory_wfFrom_cons lo k w m).mp hm
    unfold Memory.write
    split
    · next h => exact memory_push_wf v hi ((memory_wfFrom_cons _ _ _ _).mpr ⟨h, hc.2⟩)
    · split
      · next h => subst h; exact memory_push_wf v hi hc.2.2
      · next h1 h2 => rw [memory_wfFrom_cons]; exact ⟨hc.1, hc.2.1, ih hc.2.2 (by omega)⟩

/-- A write keeps the canonical form. -/
theorem memory_write_wf {m : Memory} (hm : Memory.wf m = true) (i : Nat) (v : Word) :
    Memory.wf (Memory.write m i v) = true := memory_write_wfFrom hm (Nat.zero_le i) v

theorem memory_read_write_from {lo : Nat} {m : Memory} (hm : Memory.wfFrom lo m = true) (i : Nat) (v : Word) (j : Nat) :
    Memory.read (Memory.write m i v) j = if j = i then v else Memory.read m j := by
  induction m generalizing lo with
  | nil => exact memory_push_read i v [] j (.inl rfl)
  | cons c m ih =>
    obtain ⟨k, w⟩ := c
    have hc := (memory_wfFrom_cons lo k w m).mp hm
    unfold Memory.write
    split
    · next h =>
      exact memory_push_read i v _ j (.inl (memory_read_below (lo := k) ((memory_wfFrom_cons _ _ _ _).mpr ⟨le_rfl, hc.2⟩) h))
    · split
      · next h =>
        subst h
        rw [memory_push_read i v m j (.inl (memory_read_below hc.2.2 (by omega))), memory_read_cons]
        split <;> rfl
      · next h1 h2 =>
        rw [memory_read_cons, memory_read_cons, ih hc.2.2]
        by_cases hj : j = i
        · rw [if_pos hj, if_neg (by omega), if_pos hj]
        · rw [if_neg hj, if_neg hj]

/-- A read after a write: the word written at its index, the old word elsewhere. -/
theorem memory_read_write {m : Memory} (hm : Memory.wf m = true) (i : Nat) (v : Word) (j : Nat) :
    Memory.read (Memory.write m i v) j = if j = i then v else Memory.read m j := memory_read_write_from hm i v j

theorem memory_push_within {depth i : Nat} (v : Word) {m : Memory} (hi : i < depth) (hm : Memory.within depth m = true) :
    Memory.within depth (Memory.push i v m) = true := by
  unfold Memory.push
  split
  · exact hm
  · simp only [Memory.within, List.all_cons, Bool.and_eq_true, decide_eq_true_eq]; exact ⟨hi, hm⟩

/-- A write inside the bank lists only words inside the bank. -/
theorem memory_write_within {depth i : Nat} (v : Word) {m : Memory} (hi : i < depth) (hm : Memory.within depth m = true) :
    Memory.within depth (Memory.write m i v) = true := by
  induction m with
  | nil => exact memory_push_within v hi hm
  | cons c m ih =>
    obtain ⟨k, w⟩ := c
    have hc : k < depth ∧ Memory.within depth m = true := by
      simpa only [Memory.within, List.all_cons, Bool.and_eq_true, decide_eq_true_eq] using hm
    unfold Memory.write
    split
    · exact memory_push_within v hi hm
    · split
      · exact memory_push_within v hi hc.2
      · simp only [Memory.within, List.all_cons, Bool.and_eq_true, decide_eq_true_eq]; exact ⟨hc.1, ih hc.2⟩

/-- A read after a clear: +0 below the bound, the old word from it on. -/
theorem memory_read_clear (n : Nat) (m : Memory) (i : Nat) :
    Memory.read (Memory.clear n m) i = if i < n then unlistedWord else Memory.read m i := by
  induction m with
  | nil => simp [Memory.clear]
  | cons c m ih =>
    obtain ⟨k, w⟩ := c
    unfold Memory.clear at ih ⊢
    rw [List.filter_cons, memory_read_cons]
    by_cases hk : n ≤ k
    · simp only [hk, decide_true, if_true, memory_read_cons, ih]
      by_cases hi : i < n
      · rw [if_neg (by omega), if_pos hi, if_pos hi]
      · simp only [hi, if_false]
    · simp only [hk, decide_false, Bool.false_eq_true, if_false, ih]
      by_cases hi : i < n
      · rw [if_pos hi, if_pos hi]
      · rw [if_neg hi, if_neg hi, if_neg (by omega)]

theorem memory_clear_wfFrom {lo : Nat} (n : Nat) {m : Memory} (hm : Memory.wfFrom lo m = true) :
    Memory.wfFrom lo (Memory.clear n m) = true := by
  induction m generalizing lo with
  | nil => rfl
  | cons c m ih =>
    obtain ⟨k, w⟩ := c
    have hc := (memory_wfFrom_cons lo k w m).mp hm
    unfold Memory.clear at ih ⊢
    rw [List.filter_cons]
    split
    · rw [memory_wfFrom_cons]; exact ⟨hc.1, hc.2.1, ih hc.2.2⟩
    · exact memory_wfFrom_mono (by omega) (ih hc.2.2)

/-- A clear keeps the canonical form. -/
theorem memory_clear_wf (n : Nat) {m : Memory} (hm : Memory.wf m = true) : Memory.wf (Memory.clear n m) = true :=
  memory_clear_wfFrom n hm

/-- A clear lists nothing new. -/
theorem memory_clear_within {depth : Nat} (n : Nat) {m : Memory} (hm : Memory.within depth m = true) :
    Memory.within depth (Memory.clear n m) = true := by
  simp only [Memory.within, Memory.clear, List.all_eq_true, List.mem_filter] at hm ⊢
  exact fun c hc => hm c hc.1

/-- The form is canonical: banks that read alike are equal lists. -/
theorem memory_ext_from {lo : Nat} {m m' : Memory} (hm : Memory.wfFrom lo m = true) (hm' : Memory.wfFrom lo m' = true)
    (h : ∀ i, Memory.read m i = Memory.read m' i) : m = m' := by
  induction m generalizing lo m' with
  | nil =>
    cases m' with
    | nil => rfl
    | cons c m' =>
      obtain ⟨k, w⟩ := c
      have hc := (memory_wfFrom_cons _ _ _ _).mp hm'
      have := h k
      rw [memory_read_cons, if_pos rfl] at this
      exact absurd this.symm hc.2.1
  | cons c m ih =>
    obtain ⟨k, w⟩ := c
    have hc := (memory_wfFrom_cons _ _ _ _).mp hm
    cases m' with
    | nil =>
      have := h k
      rw [memory_read_cons, if_pos rfl] at this
      exact absurd this hc.2.1
    | cons c' m' =>
      obtain ⟨k', w'⟩ := c'
      have hc' := (memory_wfFrom_cons _ _ _ _).mp hm'
      have hk : k = k' := by
        rcases Nat.lt_trichotomy k k' with hlt | heq | hgt
        · have := h k
          rw [memory_read_cons, if_pos rfl, memory_read_below (lo := k') ((memory_wfFrom_cons _ _ _ _).mpr ⟨le_rfl, hc'.2⟩) hlt] at this
          exact absurd this hc.2.1
        · exact heq
        · have := h k'
          rw [memory_read_cons k' w' m' k', if_pos rfl,
            memory_read_below (lo := k) ((memory_wfFrom_cons _ _ _ _).mpr ⟨le_rfl, hc.2⟩) hgt] at this
          exact absurd this.symm hc'.2.1
      subst hk
      have hw : w = w' := by
        have := h k
        rwa [memory_read_cons, if_pos rfl, memory_read_cons, if_pos rfl] at this
      subst hw
      have : m = m' := by
        apply ih hc.2.2 hc'.2.2
        intro i
        rcases Nat.lt_or_ge i (k + 1) with hi | hi
        · rw [memory_read_below hc.2.2 hi, memory_read_below hc'.2.2 hi]
        · have := h i
          rwa [memory_read_cons, if_neg (by omega), memory_read_cons, if_neg (by omega)] at this
      rw [this]

theorem memory_ext {m m' : Memory} (hm : Memory.wf m = true) (hm' : Memory.wf m' = true)
    (h : ∀ i, Memory.read m i = Memory.read m' i) : m = m' := memory_ext_from hm hm' h

end Sys2Proof.Machine
end

