-- ==== Sys2Proof/Laws/State.lean ====
section
/-! SUPPORT. One lemma per field per update of State and of Channel, true by rfl, so that no proof unfolds an
update. -/

namespace Sys2Proof.Machine

/-! raiseFault -/

@[simp] theorem raiseFault_aw (f : CmdFault) (s : State) : (raiseFault f s).aw = s.aw := rfl
@[simp] theorem raiseFault_prepared (f : CmdFault) (s : State) : (raiseFault f s).prepared = s.prepared := rfl
@[simp] theorem raiseFault_variant (f : CmdFault) (s : State) : (raiseFault f s).variant = s.variant := rfl
@[simp] theorem raiseFault_err (f : CmdFault) (s : State) : (raiseFault f s).err = s.err ||| f.mask := rfl
@[simp] theorem raiseFault_len (f : CmdFault) (s : State) : (raiseFault f s).len = s.len := rfl
@[simp] theorem raiseFault_sr (f : CmdFault) (s : State) : (raiseFault f s).sr = s.sr := rfl
@[simp] theorem raiseFault_maxdly (f : CmdFault) (s : State) : (raiseFault f s).maxdly = s.maxdly := rfl
@[simp] theorem raiseFault_left (f : CmdFault) (s : State) : (raiseFault f s).left = s.left := rfl
@[simp] theorem raiseFault_right (f : CmdFault) (s : State) : (raiseFault f s).right = s.right := rfl
@[simp] theorem raiseFault_phase (f : CmdFault) (s : State) : (raiseFault f s).phase = s.phase := rfl
@[simp] theorem raiseFault_smTime (f : CmdFault) (s : State) : (raiseFault f s).smTime = s.smTime := rfl
@[simp] theorem raiseFault_smGain (f : CmdFault) (s : State) : (raiseFault f s).smGain = s.smGain := rfl
@[simp] theorem raiseFault_par (f : CmdFault) (s : State) : (raiseFault f s).par = s.par := rfl
@[simp] theorem raiseFault_rsp (f : CmdFault) (s : State) : (raiseFault f s).rsp = s.rsp := rfl
@[simp] theorem raiseFault_pending (f : CmdFault) (s : State) : (raiseFault f s).pending = s.pending := rfl

/-! respond -/

@[simp] theorem respond_aw (c : BitVec 4) (d0 d1 : Word) (s : State) : (respond c d0 d1 s).aw = s.aw := rfl
@[simp] theorem respond_prepared (c : BitVec 4) (d0 d1 : Word) (s : State) : (respond c d0 d1 s).prepared = s.prepared := rfl
@[simp] theorem respond_variant (c : BitVec 4) (d0 d1 : Word) (s : State) : (respond c d0 d1 s).variant = s.variant := rfl
@[simp] theorem respond_err (c : BitVec 4) (d0 d1 : Word) (s : State) : (respond c d0 d1 s).err = s.err := rfl
@[simp] theorem respond_len (c : BitVec 4) (d0 d1 : Word) (s : State) : (respond c d0 d1 s).len = s.len := rfl
@[simp] theorem respond_sr (c : BitVec 4) (d0 d1 : Word) (s : State) : (respond c d0 d1 s).sr = s.sr := rfl
@[simp] theorem respond_maxdly (c : BitVec 4) (d0 d1 : Word) (s : State) : (respond c d0 d1 s).maxdly = s.maxdly := rfl
@[simp] theorem respond_left (c : BitVec 4) (d0 d1 : Word) (s : State) : (respond c d0 d1 s).left = s.left := rfl
@[simp] theorem respond_right (c : BitVec 4) (d0 d1 : Word) (s : State) : (respond c d0 d1 s).right = s.right := rfl
@[simp] theorem respond_phase (c : BitVec 4) (d0 d1 : Word) (s : State) : (respond c d0 d1 s).phase = s.phase := rfl
@[simp] theorem respond_smTime (c : BitVec 4) (d0 d1 : Word) (s : State) : (respond c d0 d1 s).smTime = s.smTime := rfl
@[simp] theorem respond_smGain (c : BitVec 4) (d0 d1 : Word) (s : State) : (respond c d0 d1 s).smGain = s.smGain := rfl
@[simp] theorem respond_par (c : BitVec 4) (d0 d1 : Word) (s : State) : (respond c d0 d1 s).par = s.par := rfl
@[simp] theorem respond_rsp (c : BitVec 4) (d0 d1 : Word) (s : State) : (respond c d0 d1 s).rsp = some ⟨c, d0, d1⟩ := rfl
@[simp] theorem respond_pending (c : BitVec 4) (d0 d1 : Word) (s : State) : (respond c d0 d1 s).pending = s.pending := rfl

/-! respondOk -/

@[simp] theorem respondOk_aw (d0 d1 : Word) (s : State) : (respondOk d0 d1 s).aw = s.aw := rfl
@[simp] theorem respondOk_prepared (d0 d1 : Word) (s : State) : (respondOk d0 d1 s).prepared = s.prepared := rfl
@[simp] theorem respondOk_variant (d0 d1 : Word) (s : State) : (respondOk d0 d1 s).variant = s.variant := rfl
@[simp] theorem respondOk_err (d0 d1 : Word) (s : State) : (respondOk d0 d1 s).err = s.err := rfl
@[simp] theorem respondOk_len (d0 d1 : Word) (s : State) : (respondOk d0 d1 s).len = s.len := rfl
@[simp] theorem respondOk_sr (d0 d1 : Word) (s : State) : (respondOk d0 d1 s).sr = s.sr := rfl
@[simp] theorem respondOk_maxdly (d0 d1 : Word) (s : State) : (respondOk d0 d1 s).maxdly = s.maxdly := rfl
@[simp] theorem respondOk_left (d0 d1 : Word) (s : State) : (respondOk d0 d1 s).left = s.left := rfl
@[simp] theorem respondOk_right (d0 d1 : Word) (s : State) : (respondOk d0 d1 s).right = s.right := rfl
@[simp] theorem respondOk_phase (d0 d1 : Word) (s : State) : (respondOk d0 d1 s).phase = s.phase := rfl
@[simp] theorem respondOk_smTime (d0 d1 : Word) (s : State) : (respondOk d0 d1 s).smTime = s.smTime := rfl
@[simp] theorem respondOk_smGain (d0 d1 : Word) (s : State) : (respondOk d0 d1 s).smGain = s.smGain := rfl
@[simp] theorem respondOk_par (d0 d1 : Word) (s : State) : (respondOk d0 d1 s).par = s.par := rfl
@[simp] theorem respondOk_rsp (d0 d1 : Word) (s : State) : (respondOk d0 d1 s).rsp = some ⟨0, d0, d1⟩ := rfl
@[simp] theorem respondOk_pending (d0 d1 : Word) (s : State) : (respondOk d0 d1 s).pending = s.pending := rfl

/-! reject -/

@[simp] theorem reject_aw (f : CmdFault) (s : State) : (reject f s).aw = s.aw := rfl
@[simp] theorem reject_prepared (f : CmdFault) (s : State) : (reject f s).prepared = s.prepared := rfl
@[simp] theorem reject_variant (f : CmdFault) (s : State) : (reject f s).variant = s.variant := rfl
@[simp] theorem reject_err (f : CmdFault) (s : State) : (reject f s).err = s.err ||| f.mask := rfl
@[simp] theorem reject_len (f : CmdFault) (s : State) : (reject f s).len = s.len := rfl
@[simp] theorem reject_sr (f : CmdFault) (s : State) : (reject f s).sr = s.sr := rfl
@[simp] theorem reject_maxdly (f : CmdFault) (s : State) : (reject f s).maxdly = s.maxdly := rfl
@[simp] theorem reject_left (f : CmdFault) (s : State) : (reject f s).left = s.left := rfl
@[simp] theorem reject_right (f : CmdFault) (s : State) : (reject f s).right = s.right := rfl
@[simp] theorem reject_phase (f : CmdFault) (s : State) : (reject f s).phase = s.phase := rfl
@[simp] theorem reject_smTime (f : CmdFault) (s : State) : (reject f s).smTime = s.smTime := rfl
@[simp] theorem reject_smGain (f : CmdFault) (s : State) : (reject f s).smGain = s.smGain := rfl
@[simp] theorem reject_par (f : CmdFault) (s : State) : (reject f s).par = s.par := rfl
@[simp] theorem reject_rsp (f : CmdFault) (s : State) : (reject f s).rsp = some ⟨f.code, 0, 0⟩ := rfl
@[simp] theorem reject_pending (f : CmdFault) (s : State) : (reject f s).pending = s.pending := rfl

/-! idle -/

@[simp] theorem idle_aw (s : State) : (idle s).aw = s.aw := rfl
@[simp] theorem idle_prepared (s : State) : (idle s).prepared = s.prepared := rfl
@[simp] theorem idle_variant (s : State) : (idle s).variant = s.variant := rfl
@[simp] theorem idle_err (s : State) : (idle s).err = s.err := rfl
@[simp] theorem idle_len (s : State) : (idle s).len = s.len := rfl
@[simp] theorem idle_sr (s : State) : (idle s).sr = s.sr := rfl
@[simp] theorem idle_maxdly (s : State) : (idle s).maxdly = s.maxdly := rfl
@[simp] theorem idle_left (s : State) : (idle s).left = s.left := rfl
@[simp] theorem idle_right (s : State) : (idle s).right = s.right := rfl
@[simp] theorem idle_phase (s : State) : (idle s).phase = s.phase := rfl
@[simp] theorem idle_smTime (s : State) : (idle s).smTime = s.smTime := rfl
@[simp] theorem idle_smGain (s : State) : (idle s).smGain = s.smGain := rfl
@[simp] theorem idle_par (s : State) : (idle s).par = s.par := rfl
@[simp] theorem idle_rsp (s : State) : (idle s).rsp = none := rfl
@[simp] theorem idle_pending (s : State) : (idle s).pending = s.pending := rfl

/-! resetEvent -/

@[simp] theorem resetEvent_aw (s : State) : (resetEvent s).aw = s.aw := rfl
@[simp] theorem resetEvent_prepared (s : State) : (resetEvent s).prepared = false := rfl
@[simp] theorem resetEvent_variant (s : State) : (resetEvent s).variant = .plain := rfl
@[simp] theorem resetEvent_err (s : State) : (resetEvent s).err = 0 := rfl
@[simp] theorem resetEvent_len (s : State) : (resetEvent s).len = 0 := rfl
@[simp] theorem resetEvent_sr (s : State) : (resetEvent s).sr = 0 := rfl
@[simp] theorem resetEvent_maxdly (s : State) : (resetEvent s).maxdly = 0 := rfl
@[simp] theorem resetEvent_left (s : State) : (resetEvent s).left = ⟨0, 0, s.left.mem, s.left.draws⟩ := rfl
@[simp] theorem resetEvent_right (s : State) : (resetEvent s).right = ⟨0, 0, s.right.mem, s.right.draws⟩ := rfl
@[simp] theorem resetEvent_phase (s : State) : (resetEvent s).phase = 0 := rfl
@[simp] theorem resetEvent_smTime (s : State) : (resetEvent s).smTime = 0 := rfl
@[simp] theorem resetEvent_smGain (s : State) : (resetEvent s).smGain = 0 := rfl
@[simp] theorem resetEvent_par (s : State) : (resetEvent s).par = Params.reset := rfl
@[simp] theorem resetEvent_rsp (s : State) : (resetEvent s).rsp = none := rfl
@[simp] theorem resetEvent_pending (s : State) : (resetEvent s).pending = s.pending := rfl

/-! prepareState -/

@[simp] theorem prepareState_aw (v : Variant) (r m : Word) (n : Nat) (s : State) : (prepareState v r m n s).aw = s.aw := rfl
@[simp] theorem prepareState_prepared (v : Variant) (r m : Word) (n : Nat) (s : State) : (prepareState v r m n s).prepared = true := rfl
@[simp] theorem prepareState_variant (v : Variant) (r m : Word) (n : Nat) (s : State) : (prepareState v r m n s).variant = v := rfl
@[simp] theorem prepareState_err (v : Variant) (r m : Word) (n : Nat) (s : State) : (prepareState v r m n s).err = s.err := rfl
@[simp] theorem prepareState_len (v : Variant) (r m : Word) (n : Nat) (s : State) : (prepareState v r m n s).len = n := rfl
@[simp] theorem prepareState_sr (v : Variant) (r m : Word) (n : Nat) (s : State) : (prepareState v r m n s).sr = r := rfl
@[simp] theorem prepareState_maxdly (v : Variant) (r m : Word) (n : Nat) (s : State) : (prepareState v r m n s).maxdly = m := rfl
@[simp] theorem prepareState_left (v : Variant) (r m : Word) (n : Nat) (s : State) : (prepareState v r m n s).left = prepareChannel n s.left := rfl
@[simp] theorem prepareState_right (v : Variant) (r m : Word) (n : Nat) (s : State) : (prepareState v r m n s).right = prepareChannel n s.right := rfl
@[simp] theorem prepareState_phase (v : Variant) (r m : Word) (n : Nat) (s : State) : (prepareState v r m n s).phase = plusZero := rfl
@[simp] theorem prepareState_smTime (v : Variant) (r m : Word) (n : Nat) (s : State) : (prepareState v r m n s).smTime = s.par.delaytime := rfl
@[simp] theorem prepareState_smGain (v : Variant) (r m : Word) (n : Nat) (s : State) : (prepareState v r m n s).smGain = s.par.gain := rfl
@[simp] theorem prepareState_par (v : Variant) (r m : Word) (n : Nat) (s : State) : (prepareState v r m n s).par = s.par := rfl
@[simp] theorem prepareState_rsp (v : Variant) (r m : Word) (n : Nat) (s : State) : (prepareState v r m n s).rsp = s.rsp := rfl
@[simp] theorem prepareState_pending (v : Variant) (r m : Word) (n : Nat) (s : State) : (prepareState v r m n s).pending = s.pending := rfl

/-! illegalCommand -/

@[simp] theorem illegalCommand_aw (s : State) : (illegalCommand s).aw = s.aw := rfl
@[simp] theorem illegalCommand_prepared (s : State) : (illegalCommand s).prepared = s.prepared := rfl
@[simp] theorem illegalCommand_variant (s : State) : (illegalCommand s).variant = s.variant := rfl
@[simp] theorem illegalCommand_err (s : State) : (illegalCommand s).err = s.err ||| 1 := rfl
@[simp] theorem illegalCommand_len (s : State) : (illegalCommand s).len = s.len := rfl
@[simp] theorem illegalCommand_sr (s : State) : (illegalCommand s).sr = s.sr := rfl
@[simp] theorem illegalCommand_maxdly (s : State) : (illegalCommand s).maxdly = s.maxdly := rfl
@[simp] theorem illegalCommand_left (s : State) : (illegalCommand s).left = s.left := rfl
@[simp] theorem illegalCommand_right (s : State) : (illegalCommand s).right = s.right := rfl
@[simp] theorem illegalCommand_phase (s : State) : (illegalCommand s).phase = s.phase := rfl
@[simp] theorem illegalCommand_smTime (s : State) : (illegalCommand s).smTime = s.smTime := rfl
@[simp] theorem illegalCommand_smGain (s : State) : (illegalCommand s).smGain = s.smGain := rfl
@[simp] theorem illegalCommand_par (s : State) : (illegalCommand s).par = s.par := rfl
@[simp] theorem illegalCommand_rsp (s : State) : (illegalCommand s).rsp = some ⟨1, 0, 0⟩ := rfl
@[simp] theorem illegalCommand_pending (s : State) : (illegalCommand s).pending = s.pending := rfl

/-! prepareChannel -/

@[simp] theorem prepareChannel_wh (n : Nat) (c : Channel) : (prepareChannel n c).wh = 0 := rfl
@[simp] theorem prepareChannel_fb (n : Nat) (c : Channel) : (prepareChannel n c).fb = plusZero := rfl
@[simp] theorem prepareChannel_mem (n : Nat) (c : Channel) : (prepareChannel n c).mem = Memory.clear n c.mem := rfl
@[simp] theorem prepareChannel_draws (n : Nat) (c : Channel) : (prepareChannel n c).draws = c.draws := rfl

/-! dlAdvance -/

@[simp] theorem dlAdvance_wh (n : Nat) (c : Channel) : (dlAdvance n c).wh = nextIndex n c.wh := rfl
@[simp] theorem dlAdvance_fb (n : Nat) (c : Channel) : (dlAdvance n c).fb = c.fb := rfl
@[simp] theorem dlAdvance_mem (n : Nat) (c : Channel) : (dlAdvance n c).mem = c.mem := rfl
@[simp] theorem dlAdvance_draws (n : Nat) (c : Channel) : (dlAdvance n c).draws = c.draws := rfl

/-! dlClear -/

@[simp] theorem dlClear_wh (n : Nat) (c : Channel) : (dlClear n c).wh = c.wh := rfl
@[simp] theorem dlClear_fb (n : Nat) (c : Channel) : (dlClear n c).fb = c.fb := rfl
@[simp] theorem dlClear_mem (n : Nat) (c : Channel) : (dlClear n c).mem = Memory.clear n c.mem := rfl
@[simp] theorem dlClear_draws (n : Nat) (c : Channel) : (dlClear n c).draws = c.draws := rfl

@[simp] theorem chan_left (s : State) : s.chan .left = s.left := rfl
@[simp] theorem chan_right (s : State) : s.chan .right = s.right := rfl

end Sys2Proof.Machine
end

