-- ==== Sys2Proof/Laws/Ops.lean ====
section
/-! SUPPORT. For each shared operation, once, everything it can do: what it answers and under which
conditions. Proofs about commands cite these and do not unfold the operations. -/

namespace Sys2Proof.Machine

/-! ### Memory accesses -/

theorem memRead_ok {aw : Nat} {m : Memory} {i : Nat} (h : i < depthWords aw) :
    memRead aw m i = .ok (Memory.read m i) := if_pos h

theorem memRead_cases {aw : Nat} {m : Memory} {i : Nat} {w : Word} (h : memRead aw m i = .ok w) :
    i < depthWords aw ∧ w = Memory.read m i := by
  unfold memRead at h
  split at h
  · next hi => exact ⟨hi, (Except.ok.inj h).symm⟩
  · cases h

theorem memWrite_ok {aw : Nat} {m : Memory} {i : Nat} {v : Word} (h : i < depthWords aw) :
    memWrite aw m i v = .ok (Memory.write m i v) := if_pos h

theorem dlWrite_ok {aw : Nat} {v : Word} {c : Channel} (h : c.wh < depthWords aw) :
    dlWrite aw v c = .ok { c with mem := Memory.write c.mem c.wh v } := by
  unfold dlWrite; rw [memWrite_ok h]

theorem dlWrite_cases {aw : Nat} {v : Word} {c c' : Channel} (h : dlWrite aw v c = .ok c') :
    c.wh < depthWords aw ∧ c' = { c with mem := Memory.write c.mem c.wh v } := by
  by_cases hw : c.wh < depthWords aw
  · rw [dlWrite_ok hw] at h; exact ⟨hw, (Except.ok.inj h).symm⟩
  · unfold dlWrite memWrite at h; rw [if_neg hw] at h; cases h

theorem dlReadI_fail {ch : Chan} {aw len : Nat} {d : Word} {c : Channel} (h : delayInRange len d = false) :
    dlReadI ch aw len d c = .ok (Config.freeDelayed ch.num c.draws, true) := by
  unfold dlReadI; rw [h]; rfl

theorem dlReadI_ok {ch : Chan} {aw len : Nat} {d : Word} {c : Channel} (h : delayInRange len d = true)
    (h0 : (readPoint len c.wh d).i0 < depthWords aw) (h1 : (readPoint len c.wh d).i1 < depthWords aw) :
    dlReadI ch aw len d c = .ok (interp (Memory.read c.mem (readPoint len c.wh d).i0)
        (Memory.read c.mem (readPoint len c.wh d).i1) (readPoint len c.wh d).frac, false) := by
  unfold dlReadI
  rw [if_pos h]
  generalize readPoint len c.wh d = p at h0 h1 ⊢
  dsimp only
  rw [memRead_ok h0, memRead_ok h1]

/-- DL_READI: a failed range check gives the channel's next free value; a passed one the interpolation of two
words the bank has (R102, R104). -/
theorem dlReadI_cases {ch : Chan} {aw len : Nat} {d : Word} {c : Channel} {y : Word} {failed : Bool}
    (h : dlReadI ch aw len d c = .ok (y, failed)) :
    (delayInRange len d = false ∧ failed = true ∧ y = Config.freeDelayed ch.num c.draws) ∨
    (delayInRange len d = true ∧ failed = false ∧
      (readPoint len c.wh d).i0 < depthWords aw ∧ (readPoint len c.wh d).i1 < depthWords aw ∧
      y = interp (Memory.read c.mem (readPoint len c.wh d).i0) (Memory.read c.mem (readPoint len c.wh d).i1)
        (readPoint len c.wh d).frac) := by
  by_cases hd : delayInRange len d = true
  · right
    unfold dlReadI at h
    rw [if_pos hd] at h
    generalize readPoint len c.wh d = p at h ⊢
    dsimp only at h
    cases h0 : memRead aw c.mem p.i0 with
    | error e => rw [h0] at h; cases h
    | ok x0 =>
      cases h1 : memRead aw c.mem p.i1 with
      | error e => rw [h0, h1] at h; cases h
      | ok x1 =>
        rw [h0, h1] at h
        have h := Except.ok.inj h
        obtain ⟨hi0, rfl⟩ := memRead_cases h0
        obtain ⟨hi1, rfl⟩ := memRead_cases h1
        exact ⟨hd, (congrArg Prod.snd h).symm, hi0, hi1, (congrArg Prod.fst h).symm⟩
  · left
    have hd := Bool.eq_false_iff.mpr hd
    rw [dlReadI_fail hd] at h
    have h := Except.ok.inj h
    exact ⟨hd, (congrArg Prod.snd h).symm, (congrArg Prod.fst h).symm⟩

/-- The steps of one channel: whatever the delayed sample is, the word written, the feedback, the head
(R164 to R168). -/
theorem channelStep_cases {ch : Chan} {aw len : Nat} {d fbk x : Word} {c : Channel} {r : ChannelStep}
    (h : channelStep ch aw len d fbk x c = .ok r) :
    c.wh < depthWords aw ∧
    dlReadI ch aw len d { c with mem := Memory.write c.mem c.wh (fadd x c.fb) } = .ok (r.delayed, r.failed) ∧
    r.chan = { wh := nextIndex len c.wh, fb := fmul r.delayed fbk, mem := Memory.write c.mem c.wh (fadd x c.fb),
               draws := if r.failed then c.draws + 1 else c.draws } := by
  unfold channelStep at h
  cases hw : dlWrite aw (fadd x c.fb) c with
  | error e => rw [hw] at h; cases h
  | ok c1 =>
    obtain ⟨hwh, rfl⟩ := dlWrite_cases hw
    rw [hw] at h
    dsimp only at h
    cases hr : dlReadI ch aw len d { c with mem := Memory.write c.mem c.wh (fadd x c.fb) } with
    | error e => rw [hr] at h; cases h
    | ok p =>
      obtain ⟨y, failed⟩ := p
      rw [hr] at h
      have h := Except.ok.inj h
      subst h
      exact ⟨hwh, rfl, rfl⟩

/-- When a channel's steps answer. -/
theorem channelStep_ok {ch : Chan} {aw len : Nat} {d fbk x : Word} {c : Channel} {y : Word} {failed : Bool}
    (hwh : c.wh < depthWords aw)
    (hr : dlReadI ch aw len d { c with mem := Memory.write c.mem c.wh (fadd x c.fb) } = .ok (y, failed)) :
    channelStep ch aw len d fbk x c = .ok
      { chan := { wh := nextIndex len c.wh, fb := fmul y fbk, mem := Memory.write c.mem c.wh (fadd x c.fb),
                  draws := if failed then c.draws + 1 else c.draws }
        delayed := y, failed := failed } := by
  unfold channelStep
  rw [dlWrite_ok hwh]
  dsimp only
  rw [hr]
  rfl

/-! ### Registers -/

/-- The parameter register an index names is the one of R50, and an index names one exactly when below 8. -/
theorem paramOfIdx_isSome (idx : Nat) : (paramOfIdx idx).isSome = decide (idx < 8) := by
  rcases Nat.lt_or_ge idx 8 with h | h
  · interval_cases idx <;> rfl
  · have h0 : paramOfIdx idx = none := by unfold paramOfIdx; split <;> first | rfl | omega
    rw [h0, decide_eq_false (by omega)]; rfl

/-- An index names a status register exactly when it is 0x10 to 0x1D. -/
theorem statusOfIdx_isSome (idx : Nat) : (statusOfIdx idx).isSome = decide (0x10 ≤ idx ∧ idx ≤ 0x1D) := by
  rcases Nat.lt_or_ge idx 0x1E with h | h
  · interval_cases idx <;> rfl
  · have h0 : statusOfIdx idx = none := by unfold statusOfIdx; split <;> first | rfl | omega
    rw [h0, decide_eq_false (by omega)]; rfl

theorem writeReg_cases {idx : Nat} {v : Word} {s s' : State} (h : writeReg idx v s = some s') :
    ∃ r, paramOfIdx idx = some r ∧ s' = { s with par := writeParam r v s.par } := by
  unfold writeReg at h
  split at h
  · next r hr => exact ⟨r, hr, (Option.some.inj h).symm⟩
  · cases h

theorem writeReg_none {idx : Nat} {v : Word} {s : State} (h : 8 ≤ idx) : writeReg idx v s = none := by
  have h0 := paramOfIdx_isSome idx
  rw [decide_eq_false (by omega)] at h0
  have h1 : paramOfIdx idx = none := Option.not_isSome_iff_eq_none.mp (by rw [h0]; decide)
  unfold writeReg
  rw [h1]

/-- A read of a parameter register after a write of one. -/
theorem readParam_writeParam (r r' : ParamReg) (v : Word) (p : Params) :
    readParam r' (writeParam r v p) = if r' = r then (if r = .mode then (Mode.ofWord v).word else v) else readParam r' p := by
  cases r <;> cases r' <;> rfl

/-- MODE keeps bit 0 (R38). -/
theorem mode_word_ofWord (v : Word) : (Mode.ofWord v).word = v &&& 1 := by
  unfold Mode.ofWord
  apply BitVec.eq_of_getLsbD_eq
  intro i hi
  rw [BitVec.getLsbD_and]
  rcases Nat.eq_zero_or_pos i with h | h
  · subst h; cases hb : v.getLsbD 0 <;> simp [Mode.word]
  · have h1 : (1 : Word).getLsbD i = false := by
      rw [show (1 : Word) = 1#32 from rfl, BitVec.getLsbD_one]; simp; omega
    rw [h1, Bool.and_false]
    split
    · exact h1
    · exact BitVec.getLsbD_zero

/-! ### PREPARE -/

/-- The length PREPARE finds, or the first of its checks that fails (R181, R183, R210). -/
theorem prepareLength_ok {aw n : Nat} {s m : Word} (h : prepareLength aw s m = .ok n) :
    finitePositive s = true ∧ finitePositive m = true ∧ flt (fmul s m) one = false ∧
      feq (fmul s m) plusInf = false ∧ n = ifloor (fmul s m) ∧ n ≤ depthWords aw := by
  unfold prepareLength at h
  dsimp only at h
  split at h
  · cases h
  · next h1 =>
    split at h
    · cases h
    · next h2 =>
      split at h
      · cases h
      · next h3 =>
        have h := Except.ok.inj h
        simp only [Bool.not_eq_true', Bool.and_eq_false_iff, not_or, Bool.not_eq_false] at h1
        simp only [Bool.or_eq_true, decide_eq_true_eq, not_or, not_lt] at h3
        exact ⟨h1.1, h1.2, by simpa using h2, by simpa using h3.1, h.symm, h ▸ h3.2⟩

/-- A failed PREPARE raises one of its two faults (R185). -/
theorem prepareLength_error {aw : Nat} {s m : Word} {f : CmdFault} (h : prepareLength aw s m = .error f) :
    f = .prepareRange ∨ f = .resourceExhaustion := by
  unfold prepareLength at h
  dsimp only at h
  split at h
  · exact .inl (Except.error.inj h).symm
  · split at h
    · exact .inl (Except.error.inj h).symm
    · split at h
      · exact .inr (Except.error.inj h).symm
      · cases h

/-- What PREPARE leaves: a success or one of its two faults. -/
theorem prepare_cases (v : Variant) (sr m : Word) (s : State) :
    (∃ n, prepareLength s.aw sr m = .ok n ∧
      prepare v sr m s = respondOk (BitVec.ofNat 32 n) 0 (prepareState v sr m n s)) ∨
    (∃ f, prepareLength s.aw sr m = .error f ∧ (f = .prepareRange ∨ f = .resourceExhaustion) ∧
      prepare v sr m s = reject f { s with prepared := false }) := by
  cases h : prepareLength s.aw sr m with
  | ok n => exact .inl ⟨n, rfl, by unfold prepare; rw [h]⟩
  | error f => exact .inr ⟨f, rfl, prepareLength_error h, by unfold prepare; rw [h]⟩

/-! ### Commands -/

/-- PROCESS: NotPrepared, or both channels' steps and `processFinish` (R160, R177). -/
theorem execProcess_cases {inL inR : Word} {s t : State} (h : execProcess inL inR s = .next t) :
    (s.prepared = false ∧ t = reject .notPrepared s) ∨
    (s.prepared = true ∧ ∃ l r,
      channelStep .left s.aw s.len (delaySamples (sharedSection s).tLeft s.sr) s.par.feedback inL s.left = .ok l ∧
      channelStep .right s.aw s.len (delaySamples (sharedSection s).tRight s.sr) s.par.feedback inR s.right = .ok r ∧
      t = processFinish (sharedSection s) l r inL inR s) := by
  unfold execProcess at h
  cases hp : s.prepared
  · rw [hp] at h
    exact .inl ⟨rfl, (Host.Outcome.next.inj h).symm⟩
  · rw [if_pos hp] at h
    dsimp only at h
    refine .inr ⟨rfl, ?_⟩
    generalize sharedSection s = sh at h ⊢
    cases hl : channelStep .left s.aw s.len (delaySamples sh.tLeft s.sr) s.par.feedback inL s.left with
    | error e => rw [hl] at h; cases h
    | ok l =>
      cases hr : channelStep .right s.aw s.len (delaySamples sh.tRight s.sr) s.par.feedback inR s.right with
      | error e => rw [hl, hr] at h; cases h
      | ok r =>
        rw [hl, hr] at h
        exact ⟨l, r, rfl, rfl, (Host.Outcome.next.inj h).symm⟩

/-- When PROCESS answers. -/
theorem execProcess_ok {inL inR : Word} {s : State} {l r : ChannelStep} (hp : s.prepared = true)
    (hl : channelStep .left s.aw s.len (delaySamples (sharedSection s).tLeft s.sr) s.par.feedback inL s.left = .ok l)
    (hr : channelStep .right s.aw s.len (delaySamples (sharedSection s).tRight s.sr) s.par.feedback inR s.right = .ok r) :
    execProcess inL inR s = .next (processFinish (sharedSection s) l r inL inR s) := by
  unfold execProcess
  rw [if_pos hp]
  dsimp only
  rw [hl, hr]

/-- RDMEM: its three answers, and the stop in a state with a length past the bank (R189). -/
theorem execRdmem_cases {ch : Chan} {i : Word} {s t : State} (h : execRdmem ch i s = .next t) :
    (s.prepared = false ∧ t = reject .notPrepared s) ∨
    (s.prepared = true ∧ s.len ≤ i.toNat ∧ t = reject .badAddr s) ∨
    (s.prepared = true ∧ i.toNat < s.len ∧ i.toNat < depthWords s.aw ∧
      t = respondOk (Memory.read (s.chan ch).mem i.toNat) 0 s) := by
  unfold execRdmem at h
  cases hp : s.prepared
  · rw [hp] at h; exact .inl ⟨rfl, (Host.Outcome.next.inj h).symm⟩
  · rw [hp] at h
    by_cases hl : s.len ≤ i.toNat
    · rw [if_neg (by decide), if_pos hl] at h
      exact .inr (.inl ⟨rfl, hl, (Host.Outcome.next.inj h).symm⟩)
    · rw [if_neg (by decide), if_neg hl] at h
      cases hm : memRead s.aw (s.chan ch).mem i.toNat with
      | error e => rw [hm] at h; cases h
      | ok w =>
        rw [hm] at h
        obtain ⟨hd, rfl⟩ := memRead_cases hm
        exact .inr (.inr ⟨rfl, by omega, hd, (Host.Outcome.next.inj h).symm⟩)

/-- WRREG: a parameter register written, or BadReg (R187). -/
theorem execWrreg_cases {idx : Nat} {v : Word} {s t : State} (h : execWrreg idx v s = .next t) :
    (∃ r, paramOfIdx idx = some r ∧ t = respondOk 0 0 { s with par := writeParam r v s.par }) ∨
    (8 ≤ idx ∧ t = reject .badReg s) := by
  unfold execWrreg at h
  cases hw : writeReg idx v s with
  | some s' =>
    rw [hw] at h
    obtain ⟨r, hr, rfl⟩ := writeReg_cases hw
    exact .inl ⟨r, hr, (Host.Outcome.next.inj h).symm⟩
  | none =>
    rw [hw] at h
    refine .inr ⟨?_, (Host.Outcome.next.inj h).symm⟩
    by_contra hc
    have h0 := paramOfIdx_isSome idx
    rw [decide_eq_true (by omega)] at h0
    obtain ⟨r, hr⟩ := Option.isSome_iff_exists.mp h0
    unfold writeReg at hw
    rw [hr] at hw
    cases hw

/-- RDREG: the register's word, or BadReg (R188). -/
theorem execRdreg_cases {idx : Nat} {s t : State} (h : execRdreg idx s = .next t) :
    (∃ w, readReg idx s = some w ∧ t = respondOk w 0 s) ∨ (readReg idx s = none ∧ t = reject .badReg s) := by
  unfold execRdreg at h
  cases hr : readReg idx s with
  | some w => rw [hr] at h; exact .inl ⟨w, rfl, (Host.Outcome.next.inj h).symm⟩
  | none => rw [hr] at h; exact .inr ⟨rfl, (Host.Outcome.next.inj h).symm⟩

/-! ### The end of PROCESS -/

section ProcessFinish

variable (sh : Shared) (l r : ChannelStep) (inL inR : Word) (s : State)

@[simp] theorem processFinish_aw : (processFinish sh l r inL inR s).aw = s.aw := by
  unfold processFinish; dsimp only; split <;> rfl

@[simp] theorem processFinish_prepared : (processFinish sh l r inL inR s).prepared = s.prepared := by
  unfold processFinish; dsimp only; split <;> rfl

@[simp] theorem processFinish_variant : (processFinish sh l r inL inR s).variant = s.variant := by
  unfold processFinish; dsimp only; split <;> rfl

@[simp] theorem processFinish_len : (processFinish sh l r inL inR s).len = s.len := by
  unfold processFinish; dsimp only; split <;> rfl

@[simp] theorem processFinish_sr : (processFinish sh l r inL inR s).sr = s.sr := by
  unfold processFinish; dsimp only; split <;> rfl

@[simp] theorem processFinish_maxdly : (processFinish sh l r inL inR s).maxdly = s.maxdly := by
  unfold processFinish; dsimp only; split <;> rfl

@[simp] theorem processFinish_par : (processFinish sh l r inL inR s).par = s.par := by
  unfold processFinish; dsimp only; split <;> rfl

@[simp] theorem processFinish_pending : (processFinish sh l r inL inR s).pending = s.pending := by
  unfold processFinish; dsimp only; split <;> rfl

@[simp] theorem processFinish_left : (processFinish sh l r inL inR s).left = l.chan := by
  unfold processFinish; dsimp only; split <;> rfl

@[simp] theorem processFinish_right : (processFinish sh l r inL inR s).right = r.chan := by
  unfold processFinish; dsimp only; split <;> rfl

@[simp] theorem processFinish_smTime : (processFinish sh l r inL inR s).smTime = sh.smTime := by
  unfold processFinish; dsimp only; split <;> rfl

@[simp] theorem processFinish_smGain : (processFinish sh l r inL inR s).smGain = sh.smGain := by
  unfold processFinish; dsimp only; split <;> rfl

@[simp] theorem processFinish_phase : (processFinish sh l r inL inR s).phase = sh.phase := by
  unfold processFinish; dsimp only; split <;> rfl

theorem processFinish_err : (processFinish sh l r inL inR s).err =
    if l.failed || r.failed then s.err ||| CmdFault.delayRange.mask else s.err := by
  unfold processFinish; dsimp only; split <;> rfl

theorem processFinish_rsp : (processFinish sh l r inL inR s).rsp =
    some ⟨if l.failed || r.failed then CmdFault.delayRange.code else 0,
      mixOut s.variant sh.smGain s.par.drywet inL l.delayed, mixOut s.variant sh.smGain s.par.drywet inR r.delayed⟩ := by
  unfold processFinish; dsimp only; split <;> rfl

end ProcessFinish

/-! ### The write head -/

theorem nextIndex_lt {len i : Nat} (h : i < len) : nextIndex len i < len := by
  unfold nextIndex; split <;> omega

theorem nextIndex_eq_mod {len i : Nat} (h : i < len) : nextIndex len i = (i + 1) % len := by
  unfold nextIndex
  split
  · next h' => rw [h', Nat.mod_self]
  · rw [Nat.mod_eq_of_lt (by omega)]

/-! ### The step -/

/-- Everything a step can be: idle, a reset, an illegal word, or a command executed (R85, R230, R232). -/
theorem step_cases {s t : State} (h : step s = .next t) :
    (s.pending = [] ∧ t = idle s) ∨
    (∃ rest, s.pending = .reset :: rest ∧ t = resetEvent { s with pending := rest }) ∨
    (∃ c rest e, s.pending = .command c :: rest ∧ decode c = .error e ∧ t = illegalCommand { s with pending := rest }) ∨
    (∃ c rest i, s.pending = .command c :: rest ∧ decode c = .ok i ∧ exec i { s with pending := rest } = .next t) := by
  unfold step takeEvent at h
  cases hp : s.pending with
  | nil => rw [hp] at h; exact .inl ⟨rfl, (Host.Outcome.next.inj h).symm⟩
  | cons e rest =>
    rw [hp] at h
    cases e with
    | reset => exact .inr (.inl ⟨rest, rfl, (Host.Outcome.next.inj h).symm⟩)
    | command c =>
      dsimp only at h
      unfold runCommand at h
      cases hd : decode c with
      | error e => rw [hd] at h; exact .inr (.inr (.inl ⟨c, rest, e, rfl, hd, (Host.Outcome.next.inj h).symm⟩))
      | ok i => rw [hd] at h; exact .inr (.inr (.inr ⟨c, rest, i, rfl, hd, h⟩))

end Sys2Proof.Machine
end

