-- ==== Sys2Proof/Laws/DelayLine.lean ====
section
/-! SUPPORT. The read of the delay line in units of 2^-149: the range check, the read position with its two
corrections, the two indices and the fraction (R103 to R105). -/

namespace Sys2Proof.Machine

/-- Every significand of 24 bits at every exponent step is the value of some bits. -/
theorem exists_bits_of_step (k : Nat) {s : Nat} (hs : s ≤ 2 ^ 24) : ∃ m, bitsUnits m = s * 2 ^ k := by
  induction k generalizing s with
  | zero => exact ⟨s, by rw [bitsUnits_small hs, pow_zero, mul_one]⟩
  | succ k ih =>
    rcases Nat.lt_or_ge s (2 ^ 23) with h | h
    · obtain ⟨m, hm⟩ := ih (s := 2 * s) (by omega)
      exact ⟨m, by rw [hm, pow_succ]; ring⟩
    · exact ⟨(k + 1) * 2 ^ 23 + s, bitsUnits_step h hs⟩

/-- What is left of a value after whole multiples of a power of two is a value. -/
theorem exists_bits_mod (m j : Nat) : ∃ m', bitsUnits m' = bitsUnits m % 2 ^ j := by
  obtain ⟨k, s, hs, hv⟩ : ∃ k s, s ≤ 2 ^ 24 ∧ bitsUnits m = s * 2 ^ k := by
    rcases exists_step m with h | ⟨k, s, rfl, h1, h2⟩
    · exact ⟨0, m, by omega, by rw [bitsUnits_small (by omega), pow_zero, mul_one]⟩
    · exact ⟨k, s, h2.le, bitsUnits_step h1 h2.le⟩
  rcases Nat.le_total j k with h | h
  · refine ⟨0, ?_⟩
    rw [hv, bitsUnits_zero, ← Nat.sub_add_cancel h, pow_add, ← mul_assoc, Nat.mul_mod_left]
  · obtain ⟨m', hm'⟩ := exists_bits_of_step k (s := s % 2 ^ (j - k)) (by have := Nat.mod_le s (2 ^ (j - k)); omega)
    refine ⟨m', ?_⟩
    rw [hm', hv, ← Nat.sub_add_cancel h, pow_add, Nat.mul_mod_mul_right, Nat.add_sub_cancel]

/-- Lengths and indices are far below the largest finite number. -/
theorem len_units_lt {n : Nat} (h : n ≤ 2 ^ 24) : n * 2 ^ 149 < bitsUnits infBits := by
  obtain ⟨m, hm, hv⟩ := exists_bits_of_nat h
  rw [← hv]; exact bitsUnits_strictMono hm

/-- A value between minus and plus a length is finite. -/
theorem finite_of_abs_le {n : Nat} (h : n ≤ 2 ^ 24) {w : Word} (hw : (valueUnits w).natAbs ≤ n * 2 ^ 149) :
    isFinite w = true := (finite_iff_natAbs w).mpr (lt_of_le_of_lt hw (len_units_lt h))

/-- The range check of R104 in units. -/
theorem delayInRange_units {len : Nat} {d : Word} (hl : len ≤ 2 ^ 24) (h : delayInRange len d = true) :
    isFinite d = true ∧ 0 ≤ valueUnits d ∧ valueUnits d < (len : Int) * 2 ^ 149 := by
  simp only [delayInRange, Bool.and_eq_true] at h
  obtain ⟨h0, h1⟩ := h
  have hd := (not_nan_of_flt h1).1
  rw [fle_iff (by decide) hd, valueUnits_plusZero] at h0
  rw [flt_iff hd (not_nan_of_finite (isFinite_u2f hl)), valueUnits_u2f hl] at h1
  refine ⟨finite_of_abs_le hl ?_, h0, h1⟩
  have : ((valueUnits d).natAbs : Int) < ((len * 2 ^ 149 : Nat) : Int) := by
    rw [Int.natAbs_of_nonneg h0]; push_cast; exact h1
  exact (Int.ofNat_lt.mp this).le

theorem delayInRange_of_units {len : Nat} {d : Word} (hl : len ≤ 2 ^ 24) (hd : isNaN d = false) (h0 : 0 ≤ valueUnits d)
    (h1 : valueUnits d < (len : Int) * 2 ^ 149) : delayInRange len d = true := by
  rw [delayInRange, (fle_iff (by decide) hd).mpr (by rw [valueUnits_plusZero]; exact h0),
    (flt_iff hd (not_nan_of_finite (isFinite_u2f hl))).mpr (by rw [valueUnits_u2f hl]; exact h1)]
  rfl

/-- The first difference of READPOS (R108). -/
theorem pos0_units {len wh : Nat} {d : Word} (hw : wh < len) (hl : len ≤ 2 ^ 24) (hd : isFinite d = true)
    (h0 : 0 ≤ valueUnits d) (h1 : valueUnits d < (len : Int) * 2 ^ 149) :
    -((len : Int) * 2 ^ 149) < valueUnits (fsub (u2f wh) d) ∧
      valueUnits (fsub (u2f wh) d) ≤ ((len - 1 : Nat) : Int) * 2 ^ 149 := by
  have hwf := isFinite_u2f (n := wh) (by omega)
  have hwv := valueUnits_u2f (n := wh) (by omega)
  have hcf := isFinite_u2f (n := len - 1) (by omega)
  have hcv := valueUnits_u2f (n := len - 1) (by omega)
  have hU : (0 : Int) < 2 ^ 149 := by positivity
  have hlen : ((len - 1 : Nat) : Int) = len - 1 := by omega
  constructor
  · rcases Nat.eq_zero_or_pos wh with h | h
    · rw [valueUnits_fsub_exact (c := fneg d) hwf hd (by simpa using hd)
        (by rw [hwv, valueUnits_fneg, h]; simp), valueUnits_fneg]
      omega
    · have hwp : (1 : Int) * 2 ^ 149 ≤ (wh : Int) * 2 ^ 149 := Int.mul_le_mul_of_nonneg_right (by omega) hU.le
      have h2 : valueUnits (fneg (u2f (len - 1))) ≤ valueUnits (fsub (u2f wh) d) := by
        refine le_valueUnits_fsub hwf hd (by simpa using not_nan_of_finite hcf) ?_
        rw [valueUnits_fneg, hcv, hwv, hlen, sub_mul]; omega
      rw [valueUnits_fneg, hcv, hlen, sub_mul] at h2
      omega
  · rw [← hcv]
    refine valueUnits_fsub_le hwf hd (not_nan_of_finite hcf) ?_
    have : (wh : Int) * 2 ^ 149 ≤ ((len - 1 : Nat) : Int) * 2 ^ 149 := Int.mul_le_mul_of_nonneg_right (by omega) hU.le
    rw [hwv, hcv]; omega

/-- The position between the two corrections of READPOS. -/
theorem pos1_units {len wh : Nat} {d : Word} (hw : wh < len) (hl : len ≤ 2 ^ 24) (hd : isFinite d = true)
    (h0 : 0 ≤ valueUnits d) (h1 : valueUnits d < (len : Int) * 2 ^ 149) {p : Word}
    (hp : p = if flt (fsub (u2f wh) d) plusZero then fadd (fsub (u2f wh) d) (u2f len) else fsub (u2f wh) d) :
    isFinite p = true ∧ 0 ≤ valueUnits p ∧ valueUnits p ≤ (len : Int) * 2 ^ 149 := by
  obtain ⟨hlo, hhi⟩ := pos0_units hw hl hd h0 h1
  have hU : (0 : Int) < 2 ^ 149 := by positivity
  have hlen : ((len - 1 : Nat) : Int) * 2 ^ 149 = len * 2 ^ 149 - 2 ^ 149 := by
    rw [show ((len - 1 : Nat) : Int) = len - 1 by omega, sub_mul, one_mul]
  have hLf := isFinite_u2f hl
  have hLv := valueUnits_u2f hl
  have h0f : isFinite (fsub (u2f wh) d) = true := by
    refine finite_of_abs_le hl ?_
    have : ((len * 2 ^ 149 : Nat) : Int) = (len : Int) * 2 ^ 149 := by push_cast; rfl
    omega
  have key : 0 ≤ valueUnits p ∧ valueUnits p ≤ (len : Int) * 2 ^ 149 := by
    rw [hp]
    by_cases hneg : flt (fsub (u2f wh) d) plusZero = true
    · rw [if_pos hneg]
      rw [flt_iff (not_nan_of_finite h0f) (by decide), valueUnits_plusZero] at hneg
      constructor
      · rw [← valueUnits_plusZero]
        exact le_valueUnits_fadd h0f hLf (by decide) (by rw [valueUnits_plusZero, hLv]; omega)
      · rw [← hLv]
        exact valueUnits_fadd_le h0f hLf (not_nan_of_finite hLf) (by rw [hLv]; omega)
    · rw [if_neg hneg]
      rw [flt_iff (not_nan_of_finite h0f) (by decide), valueUnits_plusZero] at hneg
      omega
  refine ⟨finite_of_abs_le hl ?_, key⟩
  have : ((len * 2 ^ 149 : Nat) : Int) = (len : Int) * 2 ^ 149 := by push_cast; rfl
  omega

/-- The read position is a finite number in the ring. -/
theorem readPos_units {len wh : Nat} {d : Word} (hw : wh < len) (hl : len ≤ 2 ^ 24) (hd : isFinite d = true)
    (h0 : 0 ≤ valueUnits d) (h1 : valueUnits d < (len : Int) * 2 ^ 149) :
    isFinite (readPos len wh d) = true ∧ 0 ≤ valueUnits (readPos len wh d) ∧
      valueUnits (readPos len wh d) < (len : Int) * 2 ^ 149 := by
  have hLf := isFinite_u2f hl
  have hLv := valueUnits_u2f hl
  have hL0 : (0 : Int) < (len : Int) * 2 ^ 149 := Int.mul_pos (by omega) (by positivity)
  unfold readPos
  dsimp only
  generalize hp : (if flt (fsub (u2f wh) d) plusZero then fadd (fsub (u2f wh) d) (u2f len) else fsub (u2f wh) d) = p
  obtain ⟨hpf, hp0, hp1⟩ := pos1_units hw hl hd h0 h1 hp.symm
  have hle := fle_iff (not_nan_of_finite hLf) (not_nan_of_finite hpf)
  rw [hLv] at hle
  by_cases h : fle (u2f len) p = true
  · rw [if_pos h]
    have hv := valueUnits_fsub_exact (c := plusZero) hpf hLf isFinite_plusZero
      (by rw [valueUnits_plusZero, hLv]; have := hle.mp h; omega)
    rw [valueUnits_plusZero] at hv
    exact ⟨finite_of_abs_le hl (by rw [hv]; omega), by omega, by omega⟩
  · rw [if_neg h]
    rw [hle] at h
    exact ⟨hpf, hp0, by omega⟩

/-- A value that is not negative is the value of its bits. -/
theorem valueUnits_nonneg {w : Word} (h : 0 ≤ valueUnits w) : valueUnits w = bitsUnits (magBits w) := by
  rw [← natAbs_valueUnits, Int.natAbs_of_nonneg h]

/-- Both indices are slots. -/
theorem splitPos_lt {len : Nat} {p : Word} (h0 : 0 ≤ valueUnits p) (h1 : valueUnits p < (len : Int) * 2 ^ 149) :
    (splitPos len p).i0 < len ∧ (splitPos len p).i1 < len := by
  have hi : ifloor p < len := by
    rw [ifloor_lt]
    rw [valueUnits_nonneg h0] at h1
    have : ((len * 2 ^ 149 : Nat) : Int) = (len : Int) * 2 ^ 149 := by push_cast; rfl
    omega
  refine ⟨hi, ?_⟩
  show nextIndex len (ifloor p) < len
  unfold nextIndex
  split <;> omega

/-- The fraction is exact: what is left of the position after its whole part. -/
theorem splitPos_frac {len : Nat} {p : Word} (hl : len ≤ 2 ^ 24) (hp : isFinite p = true) (h0 : 0 ≤ valueUnits p)
    (h1 : valueUnits p < (len : Int) * 2 ^ 149) :
    isFinite (splitPos len p).frac = true ∧
      valueUnits (splitPos len p).frac = valueUnits p - ((splitPos len p).i0 : Int) * 2 ^ 149 ∧
      0 ≤ valueUnits (splitPos len p).frac ∧ valueUnits (splitPos len p).frac < 2 ^ 149 := by
  have hi := (splitPos_lt h0 h1).1
  show isFinite (fsub p (u2f (ifloor p))) = true ∧
    valueUnits (fsub p (u2f (ifloor p))) = valueUnits p - (ifloor p : Int) * 2 ^ 149 ∧
    0 ≤ valueUnits (fsub p (u2f (ifloor p))) ∧ valueUnits (fsub p (u2f (ifloor p))) < 2 ^ 149
  have hi : ifloor p < len := hi
  have hfl : isFinite (u2f (ifloor p)) = true := isFinite_u2f (by omega)
  have hdiv : ifloor p = bitsUnits (magBits p) / 2 ^ 149 := by rw [ifloor, magUnits_eq]
  obtain ⟨m, hm⟩ := exists_bits_mod (magBits p) 149
  have hmlt : bitsUnits m < 2 ^ 149 := by rw [hm]; exact Nat.mod_lt _ (by positivity)
  have hminf : m < infBits := bitsUnits_strictMono.lt_iff_lt.mp (by
    have := len_units_lt (n := 1) (by decide); rw [one_mul] at this; exact hmlt.trans this)
  have hcv : valueUnits (packBits false m) = bitsUnits m := by rw [valueUnits_packBits _ (hminf.trans infBits_lt)]; rfl
  have hcf : isFinite (packBits false m) = true := by
    rw [isFinite_iff, magBits_packBits _ (hminf.trans infBits_lt)]; exact hminf
  have hsplit : (bitsUnits (magBits p) : Int) = ifloor p * 2 ^ 149 + bitsUnits m := by
    rw [hdiv, hm]
    have := Nat.div_add_mod' (bitsUnits (magBits p)) (2 ^ 149)
    exact_mod_cast this.symm
  have hv := valueUnits_fsub_exact (c := packBits false m) hp hfl hcf
    (by rw [hcv, valueUnits_u2f (by omega), valueUnits_nonneg h0, hsplit]; omega)
  rw [hcv] at hv
  have hmi : (bitsUnits m : Int) < 2 ^ 149 := by exact_mod_cast hmlt
  refine ⟨finite_of_abs_le (n := 1) (by decide) ?_, ?_, ?_, ?_⟩
  · rw [hv, one_mul]; omega
  · rw [hv, valueUnits_nonneg h0, hsplit]; omega
  · rw [hv]; exact Int.natCast_nonneg _
  · rw [hv]; exact hmi

end Sys2Proof.Machine
end

