-- ==== Sys2Proof/Laws/Interval.lean ====
section
/-! SUPPORT. Phases in [0, 1) and values in [0, 1] (R26, R35) as bounds on units of 2^-149, and the transfers that are
a command of a kind. -/

namespace Sys2Proof.Machine

/-- A word between zero and 2.0 is finite. -/
theorem isFinite_of_units_le_two {w : Word} (h0 : 0 ≤ valueUnits w) (h1 : valueUnits w ≤ 2 ^ 150) : isFinite w = true := by
  have hInf : (2 : Int) ^ 150 < (bitsUnits infBits : Nat) := by decide +kernel
  rw [finite_iff_natAbs]
  omega

/-- A phase in [0, 1), in units. -/
theorem inUnit_iff {w : Word} : inUnit w = true ↔ isNaN w = false ∧ 0 ≤ valueUnits w ∧ valueUnits w < 2 ^ 149 := by
  rw [inUnit, Bool.and_eq_true]
  constructor
  · intro h
    have hn := (not_nan_of_flt h.2).1
    rw [fle_iff rfl hn, flt_iff hn rfl, valueUnits_one, valueUnits_plusZero] at h
    exact ⟨hn, h⟩
  · rintro ⟨hn, h⟩
    rw [fle_iff rfl hn, flt_iff hn rfl, valueUnits_one, valueUnits_plusZero]
    exact h

/-- A value in [0, 1], in units. -/
theorem unitRange_iff {w : Word} : unitRange w = true ↔ isNaN w = false ∧ 0 ≤ valueUnits w ∧ valueUnits w ≤ 2 ^ 149 := by
  rw [unitRange, Bool.and_eq_true]
  constructor
  · intro h
    have hn := (not_nan_of_fle h.2).1
    rw [fle_iff rfl hn, fle_iff hn rfl, valueUnits_one, valueUnits_plusZero] at h
    exact ⟨hn, h⟩
  · rintro ⟨hn, h⟩
    rw [fle_iff rfl hn, fle_iff hn rfl, valueUnits_one, valueUnits_plusZero]
    exact h

theorem isFinite_of_inUnit {w : Word} (h : inUnit w = true) : isFinite w = true :=
  have h := inUnit_iff.mp h
  isFinite_of_units_le_two h.2.1 (by omega)

theorem isFinite_of_unitRange {w : Word} (h : unitRange w = true) : isFinite w = true :=
  have h := unitRange_iff.mp h
  isFinite_of_units_le_two h.2.1 (by omega)

/-- A word of positive value is its magnitude bits: the value fixes the word. -/
theorem eq_of_units_pos {a b : Word} (ha : 0 < valueUnits a) (h : valueUnits a = valueUnits b) : a = b := by
  have sign : ∀ w : Word, 0 < valueUnits w → signBit w = false := fun w hw => by
    have hv := valueUnits_eq w
    cases hs : signBit w
    · rfl
    · rw [hs, if_pos rfl] at hv; omega
  have hm : bitsUnits (magBits a) = bitsUnits (magBits b) := by
    rw [← natAbs_valueUnits, ← natAbs_valueUnits, h]
  exact word_ext ((sign a ha).trans (sign b (h ▸ ha)).symm) (bitsUnits_strictMono.injective hm)

/-- Between a positive pattern and the pattern before it lies no value: what is less than `c` is at most `p`. -/
theorem units_le_of_lt_next {w c p : Word} (hw : 0 ≤ valueUnits w) (hp : signBit p = false) (hc : signBit c = false)
    (hpc : magBits p + 1 = magBits c) (h : valueUnits w < valueUnits c) : valueUnits w ≤ valueUnits p := by
  have pos : ∀ x : Word, signBit x = false → valueUnits x = bitsUnits (magBits x) := fun x hx => by
    rw [valueUnits_eq, hx]; rfl
  have hw' : valueUnits w = bitsUnits (magBits w) := by have := natAbs_valueUnits w; omega
  rw [hw', pos c hc, Int.ofNat_lt, bitsUnits_strictMono.lt_iff_lt] at h
  rw [hw', pos p hp]
  exact_mod_cast bitsUnits_mono (by omega)

/-! ### Transfers that are a command of a kind -/

theorem decodesTo_of_ok {p : Instr → Bool} {c : Command} {i : Instr} (h : decode c = .ok i) : decodesTo p c = p i := by
  rw [decodesTo, h]

theorem decodesTo_of_error {p : Instr → Bool} {c : Command} {e : DecodeError} (h : decode c = .error e) :
    decodesTo p c = false := by
  rw [decodesTo, h]

end Sys2Proof.Machine
end

