-- ==== Sys2Proof/Laws/PerInstr.lean ====
section
/-! SUPPORT. Facts about every command as syntax, one lemma per constructor (LAWS.json).
EncodeMatchesRow: the word of a well-formed command matches the (match, mask) pair of the command's row of
R86. -/

namespace Sys2Proof.Laws.EncodeMatchesRow

/-- The match word and mask of a command's row (R86). -/
def row : Instr → Word × Word
  | .nop => (0x00000000, 0xFFFFFFFF)
  | .preparePlain _ _ => (0x01000000, 0xFFFFFFFF)
  | .prepareMod _ _ => (0x01000001, 0xFFFFFFFF)
  | .prepareUtil _ _ => (0x01000002, 0xFFFFFFFF)
  | .process _ _ => (0x02000000, 0xFFFFFFFF)
  | .wrreg _ _ => (0x03000000, 0xFFFFFF00)
  | .rdreg _ => (0x04000000, 0xFFFFFF00)
  | .rdmem _ _ => (0x05000000, 0xFFFFFFFE)

/-- A well-formed command is encoded as a word of its row. -/
def Statement (i : Instr) : Prop := i.wf = true → (encode i).word &&& (row i).2 = (row i).1

/-- Masking the low eight bits away. -/
theorem and_indexed_mask (w : Word) : w &&& (0xFFFFFF00 : Word) = (w >>> 8) <<< 8 := by
  ext i hi
  interval_cases i <;> simp

/-- An 8-bit argument stays below the mask of an indexed row. -/
theorem commandWord_and_mask (opc idx : Nat) (hi : idx < 256) :
    commandWord opc idx &&& (0xFFFFFF00 : Word) = commandWord opc 0 := by
  rw [and_indexed_mask]
  apply BitVec.eq_of_toNat_eq
  simp only [commandWord, BitVec.toNat_shiftLeft, BitVec.toNat_ushiftRight, BitVec.toNat_ofNat,
    Nat.shiftLeft_eq, Nat.shiftRight_eq_div_pow]
  omega

theorem nop : Statement .nop := fun _ => rfl

theorem preparePlain (s m : Word) : Statement (.preparePlain s m) := fun _ => by simp only [encode, row]; decide

theorem prepareMod (s m : Word) : Statement (.prepareMod s m) := fun _ => by simp only [encode, row]; decide

theorem prepareUtil (s m : Word) : Statement (.prepareUtil s m) := fun _ => by simp only [encode, row]; decide

theorem process (inL inR : Word) : Statement (.process inL inR) := fun _ => by simp only [encode, row]; decide

theorem wrreg (idx : Nat) (v : Word) : Statement (.wrreg idx v) := fun h =>
  commandWord_and_mask 0x03 idx (by simpa [Instr.wf] using h)

theorem rdreg (idx : Nat) : Statement (.rdreg idx) := fun h =>
  commandWord_and_mask 0x04 idx (by simpa [Instr.wf] using h)

theorem rdmem (ch : Chan) (i : Word) : Statement (.rdmem ch i) := fun _ => by
  cases ch <;> simp only [encode, row] <;> decide

end Sys2Proof.Laws.EncodeMatchesRow
end

