-- ==== Sys2Proof/Laws/Sine.lean ====
section
/-! SUPPORT. The polynomial that stands for the sine in `sinAdmits` is within `sinRatErr` of the sine (R141). -/

namespace Sys2Proof.Machine

/-- The polynomial over the reals. -/
noncomputable def sinPolyReal (y : ℝ) : ℝ :=
  y - y ^ 3 / 6 + y ^ 5 / 120 - y ^ 7 / 5040 + y ^ 9 / 362880 - y ^ 11 / 39916800 + y ^ 13 / 6227020800
    - y ^ 15 / 1307674368000 + y ^ 17 / 355687428096000 - y ^ 19 / 121645100408832000

theorem sinPoly_cast (y : ℚ) : ((sinPoly y : ℚ) : ℝ) = sinPolyReal y := by
  simp only [sinPoly, sinTail, sinPolyReal]
  push_cast
  ring

/-- The Taylor polynomial is close to the sine on a quarter cycle on either side of zero. -/
theorem sinPolyReal_close {y : ℝ} (h : |y| ≤ 8 / 5) : |sinPolyReal y - Real.sin y| ≤ 1 / 2 ^ 46 := by
  have hn : ‖(y : ℂ) * Complex.I‖ = |y| := by simp
  have hb := Complex.exp_bound' (x := (y : ℂ) * Complex.I) (n := 21) (by rw [hn]; norm_num; linarith)
  rw [hn] at hb
  have him : (Complex.exp ((y : ℂ) * Complex.I) - ∑ m ∈ Finset.range 21, ((y : ℂ) * Complex.I) ^ m / (m.factorial : ℂ)).im =
      Real.sin y - sinPolyReal y := by
    have hexp : (Complex.exp ((y : ℂ) * Complex.I)).im = Real.sin y := Complex.exp_ofReal_mul_I_im y
    have hpow : ∀ m : ℕ, (((y : ℂ) * Complex.I) ^ m / (m.factorial : ℂ)).im = y ^ m / m.factorial * (Complex.I ^ m).im := by
      intro m
      rw [mul_pow, mul_div_right_comm, ← Complex.ofReal_pow, ← Complex.ofReal_natCast, ← Complex.ofReal_div, Complex.im_ofReal_mul]
    have hI : ∀ k : ℕ, (Complex.I ^ (4 * k)).im = 0 ∧ (Complex.I ^ (4 * k + 1)).im = 1 ∧
        (Complex.I ^ (4 * k + 2)).im = 0 ∧ (Complex.I ^ (4 * k + 3)).im = -1 := by
      intro k
      rw [pow_add, pow_add, pow_add, pow_mul, Complex.I_pow_four, one_pow]
      norm_num [pow_succ]
    have h0 := hI 0
    have h1 := hI 1
    have h2 := hI 2
    have h3 := hI 3
    have h4 := hI 4
    have h5 := (hI 5).1
    norm_num only at h0 h1 h2 h3 h4 h5
    rw [Complex.sub_im, hexp, Complex.im_sum]
    simp only [hpow, Finset.sum_range_succ, Finset.sum_range_zero, h0, h1, h2, h3, h4, h5]
    simp only [sinPolyReal, Nat.factorial]
    push_cast
    ring
  have h1 := (Complex.abs_im_le_norm _).trans hb
  rw [him, abs_sub_comm] at h1
  refine h1.trans ?_
  have h2 : |y| ^ 21 ≤ (8 / 5 : ℝ) ^ 21 := pow_le_pow_left₀ (abs_nonneg y) h 21
  have h3 : ((21).factorial : ℝ) = 51090942171709440000 := by norm_num [Nat.factorial]
  rw [h3]
  calc |y| ^ 21 / 51090942171709440000 * 2 ≤ (8 / 5 : ℝ) ^ 21 / 51090942171709440000 * 2 := by gcongr
    _ ≤ 1 / 2 ^ 46 := by norm_num

theorem halfPi_close : |((halfPi : ℚ) : ℝ) - Real.pi / 2| ≤ 1 / 2 ^ 60 := by
  have h1 := Real.pi_gt_d20
  have h2 := Real.pi_lt_d20
  have h3 : ((halfPi : ℚ) : ℝ) = 15707963267948966192313 / 10 ^ 22 := by simp [halfPi]
  rw [h3, abs_le]
  constructor <;> norm_num at * <;> linarith

/-- One segment of `sinRat`: the sine of a fraction of a quarter cycle. -/
theorem sinPoly_segment {u : ℚ} (hu : |u| ≤ 1) :
    |((sinPoly (u * halfPi) : ℚ) : ℝ) - Real.sin (u * (Real.pi / 2))| ≤ 1 / 2 ^ 45 := by
  have hu' : |(u : ℝ)| ≤ 1 := by exact_mod_cast hu
  have hh := halfPi_close
  have hp : |((halfPi : ℚ) : ℝ)| ≤ 8 / 5 := by
    have : ((halfPi : ℚ) : ℝ) = 15707963267948966192313 / 10 ^ 22 := by simp [halfPi]
    rw [this, abs_of_pos (by positivity)]; norm_num
  have hy : |(((u * halfPi : ℚ)) : ℝ)| ≤ 8 / 5 := by
    push_cast; rw [abs_mul]
    calc |(u : ℝ)| * |((halfPi : ℚ) : ℝ)| ≤ 1 * (8 / 5) := by gcongr
      _ = 8 / 5 := one_mul _
  have h1 := sinPolyReal_close hy
  rw [← sinPoly_cast] at h1
  have h2 : |Real.sin ((u * halfPi : ℚ) : ℝ) - Real.sin (u * (Real.pi / 2))| ≤ 1 / 2 ^ 60 := by
    refine (Real.abs_sin_sub_sin_le _ _).trans ?_
    rw [Rat.cast_mul, ← mul_sub, abs_mul]
    calc |(u : ℝ)| * |((halfPi : ℚ) : ℝ) - Real.pi / 2| ≤ 1 * (1 / 2 ^ 60) := by gcongr
      _ = 1 / 2 ^ 60 := one_mul _
  calc |((sinPoly (u * halfPi) : ℚ) : ℝ) - Real.sin (u * (Real.pi / 2))|
      ≤ |((sinPoly (u * halfPi) : ℚ) : ℝ) - Real.sin ((u * halfPi : ℚ) : ℝ)| +
        |Real.sin ((u * halfPi : ℚ) : ℝ) - Real.sin (u * (Real.pi / 2))| := abs_sub_le _ _ _
    _ ≤ 1 / 2 ^ 46 + 1 / 2 ^ 60 := add_le_add h1 h2
    _ ≤ 1 / 2 ^ 45 := by norm_num

/-- `sinRat` is within `sinRatErr` of the sine over a whole cycle. -/
theorem sinRat_close {x : ℚ} (h0 : 0 ≤ x) (h1 : x ≤ 1) :
    |((sinRat x : ℚ) : ℝ) - Real.sin (2 * Real.pi * (x : ℝ))| ≤ ((sinRatErr : ℚ) : ℝ) := by
  have he : ((sinRatErr : ℚ) : ℝ) = 1 / 2 ^ 45 := by simp [sinRatErr]
  rw [he]
  unfold sinRat
  split
  · next h =>
    have hs := sinPoly_segment (u := 4 * x) (by rw [abs_le]; constructor <;> linarith)
    convert hs using 4
    push_cast; ring
  · split
    · next h h' =>
      have hs := sinPoly_segment (u := 2 - 4 * x) (by rw [abs_le]; constructor <;> linarith)
      rw [← Real.sin_pi_sub]
      convert hs using 4
      push_cast; ring
    · next h h' =>
      have hs := sinPoly_segment (u := 4 * x - 4) (by rw [abs_le]; constructor <;> linarith)
      rw [← Real.sin_sub_two_pi]
      convert hs using 4
      push_cast; ring

end Sys2Proof.Machine
end

