-- ==== Sys2Proof/Tests/Slice0.lean ====
section
/-! SUPPORT. Tests. Expected results are those of spec/95_test_vectors.md (the section is named) or, for decoding, words
written out from R81 and R86. Then one witness for each premise of each obligation (`test_witness_<obligation>`). -/

namespace Sys2Proof.Tests

open Sys2Proof Sys2Proof.Machine

/-! ### Small states -/

/-- The next state of an outcome, if it is one. -/
def nextState : Host.Outcome State Fault Refusal → Option State
  | .next t => some t
  | .fault _ => none
  | .refused _ => none

theorem nextState_some {o : Host.Outcome State Fault Refusal} (h : (nextState o).isSome = true) : ∃ t, o = .next t := by
  cases o with
  | next t => exact ⟨t, rfl⟩
  | fault e => cases h
  | refused r => cases h

/-- After `PREPARE 4.0, 1.0` of a variant from the reset state with parameters `p`: four slots. -/
def four (v : Variant) (p : Params) : State := prepareState v 0x40800000 0x3F800000 4 { State.reset with par := p }

/-- The same with the default parameters: a delay of two samples in PLAIN and UTIL. -/
def ready (v : Variant) : State := four v Params.reset

/-- The same with DELAYTIME 2.0: a delay of eight samples, out of range. -/
def late : State := four .plain { Params.reset with delaytime := 0x40000000 }

/-- A port with one event. -/
def offering (e : PortEvent) (s : State) : State := { s with pending := [e] }

/-- What a test looks at first: the response and the sticky bits. -/
def seen (o : Host.Outcome State Fault Refusal) : Option (Option Response × BitVec 7) :=
  (nextState o).map fun t => (t.rsp, t.err)

/-! ### Well-formed terms -/

theorem test_wf_refuses_a_wide_wrreg_index : (Instr.wrreg 256 0).wf = false := by decide

theorem test_wf_refuses_a_wide_rdreg_index : (Instr.rdreg 256).wf = false := by decide

theorem test_wf_admits_the_last_index : (Instr.wrreg 255 0).wf = true ∧ (Instr.rdreg 255).wf = true := by decide

/-! ### Decoding (95 section 2.1; bit by bit from R81 and R86) -/

theorem test_decode_nop :
    decode ⟨0b00000000_0000000000000000_00000000, 0xDEADBEEF, 0xFFFFFFFF⟩ = .ok .nop := by rfl

theorem test_decode_prepare_plain :
    decode ⟨0b00000001_0000000000000000_00000000, 0x472C4400, 0x40000000⟩ = .ok (.preparePlain 0x472C4400 0x40000000) := by rfl

theorem test_decode_prepare_mod :
    decode ⟨0b00000001_0000000000000000_00000001, 0x42200000, 0x40000000⟩ = .ok (.prepareMod 0x42200000 0x40000000) := by rfl

theorem test_decode_prepare_util :
    decode ⟨0b00000001_0000000000000000_00000010, 0x40800000, 0x3F800000⟩ = .ok (.prepareUtil 0x40800000 0x3F800000) := by rfl

theorem test_decode_process :
    decode ⟨0b00000010_0000000000000000_00000000, 0x3F800000, 0x41200000⟩ = .ok (.process 0x3F800000 0x41200000) := by rfl

theorem test_decode_wrreg :
    decode ⟨0b00000011_0000000000000000_00000111, 0x3F800000, 0⟩ = .ok (.wrreg 0x07 0x3F800000) := by rfl

theorem test_decode_rdreg :
    decode ⟨0b00000100_0000000000000000_00011101, 0, 0⟩ = .ok (.rdreg 0x1D) := by rfl

theorem test_decode_rdmem :
    decode ⟨0b00000101_0000000000000000_00000001, 3, 0⟩ = .ok (.rdmem .right 3) := by rfl

theorem test_decode_refuses_reserved_opcodes :
    (decode ⟨0x06000000, 0, 0⟩, decode ⟨0x80000000, 0, 0⟩, decode ⟨0xFFFFFFFF, 0, 0⟩) =
      (.error .reservedOpcode, .error .reservedOpcode, .error .reservedOpcode) := by rfl

theorem test_decode_refuses_reserved_bits :
    (decode ⟨0x00000100, 0, 0⟩, decode ⟨0x00800000, 0, 0⟩, decode ⟨0x01010000, 0, 0⟩, decode ⟨0x03000105, 0, 0⟩) =
      (.error .reservedBits, .error .reservedBits, .error .reservedBits, .error .reservedBits) := by rfl

theorem test_decode_refuses_nonzero_arg :
    (decode ⟨0x00000001, 0, 0⟩, decode ⟨0x01000004, 0, 0⟩, decode ⟨0x02000001, 0, 0⟩, decode ⟨0x05000002, 0, 0⟩) =
      (.error .nonzeroArg, .error .nonzeroArg, .error .nonzeroArg, .error .nonzeroArg) := by rfl

theorem test_decode_refuses_variant_three : decode ⟨0x01000003, 0x472C4400, 0x40000000⟩ = .error .reservedVariant := by rfl

theorem test_decode_bytes_little_endian :
    decodeBytes [0x07, 0, 0, 0x03, 0, 0, 0x80, 0x3F, 0, 0, 0, 0, 0xAA] = .ok (.wrreg 7 0x3F800000, [0xAA]) := by rfl

theorem test_decode_bytes_truncated : decodeBytes [0x07, 0, 0, 0x03] = .error .truncated := by rfl

theorem test_decode_table_word :
    decodeTableWord 96 0x400000003F80000002000000 = some (.process 0x3F800000 0x40000000) ∧
      decodeTableWord 32 0x0400001D = some (.rdreg 0x1D) := by decide

/-! ### One step of each command -/

/-- 95 section 2.13: a later good command answers 0 and clears no bit. -/
theorem test_nop_keeps_the_sticky_bits :
    seen (exec .nop { State.reset with err := 0x7F }) = some (some ⟨0, 0, 0⟩, 0x7F) := by decide

/-- 95 section 2.8, first row. -/
theorem test_prepare_plain_88200 :
    (nextState (exec (.preparePlain 0x472C4400 0x40000000) State.reset)).map
      (fun t => (t.rsp, t.len, t.prepared, t.smTime)) = some (some ⟨0, 0x00015888, 0⟩, 88200, true, 0x3F000000) := by decide

/-- 95 section 2.8: the product 661.5 is floored. -/
theorem test_prepare_plain_floors :
    seen (exec (.preparePlain 0x46AC4400 0x3CF5C28F) State.reset) = some (some ⟨0, 0x00000295, 0⟩, 0) := by decide

/-- 95 program P3, step 7. -/
theorem test_prepare_mod_80 :
    (nextState (exec (.prepareMod 0x42200000 0x40000000) State.reset)).map (fun t => (t.rsp, t.variant)) =
      some (some ⟨0, 0x50, 0⟩, .mod) := by decide

/-- 95 section 2.8: one more than DEPTH, from a prepared state. -/
theorem test_prepare_mod_too_long :
    (nextState (exec (.prepareMod 0x49000010 0x3F800000) (ready .plain))).map
      (fun t => (t.rsp, t.err, t.prepared, t.len)) = some (some ⟨4, 0, 0⟩, 0x08, false, 4) := by decide

/-- 95 section 2.13: PREPARE does not clear `err`. -/
theorem test_prepare_util_keeps_err :
    seen (exec (.prepareUtil 0x40800000 0x3F800000) { State.reset with err := 0x02 }) = some (some ⟨0, 4, 0⟩, 0x02) := by decide

/-- 95 section 2.8: a product below one. -/
theorem test_prepare_util_too_short :
    seen (exec (.prepareUtil 0x473B8000 0x377BA882) State.reset) = some (some ⟨5, 0, 0⟩, 0x10) := by decide

/-- 95 program P3, step 14 (MOD, Flanger; the sine is at two quarter points). -/
theorem test_process_mod_flanger :
    (nextState (exec (.process 0x40C00000 0x40C00000)
      { State.reset with
        prepared := true, variant := .mod, len := 80, sr := 0x42200000, maxdly := 0x40000000, phase := 0x3E800000
        left := ⟨5, 0, [(3, 0x40800000), (4, 0x40A00000)], 0⟩, right := ⟨5, 0, [(3, 0x40800000), (4, 0x40A00000)], 0⟩
        par := ⟨0x3F800000, 0x3F800000, 0x41200000, 0x3E800000, 0, 0x3F000000, .flanger, 0x3F000000⟩ })).map
      (fun t => (t.rsp, t.phase, t.left.wh)) = some (some ⟨0, 0x40BC28F6, 0x40BEB852⟩, 0x3F000000, 6) := by decide +kernel

/-- 95 program P4, step 8 (UTIL with feedback; the head wraps). -/
theorem test_process_util_gain_ramp :
    (nextState (exec (.process 0x3F800000 0x40000000)
      { ready .util with
        par := { Params.reset with gain := 0x3F800000 }, smGain := 0x3F0187A5
        left := ⟨3, 0x3F000000, [(0, 0x3F800000), (1, 0x3F800000), (2, 0x3F800000)], 0⟩
        right := ⟨3, 0x3F800000, [(0, 0x40000000), (1, 0x40000000), (2, 0x40000000)], 0⟩ })).map
      (fun t => (t.rsp, t.smGain, t.left, t.right)) =
      some (some ⟨0, 0x3FC10493, 0x40410493⟩, 0x3F020926,
        ⟨0, 0x3F000000, [(0, 0x3F800000), (1, 0x3F800000), (2, 0x3F800000), (3, 0x3FC00000)], 0⟩,
        ⟨0, 0x3F800000, [(0, 0x40000000), (1, 0x40000000), (2, 0x40000000), (3, 0x40400000)], 0⟩) := by decide +kernel

/-- 95 section 2.12: MODE keeps bit 0. -/
theorem test_wrreg_mode_keeps_bit_zero :
    ((nextState (exec (.wrreg 6 0xFFFFFFFE) State.reset)).map (·.par.mode),
      (nextState (exec (.wrreg 6 3) State.reset)).map (·.par.mode)) = (some .chorus, some .flanger) := by decide

/-- 95 program P5, step 6: STATUS is read-only. -/
theorem test_wrreg_read_only :
    seen (exec (.wrreg 0x12 0x3F800000) State.reset) = some (some ⟨6, 0, 0⟩, 0x20) := by decide

/-- 95 section 2.12: STATUS after `PREPARE.UTIL 4.0, 1.0`. -/
theorem test_rdreg_status :
    seen (exec (.rdreg 0x12) (ready .util)) = some (some ⟨0, 5, 0⟩, 0) := by decide

/-- 95 section 2.1: 0x0F is not implemented. -/
theorem test_rdreg_unimplemented : seen (exec (.rdreg 0x0F) State.reset) = some (some ⟨6, 0, 0⟩, 0x20) := by decide

/-- 95 program P1, step 12: channel 1, slot 3. -/
theorem test_rdmem_right_slot :
    seen (exec (.rdmem .right 3) { ready .plain with right := ⟨1, 0, [(3, 0x42200000)], 0⟩ }) =
      some (some ⟨0, 0x42200000, 0⟩, 0) := by decide

/-- 95 section 2.12: NotPrepared is checked before the index. -/
theorem test_rdmem_not_prepared :
    seen (exec (.rdmem .left 0xFFFFFFFF) State.reset) = some (some ⟨2, 0, 0⟩, 0x02) := by decide

/-- R54: nothing is listed, which is the canonical form. -/
theorem test_reset_memory_wf : Memory.wf State.reset.left.mem = true ∧ Memory.wf State.reset.right.mem = true := by decide

/-! ### Steps on the port -/

/-- 95 program P5, step 2: an illegal word. -/
theorem test_step_illegal_word :
    seen (step (offering (.command ⟨0x01000003, 0x472C4400, 0x40000000⟩) State.reset)) = some (some ⟨1, 0, 0⟩, 0x01) := by decide

/-- 95 section 2.12, RDREG CAP, placed by `withFetchWord`. -/
theorem test_withFetchWord_runs_first :
    seen (step (State.reset.withFetchWord 32 0x04000011)) = some (some ⟨0, 0x00080000, 0⟩, 0) := by decide

/-! ### Micro-operations -/

/-- 95 section 2.2, rows 7 and 9. -/
theorem test_interp :
    interp 0x3DCCCCCD 0x3E4CCCCD 0x3E99999A = 0x3E051EB8 ∧ interp 0x3F800000 0x7F800000 0 = 0x7FC00000 := by decide

/-- 95 section 2.3, rows 1 and 6: the second correction, and the largest delay below the length. -/
theorem test_readPoint :
    readPoint 96000 0 0x2EDBE6FF = ⟨0, 1, 0⟩ ∧ readPoint 96000 95999 0x47BB7FFF = ⟨95999, 0, 0x3C000000⟩ := by decide +kernel

/-- 95 section 2.4, rows 3 and 12. -/
theorem test_smStep :
    smStep 0x3B0301A8 0x3F800000 kTime = 0x3B446956 ∧ smStep 0x3F000000 0x7F800000 kTime = 0x7F800000 := by decide

/-- 95 section 2.5, the tenth step of the second sequence, and a secondary phase. -/
theorem test_lfo_phase :
    wrap1 (fadd 0x3F666668 0x3DCCCCCD) = 0x34000000 ∧ lfoPh2 0x3E99999A 0x3F666666 = 0x3E4CCCD0 := by decide

/-- By hand from R19, R135 and R136: 1 - 2^-24 and 1.0 sum to 2 - 2^-24, halfway between 2 - 2^-23 and 2.0, of which 2.0 is
even; one subtraction leaves 1.0 (log 16). From the phase before it the sum is exact. -/
theorem test_lfoAdv_rounds_to_a_whole_cycle :
    fadd 0x3F7FFFFF 0x3F800000 = 0x40000000 ∧ lfoAdv 0x40800000 0x40800000 0x3F7FFFFF = 0x3F800000 ∧
      lfoAdv 0x40800000 0x40800000 0x3F7FFFFE = 0x3F7FFFFE := by decide

/-- 95 section 2.6, rows 10 and 5. -/
theorem test_lfoMap :
    lfoMap 0x3F000000 .flanger = 0x3B83126E ∧ lfoMap 0xBF000000 .chorus = 0x3C3851EB := by decide

/-- 95 section 2.7: MIX_XFADE row 6, the last row of MIX_ADD. -/
theorem test_mixers :
    mixXfade 0x3E99999A 0x3F333333 0x3DCCCCCD = 0x3EAE147B ∧ mixAdd 0x3F333333 0x3E99999A 0x3DCCCCCD = 0x3E9EB852 := by decide

/-! ### The premises of the obligations can be met -/

/-- The invariant at a prepared state. -/
theorem ready_inv (v : Variant) : (ready v).Inv where
  aw_pos := by cases v <;> decide
  aw_le := by cases v <;> decide
  len_le := by cases v <;> decide
  len_pos := by cases v <;> decide
  len_latched := by cases v <;> decide
  sr_ok := by cases v <;> decide
  maxdly_ok := by cases v <;> decide
  wh_width := by cases v <;> decide
  wh_lt := by cases v <;> decide
  wh_eq := by cases v <;> decide
  left_wf := by cases v <;> decide
  right_wf := by cases v <;> decide
  left_within := by cases v <;> decide
  right_within := by cases v <;> decide

/-- The invariant at a prepared state whose delays are out of range. -/
theorem late_inv : late.Inv where
  aw_pos := by decide
  aw_le := by decide
  len_le := by decide
  len_pos := by decide
  len_latched := by decide
  sr_ok := by decide
  maxdly_ok := by decide
  wh_width := by decide
  wh_lt := by decide
  wh_eq := by decide
  left_wf := by decide
  right_wf := by decide
  left_within := by decide
  right_within := by decide

theorem test_witness_DecodeOfEncodeIsTheCommand : (Instr.wrreg 255 0x7FC12345).wf = true := by decide

theorem test_witness_DecodeAcceptsExactlyTheOpcodeRows :
    (decode ⟨0x030000FF, 0, 0⟩ = .ok (.wrreg 255 0) ∧ (0x030000FF : Word) &&& 0xFFFFFF00 = 0x03000000) ∧
      decode ⟨0x03000100, 0, 0⟩ = .error .reservedBits := ⟨⟨rfl, by decide⟩, rfl⟩

theorem test_witness_UnusedOperandWordsAreIgnored :
    decode ⟨0x05000001, 3, 0xFFFFFFFF⟩ = .ok (.rdmem .right 3) ∧ decode ⟨0x06000000, 3, 5⟩ = .error .reservedOpcode :=
  ⟨rfl, rfl⟩

theorem test_witness_StepRunsTheDecodedCommand :
    (offering (.command ⟨0x02000000, 1, 2⟩) (ready .mod)).pending = .command ⟨0x02000000, 1, 2⟩ :: [] ∧
      decode ⟨0x02000000, 1, 2⟩ = .ok (.process 1 2) := ⟨rfl, rfl⟩

theorem test_witness_StepAnswersAnIllegalWord :
    (offering (.command ⟨0xFFFFFFFF, 1, 2⟩) State.reset).pending = .command ⟨0xFFFFFFFF, 1, 2⟩ :: [] ∧
      decode ⟨0xFFFFFFFF, 1, 2⟩ = .error .reservedOpcode := ⟨rfl, rfl⟩

theorem test_witness_ResetEventGivesTheResetValues :
    (offering .reset (ready .util)).pending = .reset :: [] := rfl

theorem test_witness_AnIdlePortChangesNothing : (ready .util).pending = [] := rfl

/-- The product is the whole bank; then it is 1. -/
theorem test_witness_PrepareLeavesThePreparedState :
    (flt plusZero 0x49000000 = true ∧ flt 0x49000000 plusInf = true ∧ flt plusZero 0x3F800000 = true ∧
      flt 0x3F800000 plusInf = true ∧ flt (fmul 0x49000000 0x3F800000) one = false ∧
      feq (fmul 0x49000000 0x3F800000) plusInf = false ∧ ifloor (fmul 0x49000000 0x3F800000) ≤ 2 ^ State.reset.aw) ∧
    (flt plusZero 0x40800000 = true ∧ flt 0x40800000 plusInf = true ∧ flt plusZero 0x3E800000 = true ∧
      flt 0x3E800000 plusInf = true ∧ flt (fmul 0x40800000 0x3E800000) one = false ∧
      feq (fmul 0x40800000 0x3E800000) plusInf = false ∧ ifloor (fmul 0x40800000 0x3E800000) ≤ 2 ^ State.reset.aw) := by
  decide

/-- Each way to PrepareRange, then each way to ResourceExhaustion. -/
theorem test_witness_PrepareTurnsAwayBadOperands :
    finitePositive 0x00000000 = false ∧ finitePositive 0x7F800000 = false ∧ finitePositive 0x7FC00000 = false ∧
    finitePositive 0x80000000 = false ∧ flt (fmul 0x473B8000 0x377BA882) one = true ∧
    (finitePositive 0x7F61B1E6 = true ∧ finitePositive 0x40000000 = true ∧ flt (fmul 0x7F61B1E6 0x40000000) one = false ∧
      feq (fmul 0x7F61B1E6 0x40000000) plusInf = true) ∧
    (finitePositive 0x49000010 = true ∧ finitePositive 0x3F800000 = true ∧ flt (fmul 0x49000010 0x3F800000) one = false ∧
      2 ^ State.reset.aw < ifloor (fmul 0x49000010 0x3F800000)) := by decide

theorem test_witness_PrepareLengthIsTheFloorOfTheProduct :
    prepareLength 24 0x4B800000 0x3F800000 = .ok (2 ^ 24) ∧ prepareLength 1 0x40400000 0x3F000000 = .ok 1 := ⟨rfl, rfl⟩

theorem test_witness_WrregWritesOneParameterRegister : (255 ≤ 0xFF ∧ 0x07 < 255) ∧ (7 : Nat) ≤ 0x07 ∧ (0x07 < 8 ∧ 8 ≤ 0xFF) ∧ (6 : Nat) ≤ 0x07 ∧ 6 ≠ 7 := by decide

theorem test_witness_RdregReadsEveryRegister : 255 ≤ 0xFF ∧ (0x07 < 0x08 ∧ 0x08 < 0x10) ∧ (0x07 < 0x0F ∧ 0x0F < 0x10) ∧
    (0x1D < 0x1E ∧ 0x1E ≤ 0xFF) ∧ (0x1D < 255 ∧ 255 ≤ 0xFF) := by
  decide

theorem test_witness_RdmemReadsASlot :
    State.reset.prepared = false ∧ ((ready .mod).prepared = true ∧ (ready .mod).len ≤ (4 : Word).toNat) ∧
      ((ready .mod).prepared = true ∧ (3 : Word).toNat < (ready .mod).len ∧ (ready .mod).len ≤ 2 ^ (ready .mod).aw) := by decide

theorem test_witness_ProcessBeforePrepareIsRefused : State.reset.prepared = false := rfl

/-- Each variant, and delays out of range. -/
theorem test_witness_ProcessDoesTheEightSteps :
    (∀ v, (ready v).Inv ∧ (ready v).prepared = true ∧ (ready v).variant = v) ∧
      late.Inv ∧ late.prepared = true ∧ late.delaysInRange = false :=
  ⟨fun v => ⟨ready_inv v, rfl, rfl⟩, late_inv, rfl, by decide⟩

/-- Prepared and not prepared. -/
theorem test_witness_ProcessChangesNothingElse :
    (Memory.wf (ready .plain).left.mem = true ∧ Memory.wf (ready .plain).right.mem = true ∧
      ∃ t, exec (.process one half) (ready .plain) = .next t) ∧ ∃ t, exec (.process one half) State.reset = .next t :=
  ⟨⟨rfl, rfl, nextState_some (by decide)⟩, nextState_some (by decide)⟩

theorem test_witness_ChannelsAreIndependent :
    (∃ t, exec (.process one half) (ready .plain) = .next t) ∧
    (∃ t, exec (.process one one) { ready .plain with right := ⟨2, half, [(0, one)], 7⟩ } = .next t) ∧
    (∃ t, exec (.process one half) { ready .plain with left := ⟨2, half, [(0, one)], 7⟩ } = .next t) ∧
    (ready .plain).variant ≠ .mod :=
  ⟨nextState_some (by decide), nextState_some (by decide), nextState_some (by decide), by decide⟩

theorem test_witness_SilenceStaysSilence :
    (ready .util).Inv ∧ (ready .util).prepared = true ∧ (ready .util).delaysInRange = true ∧
    isFinite (ready .util).par.feedback = true ∧ isFinite (ready .util).par.drywet = true ∧
    isFinite (smStep (ready .util).smGain (ready .util).par.gain kGain) = true ∧
    isZero 0x00000000 = true ∧ isZero 0x80000000 = true ∧
    isZero (ready .util).left.fb = true ∧ isZero (ready .util).right.fb = true ∧
    ringIsZero (ready .util).len (ready .util).left ∧ ringIsZero (ready .util).len (ready .util).right :=
  ⟨ready_inv .util, by decide, by decide, by decide, by decide, by decide, by decide, by decide, by decide, by decide,
    fun _ _ => rfl, fun _ _ => rfl⟩

/-- Between two PROCESS commands: WRREG, RDREG, RDMEM, NOP and an illegal word. -/
theorem test_witness_ProcessNumberWritesSlotModuloLength :
    ((ready .mod).Inv ∧ (ready .mod).prepared = true ∧ (ready .mod).left.wh = 0) ∧
    (∀ c ∈ ([⟨0x02000000, 1, 2⟩, ⟨0x03000004, 0x7FC00000, 0⟩, ⟨0x0400000F, 0, 0⟩, ⟨0x05000001, 9, 0⟩, ⟨0, 0, 0⟩,
      ⟨0xFFFFFFFF, 0, 0⟩, ⟨0x02000000, 3, 4⟩] : List Command), decodesTo isPrepare c = false) ∧
    ([⟨0x02000000, 1, 2⟩, ⟨0x03000004, 0x7FC00000, 0⟩, ⟨0xFFFFFFFF, 0, 0⟩, ⟨0x02000000, 3, 4⟩] : List Command).countP
      (decodesTo isProcess) = 2 := ⟨⟨ready_inv .mod, rfl, rfl⟩, by decide, by decide⟩

/-- At the largest length, and both sides of the equivalence at a length of four. -/
theorem test_witness_RangeCheckIsTheHalfOpenInterval :
    2 ^ 24 ≤ 2 ^ 24 ∧ delayInRange 4 0x407FFFFF = true ∧ delayInRange 4 0x80000000 = true ∧
      delayInRange 4 0x40800000 = false ∧ delayInRange 4 0x7FC00000 = false := by decide

theorem test_witness_ReadPositionIsInRange :
    (3 < 4 ∧ 4 ≤ 2 ^ 24 ∧ delayInRange 4 0x407FFFFF = true) ∧ (0 < 4 ∧ delayInRange 4 0x407FFFFF = true) ∧
      (0 < 1 ∧ delayInRange 1 plusZero = true) ∧ 2 ^ 24 - 1 < 2 ^ 24 := by decide

/-- The next slot infinite, then finite under a number, an infinity, a zero and a NaN; and a ring of one slot. -/
theorem test_witness_DelayZeroReturnsTheWordWritten :
    (Memory.wf [(1, 0x7F800000)] = true ∧ 0 < 4 ∧ 4 ≤ 2 ^ 2 ∧ 2 ≤ 24 ∧
      isFinite (Memory.read (Memory.write [(1, 0x7F800000)] 0 one) ((0 + 1) % 4)) = false) ∧
    (3 < 4 ∧ isFinite (Memory.read (Memory.write [(1, 0x7F800000)] 3 one) ((3 + 1) % 4)) = true ∧
      isFinite (Memory.read (Memory.write [(1, 0x7F800000)] 3 plusInf) ((3 + 1) % 4)) = true) ∧
    (isNaN one = false ∧ isZero one = false) ∧ (isNaN plusInf = false ∧ isZero plusInf = false) ∧
    (isNaN 0x80000000 = false ∧ isZero 0x80000000 = true) ∧ isNaN 0x7FC12345 = true ∧
    (0 < 1 ∧ isFinite (Memory.read (Memory.write [] 0 plusInf) ((0 + 1) % 1)) = false) := by decide

theorem test_witness_AdvanceWrapsAtTheLength : ({ Channel.reset with wh := 3 } : Channel).wh < 4 ∧ Channel.reset.wh < 1 := by decide

theorem test_witness_InterpReturnsItsEnds :
    isFinite 0x40400000 = true ∧ isFinite 0x80000000 = true ∧ isZero 0x40400000 = false := by decide

theorem test_witness_CrossfadeReturnsItsEnds :
    isFinite 0x3E99999A = true ∧ isFinite 0x80000000 = true ∧ isFinite 0x7F800000 = false ∧ isFinite 0x7FC00000 = false := by decide

theorem test_witness_SmootherStaysAtItsTarget :
    isFinite 0x3EC00000 = true ∧ feq 0x80000000 0x00000000 = true ∧ isFinite 0x80000000 = true ∧
      (kTime = kTime ∨ kTime = kGain) := by decide

/-- From below, from above, and at the target. -/
theorem test_witness_SmootherNeverOvershoots :
    (isFinite 0x00000000 = true ∧ isFinite one = true ∧ isFinite (fsub 0x00000000 one) = true ∧ fle 0x00000000 one = true) ∧
      (isFinite (fsub one 0x00000000) = true ∧ fle 0x00000000 one = true) ∧ fle one one = true := by decide

theorem test_witness_SmoothingKeepsTheDelayInRange :
    4 ≤ 2 ^ 24 ∧ finitePositive 0x40800000 = true ∧ isFinite 0x00000000 = true ∧ isFinite half = true ∧
      delayInRange 4 (delaySamples 0x00000000 0x40800000) = true ∧ delayInRange 4 (delaySamples half 0x40800000) = true := by decide

/-- The last phase with an offset below 1.0, and the last but one with 1.0, as an offset and as an increment. -/
theorem test_witness_PhaseStaysInTheUnitInterval :
    (inUnit 0x3F7FFFFF = true ∧ unitRange 0x3F7FFFFF = true ∧ ¬((0x3F7FFFFF : Word) = 0x3F7FFFFF ∧ (0x3F7FFFFF : Word) = one)) ∧
    (inUnit 0x3F7FFFFE = true ∧ unitRange one = true ∧ ¬((0x3F7FFFFE : Word) = 0x3F7FFFFF ∧ one = one)) ∧
    fdiv 0x42200000 0x42200000 = one := by decide

theorem test_witness_PhaseStaysInTheUnitIntervalUpToAWholeCycle :
    inUnit 0x3F7FFFFF = true ∧ fle plusZero (fdiv one one) = true ∧ fle (fdiv one one) one = true := by decide

/-- In the unit interval, a NaN, and neither. -/
theorem test_witness_LfoSineIsAdmissible :
    inUnit 0x00000000 = true ∧ inUnit 0x80000000 = true ∧ inUnit 0x3F7FFFFF = true ∧ isNaN 0x7FC12345 = true ∧
      (isNaN one = false ∧ inUnit one = false) := by decide

theorem test_witness_PeakReachesTheTopOfTheWindow : lfoSin 0x3E800000 = one := by decide

theorem test_witness_ModulatedDelayTimeIsAtMostTheWindowTop :
    inUnit 0x3F400000 = true ∧ inUnit 0x3F7FFFFF = true ∧ unitRange one = true ∧ unitRange 0x00000000 = true := by decide

/-- A sum that overflows and one that does not. -/
theorem test_witness_AdditionIsCorrectlyRounded : isFinite 0x7F7FFFFF = true ∧ isFinite 0x3F800001 = true := by decide

theorem test_witness_MultiplicationIsCorrectlyRounded : isFinite 0x7F7FFFFF = true ∧ isFinite 0x00000001 = true := by decide

theorem test_witness_DivisionIsCorrectlyRounded :
    isFinite 0x3F800000 = true ∧ isFinite 0x00000001 = true ∧ isZero 0x00000001 = false := by decide

theorem test_witness_SpecialValuesOfArithmetic :
    isFinite 0x80000000 = true ∧ isZero 0x80000000 = true ∧ isInf 0xFF800000 = true ∧ isNaN 0x7F800001 = true ∧
      isNaN (fadd 0x7F800000 0xFF800000) = true ∧ isNaN (fsub 0x7F800000 0x7F800000) = true ∧
      isNaN (fmul 0 0x7F800000) = true ∧ isNaN (fdiv 0 0) = true ∧ (isFinite one = true ∧ isZero one = false) := by decide

theorem test_witness_ComparisonsCompareValues : (isNaN 0x7F800001 = true ∧ isFinite 0x80000000 = true ∧ isFinite one = true) ∧
    (isNaN plusInf = false ∧ isNaN 0xFF800000 = false ∧ isNaN 0x80000000 = false ∧ isNaN 0x7F7FFFFF = false) := by decide

theorem test_witness_ConversionsAreExact :
    2 ^ 24 ≤ 2 ^ 24 ∧ isFinite 0x80000000 = true ∧ fle plusZero 0x80000000 = true ∧ fle plusZero 0x7F7FFFFF = true := by decide

theorem test_witness_ResetMeetsTheInvariant : 1 ≤ 1 ∧ 1 ≤ 24 ∧ 24 ≤ 24 := by decide

theorem test_witness_EveryStepKeepsTheInvariant :
    (ready .plain).Inv ∧ ∃ t, step (offering (.command ⟨0x02000000, 1, 2⟩) (ready .plain)) = .next t :=
  ⟨ready_inv .plain, nextState_some (by decide)⟩

theorem test_witness_EveryCommandIsAnswered : (ready .mod).Inv := ready_inv .mod

theorem test_witness_OnlyResetClearsAFaultBit :
    ((∃ t, step { State.reset with err := 0x7F } = .next t) ∧ ∀ rest, ({ State.reset with err := 0x7F } : State).pending ≠ .reset :: rest) ∧
      ({ State.reset with err := 0x7F } : State).recorded .badAddr = true ∧
      (offering .reset (ready .plain)).pending = .reset :: [] :=
  ⟨⟨⟨_, rfl⟩, fun _ h => by cases h⟩, by decide, rfl⟩

theorem test_witness_ResponseCodeAndBitNameTheFault :
    (∃ t, exec .nop State.reset = .next t) ∧ ∃ t, exec (.rdmem .left 4) (ready .plain) = .next t :=
  ⟨⟨_, rfl⟩, nextState_some (by decide)⟩

theorem test_witness_OnlyPrepareWritesTheLatchedState :
    (∃ t, step (offering (.command ⟨0x01000000, 0x472C4400, 0x40000000⟩) (ready .plain)) = .next t) ∧
      ∃ t, step (offering .reset (ready .plain)) = .next t := ⟨nextState_some (by decide), ⟨_, rfl⟩⟩

theorem test_witness_OnlyWrregWritesTheParameters :
    ∃ t, step (offering (.command ⟨0x03000006, 1, 0⟩) State.reset) = .next t ∧ t.par ≠ State.reset.par :=
  ⟨_, rfl, by decide⟩

theorem test_witness_ObserversChangeNothing :
    (∃ t, exec .nop State.reset = .next t) ∧ (∃ t, exec (.rdreg 0x08) State.reset = .next t) ∧
      ∃ t, exec (.rdmem .right 3) (ready .util) = .next t :=
  ⟨⟨_, rfl⟩, nextState_some (by decide), nextState_some (by decide)⟩

/-- A PREPARE that succeeds, a PROCESS, an RDMEM. -/
theorem test_witness_UnpreparedUntilAPrepareSucceeds :
    State.reset.prepared = false ∧
      (∃ t, step (offering (.command ⟨0x01000002, 0x40800000, 0x3F800000⟩) State.reset) = .next t ∧ t.prepared = true) ∧
      (decode ⟨0x02000000, 1, 2⟩ = .ok (.process 1 2) ∧ ∃ t, step (offering (.command ⟨0x02000000, 1, 2⟩) State.reset) = .next t) ∧
      (decode ⟨0x05000000, 1, 2⟩ = .ok (.rdmem .left 1) ∧ ∃ t, step (offering (.command ⟨0x05000000, 1, 2⟩) State.reset) = .next t) :=
  ⟨rfl, ⟨_, rfl, by decide⟩, ⟨rfl, nextState_some (by decide)⟩, ⟨rfl, nextState_some (by decide)⟩⟩

/-- Two states that differ in a word past the length, and a step of the first. -/
theorem test_witness_HiddenMemoryIsUnobservable :
    (ready .plain).Inv ∧ ({ ready .plain with left := ⟨0, 0, [(4, one)], 0⟩ } : State).Inv ∧
      SameVisible (ready .plain) { ready .plain with left := ⟨0, 0, [(4, one)], 0⟩ } ∧ ∃ t, step (ready .plain) = .next t := by
  refine ⟨ready_inv .plain, ?_, ⟨rfl, fun _ i hi => ?_, fun _ _ _ => rfl⟩, ⟨_, rfl⟩⟩
  · constructor <;> decide
  · have : i ≠ 4 := Nat.ne_of_lt hi
    simp [memory_read_cons, this]
    rfl

/-- A PROCESS in MOD with an increment of 1.0, and a WRREG from the phase where a PROCESS could not follow. -/
theorem test_witness_EveryStepKeepsThePhaseInTheUnitInterval :
    (∃ t, step (offering (.command ⟨0x02000000, one, half⟩)
        (four .mod { Params.reset with rate := 0x40800000 })) = .next t) ∧
      inUnit (four .mod { Params.reset with rate := 0x40800000 }).phase = true ∧
      decodesTo isProcess ⟨0x02000000, one, half⟩ = true ∧ fdiv 0x40800000 0x40800000 = one ∧ unitRange one = true ∧
      ¬(plusZero = 0x3F7FFFFF ∧ one = one) ∧
    inUnit 0x3F7FFFFF = true ∧ decodesTo isProcess ⟨0x03000007, one, 0⟩ = false ∧
      ∃ t, step (offering (.command ⟨0x03000007, one, 0⟩) { ready .mod with phase := 0x3F7FFFFF }) = .next t :=
  ⟨nextState_some (by decide +kernel), by decide, by decide, by decide, by decide, by decide, by decide, by decide,
    nextState_some (by decide)⟩

end Sys2Proof.Tests
end

section
/-! PROOFS. Correct rounding (R11, R19). The rounded magnitude `roundBits n d` is compared with the magnitude of every
other pattern, which gives `RoundsTo` for a result without a sign; `RoundsTo.fneg` carries it over to the other sign, and
each primitive is then one rewriting of its exact result as `n / d` units. -/

namespace Sys2Proof.Machine

/-! ### The neighbours of a rounded magnitude -/

/-- No larger pattern is nearer than the rounded one, and a tie with one makes the rounded one even. -/
theorem le_midpoint_of_roundBits_lt {n d k : Nat} (hd : 0 < d) (h : roundBits n d < k) :
    2 * n ≤ (bitsUnits (roundBits n d) + bitsUnits k) * d ∧
      (2 * n = (bitsUnits (roundBits n d) + bitsUnits k) * d → roundBits n d % 2 = 0) := by
  have hself := lt_roundBits_iff (n := n) hd (roundBits n d)
  have hnext : (bitsUnits (roundBits n d) + bitsUnits (roundBits n d + 1)) * d ≤
      (bitsUnits (roundBits n d) + bitsUnits k) * d := by gcongr; exact bitsUnits_mono h
  omega

/-- No smaller pattern is nearer than the rounded one, and a tie with one makes the rounded one even. -/
theorem midpoint_le_of_lt_roundBits {n d k : Nat} (hd : 0 < d) (h : k < roundBits n d) :
    (bitsUnits k + bitsUnits (roundBits n d)) * d ≤ 2 * n ∧
      (2 * n = (bitsUnits k + bitsUnits (roundBits n d)) * d → roundBits n d % 2 = 0) := by
  obtain ⟨p, hp⟩ : ∃ p, roundBits n d = p + 1 := ⟨roundBits n d - 1, by omega⟩
  have hprev := lt_roundBits_iff (n := n) hd p
  rw [hp] at h hprev ⊢
  have hle : (bitsUnits k + bitsUnits (p + 1)) * d ≤ (bitsUnits p + bitsUnits (p + 1)) * d := by
    gcongr; exact bitsUnits_mono (by omega)
  omega

/-- The same for a signed value above the rounded magnitude: it is the magnitude of a larger pattern. -/
theorem le_midpoint_of_lt_units {n d : Nat} (hd : 0 < d) {v : Word} (h : (bitsUnits (roundBits n d) : Int) < valueUnits v) :
    2 * (n : Int) ≤ (valueUnits v + bitsUnits (roundBits n d)) * d ∧
      (2 * (n : Int) = (valueUnits v + bitsUnits (roundBits n d)) * d → roundBits n d % 2 = 0) := by
  have hv : valueUnits v = bitsUnits (magBits v) := valueUnits_nonneg (by omega)
  rw [hv] at h ⊢
  have hk := le_midpoint_of_roundBits_lt hd (bitsUnits_strictMono.lt_iff_lt.mp (Int.ofNat_lt.mp h))
  rw [Nat.add_comm] at hk
  exact_mod_cast hk

/-- The same for a signed value below the rounded magnitude: it is at most the magnitude of a smaller pattern, or it is
negative where the rounded magnitude is zero. -/
theorem midpoint_le_of_units_lt {n d : Nat} (hd : 0 < d) {v : Word} (h : valueUnits v < bitsUnits (roundBits n d)) :
    (valueUnits v + bitsUnits (roundBits n d)) * d ≤ 2 * (n : Int) ∧
      (2 * (n : Int) = (valueUnits v + bitsUnits (roundBits n d)) * d → roundBits n d % 2 = 0) := by
  rcases Nat.eq_zero_or_pos (roundBits n d) with h0 | hpos
  · rw [h0, bitsUnits_zero] at h ⊢
    have : (valueUnits v + (0 : Nat)) * (d : Int) ≤ 0 := mul_nonpos_of_nonpos_of_nonneg (by omega) (by omega)
    exact ⟨by omega, fun _ => rfl⟩
  · obtain ⟨k, hk, hvk⟩ : ∃ k, k < roundBits n d ∧ valueUnits v ≤ bitsUnits k := by
      rcases Int.le_total 0 (valueUnits v) with hv | hv
      · rw [valueUnits_nonneg hv] at h ⊢
        exact ⟨magBits v, bitsUnits_strictMono.lt_iff_lt.mp (Int.ofNat_lt.mp h), le_rfl⟩
      · exact ⟨0, hpos, by simpa using hv⟩
    have hmid := midpoint_le_of_lt_roundBits hd hk
    have hle : (valueUnits v + bitsUnits (roundBits n d)) * (d : Int) ≤
        ((bitsUnits k + bitsUnits (roundBits n d)) * d : Nat) := by push_cast; gcongr
    omega

/-! ### Overflow -/

/-- The infinity's bits are reached exactly from the midpoint between the largest finite magnitude and the infinity's. -/
theorem infBits_le_roundBits_iff {n d : Nat} (hd : 0 < d) : infBits ≤ roundBits n d ↔ (2 ^ 25 - 1) * 2 ^ 252 * d ≤ n := by
  have h := lt_roundBits_iff (n := n) hd (infBits - 1)
  have hmid : bitsUnits (infBits - 1) + bitsUnits (infBits - 1 + 1) = 2 * ((2 ^ 25 - 1) * 2 ^ 252) := by decide +kernel
  rw [hmid, mul_assoc 2] at h
  rw [infBits_eq] at h ⊢
  omega

/-- The threshold of R19 in units. -/
theorem overflow_le_iff {n d : Nat} (hd : 0 < d) :
    ((2 - 1 / 2 ^ 24) * 2 ^ 127 : Rat) ≤ n / (d * 2 ^ 149) ↔ (2 ^ 25 - 1) * 2 ^ 252 * d ≤ n := by
  have hd' : (0 : Rat) < d * 2 ^ 149 := by positivity
  rw [le_div_iff₀ hd', ← Nat.cast_le (α := Rat) (n := n)]
  rw [show ((2 - 1 / 2 ^ 24) * 2 ^ 127 * (d * 2 ^ 149) : Rat) = ((2 ^ 25 - 1) * 2 ^ 252 * d : Nat) by push_cast; ring]

/-! ### Distances -/

/-- How much farther from `n / d` units a value of `V` units is than one of `U` units, in squares. -/
theorem sq_distance_sub {n d : Nat} (hd : 0 < d) (U V : Int) :
    ((V : Rat) / 2 ^ 149 - n / (d * 2 ^ 149)) * (V / 2 ^ 149 - n / (d * 2 ^ 149)) -
      (U / 2 ^ 149 - n / (d * 2 ^ 149)) * (U / 2 ^ 149 - n / (d * 2 ^ 149)) =
      (((V - U) * ((V + U) * d - 2 * n) : Int) : Rat) / (d * 2 ^ 298) := by
  have : (d : Rat) ≠ 0 := by positivity
  push_cast
  field_simp
  ring

/-! ### A magnitude and its sign -/

/-- A rounded magnitude below the infinity's is `roundBits`. -/
theorem roundMag_of_lt {n d : Nat} (h : roundMag n d < infBits) : roundMag n d = roundBits n d := by
  rw [roundMag_eq] at h ⊢; omega

theorem isFinite_packBits (neg : Bool) {m : Nat} (h : m ≤ infBits) : isFinite (packBits neg m) = true ↔ m < infBits := by
  rw [isFinite_iff, magBits_packBits neg (h.trans_lt infBits_lt)]

/-- The magnitude `n / d` units is rounded as R19 says. -/
theorem roundsTo_roundMag {n d : Nat} (hd : 0 < d) : RoundsTo (n / (d * 2 ^ 149)) (packBits false (roundMag n d)) := by
  have hr : (0 : Rat) ≤ n / (d * 2 ^ 149) := by positivity
  have hfin := isFinite_packBits false (roundMag_le n d)
  have hval : isFinite (packBits false (roundMag n d)) = true →
      valueRat (packBits false (roundMag n d)) = (bitsUnits (roundBits n d) : Int) / 2 ^ 149 := fun h => by
    rw [valueRat, valueUnits_packBits _ (roundMag_lt n d), roundMag_of_lt (hfin.mp h)]; rfl
  constructor
  case overflow =>
    intro h
    rw [overflow_le_iff hd, ← infBits_le_roundBits_iff hd] at h
    rw [roundMag_eq, min_eq_right h]
  case overflow_neg =>
    intro h
    exact absurd (hr.trans h) (by norm_num)
  case finite =>
    intro _ h
    rw [← not_le, overflow_le_iff hd, ← infBits_le_roundBits_iff hd, not_le] at h
    rw [hfin, roundMag_eq]
    exact min_lt_of_left_lt h
  case sign =>
    intro _
    rw [signBit_packBits _ (roundMag_lt n d), decide_eq_false hr.not_gt]
  case nearest =>
    intro hw v _
    rw [hval hw, valueRat, ← sub_nonneg, sq_distance_sub hd]
    have hprod : 0 ≤ (valueUnits v - bitsUnits (roundBits n d)) *
        ((valueUnits v + bitsUnits (roundBits n d)) * d - 2 * (n : Int)) := by
      rcases lt_trichotomy (valueUnits v) (bitsUnits (roundBits n d)) with h | h | h
      · have hmid := (midpoint_le_of_units_lt hd h).1
        exact mul_nonneg_of_nonpos_of_nonpos (by omega) (by omega)
      · rw [h, sub_self, zero_mul]
      · have hmid := (le_midpoint_of_lt_units hd h).1
        exact mul_nonneg (by omega) (by omega)
    exact div_nonneg (by exact_mod_cast hprod) (by positivity)
  case even =>
    intro hw v _ hne heq
    rw [fracField_eq, magBits_packBits _ (roundMag_lt n d), roundMag_of_lt (hfin.mp hw)]
    suffices h : roundBits n d % 2 = 0 by omega
    rw [hval hw, valueRat] at hne heq
    have hne' : valueUnits v ≠ bitsUnits (roundBits n d) := fun h => hne (by rw [h])
    have hprod := sq_distance_sub (n := n) hd (bitsUnits (roundBits n d)) (valueUnits v)
    rw [heq, sub_self, eq_comm, div_eq_zero_iff] at hprod
    have hzero := Int.cast_eq_zero.mp (hprod.resolve_right (by positivity))
    have htie := (mul_eq_zero.mp hzero).resolve_left (by omega)
    rcases lt_or_gt_of_ne hne' with h | h
    · exact (midpoint_le_of_units_lt hd h).2 (by omega)
    · exact (le_midpoint_of_lt_units hd h).2 (by omega)

theorem fneg_packBits (neg : Bool) {m : Nat} (h : m < 2 ^ 31) : fneg (packBits neg m) = packBits (!neg) m :=
  word_ext (by rw [signBit_fneg, signBit_packBits _ h, signBit_packBits _ h])
    (by rw [magBits_fneg, magBits_packBits _ h, magBits_packBits _ h])

theorem valueRat_fneg (a : Word) : valueRat (fneg a) = -valueRat a := by
  rw [valueRat, valueUnits_fneg, Int.cast_neg, neg_div, valueRat]

/-- Rounding commutes with the change of the sign. -/
theorem RoundsTo.fneg {r : Rat} {w : Word} (h : RoundsTo r w) : RoundsTo (-r) (fneg w) := by
  have hsq : ∀ v, (valueRat v - -r) * (valueRat v - -r) =
      (valueRat (Machine.fneg v) - r) * (valueRat (Machine.fneg v) - r) := fun v => by rw [valueRat_fneg]; ring
  have hsq' : (valueRat (Machine.fneg w) - -r) * (valueRat (Machine.fneg w) - -r) =
      (valueRat w - r) * (valueRat w - r) := by rw [valueRat_fneg]; ring
  constructor
  case overflow =>
    intro hr
    rw [h.overflow_neg (by linarith), fneg_packBits _ infBits_lt]; rfl
  case overflow_neg =>
    intro hr
    rw [h.overflow (by linarith), fneg_packBits _ infBits_lt]; rfl
  case finite =>
    intro h1 h2
    rw [isFinite_fneg, h.finite (by linarith) (by linarith)]
  case sign =>
    intro hr
    have hr' : r ≠ 0 := neg_ne_zero.mp hr
    rw [signBit_fneg, h.sign hr', ← decide_not, decide_eq_decide, not_lt, neg_lt_zero]
    exact ⟨fun h0 => lt_of_le_of_ne h0 hr'.symm, le_of_lt⟩
  case nearest =>
    intro hw v hv
    rw [hsq', hsq v]
    exact h.nearest (by simpa using hw) _ (by simpa using hv)
  case even =>
    intro hw v hv hne heq
    rw [hsq', hsq v] at heq
    rw [fracField_eq, magBits_fneg, ← fracField_eq]
    refine h.even (by simpa using hw) _ (by simpa using hv) (fun he => hne ?_) heq
    rw [valueRat_fneg, ← he, valueRat_fneg, neg_neg]

/-- A magnitude of `n / d` units with a sign is rounded as R19 says. -/
theorem roundsTo_packBits (neg : Bool) {n d : Nat} (hd : 0 < d) :
    RoundsTo (if neg then -(n / (d * 2 ^ 149)) else n / (d * 2 ^ 149)) (packBits neg (roundMag n d)) := by
  cases neg
  · exact roundsTo_roundMag hd
  · have h := (roundsTo_roundMag (n := n) hd).fneg
    rwa [fneg_packBits _ (roundMag_lt n d)] at h

/-! ### The primitives -/

/-- A whole number of units, rounded with its sign; for zero any sign stands. -/
theorem roundsTo_units (x : Int) (neg : Bool) (h : x ≠ 0 → neg = decide (x < 0)) :
    RoundsTo (x / 2 ^ 149) (packBits neg (roundMag x.natAbs 1)) := by
  have hr := roundsTo_packBits neg (n := x.natAbs) Nat.one_pos
  convert hr using 1
  rw [Nat.cast_natAbs, Nat.cast_one, one_mul]
  rcases lt_trichotomy x 0 with hx | rfl | hx
  · rw [h hx.ne, decide_eq_true hx, if_pos rfl, abs_of_neg hx]; push_cast; ring
  · simp
  · rw [h hx.ne', decide_eq_false hx.not_gt, if_neg (by decide), abs_of_pos hx]

theorem fadd_roundsTo {a b : Word} (ha : isFinite a = true) (hb : isFinite b = true) :
    RoundsTo (valueRat a + valueRat b) (fadd a b) := by
  have hsum : valueRat a + valueRat b = ((valueUnits a + valueUnits b : Int) : Rat) / 2 ^ 149 := by
    rw [valueRat, valueRat, ← add_div, Int.cast_add]
  rw [hsum, fadd_finite ha hb]
  split
  case isTrue h =>
    rw [h]
    exact roundsTo_units 0 _ (absurd rfl)
  case isFalse => exact roundsTo_units _ _ fun _ => rfl

theorem fsub_roundsTo {a b : Word} (ha : isFinite a = true) (hb : isFinite b = true) :
    RoundsTo (valueRat a - valueRat b) (fsub a b) := by
  rw [fsub, sub_eq_add_neg, ← valueRat_fneg]
  exact fadd_roundsTo ha (by simpa using hb)

/-- The value of a pattern as its sign and its magnitude. -/
theorem valueRat_eq (w : Word) :
    valueRat w = if signBit w then -((bitsUnits (magBits w) : Rat) / 2 ^ 149) else (bitsUnits (magBits w) : Rat) / 2 ^ 149 := by
  rw [valueRat, valueUnits_eq]
  split
  · rw [Int.cast_neg, Int.cast_natCast, neg_div]
  · rw [Int.cast_natCast]

theorem fmul_roundsTo {a b : Word} (ha : isFinite a = true) (hb : isFinite b = true) :
    RoundsTo (valueRat a * valueRat b) (fmul a b) := by
  rw [fmul_finite ha hb]
  convert roundsTo_packBits (signBit a != signBit b) (n := bitsUnits (magBits a) * bitsUnits (magBits b))
    (d := 2 ^ 149) (by positivity) using 1
  have hmag : ((bitsUnits (magBits a) * bitsUnits (magBits b) : Nat) : Rat) / ((2 ^ 149 : Nat) * 2 ^ 149) =
      bitsUnits (magBits a) / 2 ^ 149 * (bitsUnits (magBits b) / 2 ^ 149) := by
    rw [div_mul_div_comm, Nat.cast_mul, Nat.cast_pow, Nat.cast_ofNat]
  rw [hmag, valueRat_eq a, valueRat_eq b]
  cases signBit a <;> cases signBit b <;> simp

theorem fdiv_roundsTo {a b : Word} (ha : isFinite a = true) (hb : isFinite b = true) (h0 : isZero b = false) :
    RoundsTo (valueRat a / valueRat b) (fdiv a b) := by
  have hpos : 0 < bitsUnits (magBits b) := by
    rw [Nat.pos_iff_ne_zero, Ne, bitsUnits_eq_zero, ← isZero_iff, h0]; decide
  rw [fdiv_finite ha hb h0]
  convert roundsTo_packBits (signBit a != signBit b) (n := bitsUnits (magBits a) * 2 ^ 149) hpos using 1
  have hmag : ((bitsUnits (magBits a) * 2 ^ 149 : Nat) : Rat) / (bitsUnits (magBits b) * 2 ^ 149) =
      bitsUnits (magBits a) / 2 ^ 149 / (bitsUnits (magBits b) / 2 ^ 149) := by
    rw [Nat.cast_mul, Nat.cast_pow, Nat.cast_ofNat, mul_div_mul_right _ _ (by positivity), div_div_div_cancel_right₀ (by positivity)]
  rw [hmag, valueRat_eq a, valueRat_eq b]
  cases signBit a <;> cases signBit b <;> simp [neg_div, div_neg]

/-- Settles O38: the exact sum or difference is a whole number of units, rounded once. -/
theorem additionIsCorrectlyRounded : Obligations.AdditionIsCorrectlyRounded :=
  fun _ _ ha hb => ⟨fadd_roundsTo ha hb, fsub_roundsTo ha hb⟩

/-- Settles O39: the exact product is the product of the magnitudes over 2^149 units, rounded once. -/
theorem multiplicationIsCorrectlyRounded : Obligations.MultiplicationIsCorrectlyRounded :=
  fun _ _ ha hb => fmul_roundsTo ha hb

/-- Settles O40: the exact quotient is a quotient of whole numbers of units, rounded once. -/
theorem divisionIsCorrectlyRounded : Obligations.DivisionIsCorrectlyRounded :=
  fun _ _ ha hb h0 => fdiv_roundsTo ha hb h0

end Sys2Proof.Machine
end

section
/-! PROOFS. Signed zeros, invalid operations, division by zero and the one NaN (R12); the comparisons (R13); the
conversions (R14). -/

namespace Sys2Proof.Machine

/-! ### The kinds of pattern -/

theorem not_nan_of_inf {w : Word} (h : isInf w = true) : isNaN w = false := by
  rw [Bool.eq_false_iff, Ne, isNaN_iff, (isInf_iff w).mp h]; exact lt_irrefl _

theorem finite_of_zero {w : Word} (h : isZero w = true) : isFinite w = true := by
  rw [isFinite_iff, (isZero_iff w).mp h]; decide

theorem isNaN_packBits (neg : Bool) {m : Nat} (h : m ≤ infBits) : isNaN (packBits neg m) = false := by
  rw [Bool.eq_false_iff, Ne, isNaN_iff, magBits_packBits neg (h.trans_lt infBits_lt), not_lt]; exact h

theorem roundMag_zero {d : Nat} (hd : 0 < d) : roundMag 0 d = 0 :=
  roundMag_exact hd (by decide) (by simp)

/-! ### Signed zeros, invalid operations, division by zero (R12) -/

theorem fsub_self {x : Word} (h : isFinite x = true) : fsub x x = packBits false 0 := by
  rw [fsub_finite h h, if_pos (sub_self _), Bool.and_not_self]

theorem fmul_comm (a b : Word) : fmul a b = fmul b a := by
  simp only [fmul, Bool.or_comm, Nat.mul_comm, bne_comm]

theorem zero_fmul {a b : Word} (ha : isZero a = true) (hb : isFinite b = true) :
    fmul a b = packBits (signBit a != signBit b) 0 := by
  rw [fmul_finite (finite_of_zero ha) hb, (isZero_iff a).mp ha, bitsUnits_zero, Nat.zero_mul, roundMag_zero (by positivity)]

theorem zero_fmul_inf {a b : Word} (ha : isZero a = true) (hb : isInf b = true) : fmul a b = canonicalNaN := by
  simp [fmul, ha, hb, not_nan_of_inf hb, not_nan_of_finite (finite_of_zero ha)]

theorem fdiv_zero {a b : Word} (ha : isFinite a = true) (hb : isZero b = true) :
    fdiv a b = if isZero a then canonicalNaN else packBits (signBit a != signBit b) infBits := by
  have hb' := finite_of_zero hb
  simp [fdiv, hb, not_nan_of_finite ha, not_nan_of_finite hb', not_inf_of_finite ha, not_inf_of_finite hb']

theorem fdiv_inf_inf {a b : Word} (ha : isInf a = true) (hb : isInf b = true) : fdiv a b = canonicalNaN := by
  simp [fdiv, ha, hb, not_nan_of_inf ha, not_nan_of_inf hb]

/-! ### The one NaN (R12 b): each primitive answers the canonical NaN, an operand that is none, or packed bits -/

theorem fadd_canonical_or_not_nan (a b : Word) : fadd a b = canonicalNaN ∨ isNaN (fadd a b) = false := by
  rcases finite_or a with ha | ha | ha
  · rcases finite_or b with hb | hb | hb
    · exact .inr (fadd_not_nan ha hb)
    · have : fadd a b = b := by
        simp [fadd, hb, not_nan_of_finite ha, not_nan_of_inf hb, not_inf_of_finite ha]
      exact .inr (by rw [this]; exact not_nan_of_inf hb)
    · exact .inl (fadd_nan (.inr hb))
  · cases hb : isNaN b
    · have : fadd a b = if isInf b && signBit a != signBit b then canonicalNaN else a := by
        simp [fadd, ha, hb, not_nan_of_inf ha]
      rw [this]
      split
      · exact .inl rfl
      · exact .inr (not_nan_of_inf ha)
    · exact .inl (fadd_nan (.inr hb))
  · exact .inl (fadd_nan (.inl ha))

theorem fmul_canonical_or_not_nan (a b : Word) : fmul a b = canonicalNaN ∨ isNaN (fmul a b) = false := by
  unfold fmul
  split
  · exact .inl rfl
  split
  · split
    · exact .inl rfl
    · exact .inr (isNaN_packBits _ le_rfl)
  · exact .inr (isNaN_packBits _ (roundMag_le _ _))

theorem fdiv_canonical_or_not_nan (a b : Word) : fdiv a b = canonicalNaN ∨ isNaN (fdiv a b) = false := by
  unfold fdiv
  split
  · exact .inl rfl
  split
  · split
    · exact .inl rfl
    · exact .inr (isNaN_packBits _ le_rfl)
  split
  · exact .inr (isNaN_packBits _ (by decide))
  split
  · split
    · exact .inl rfl
    · exact .inr (isNaN_packBits _ le_rfl)
  · exact .inr (isNaN_packBits _ (roundMag_le _ _))

theorem eq_canonical_of_nan {w : Word} (h : w = canonicalNaN ∨ isNaN w = false) (hn : isNaN w = true) :
    w = 0x7FC00000 :=
  h.resolve_right (by rw [hn]; decide)

/-- Settles O41, clause by clause of R12. -/
theorem specialValuesOfArithmetic : Obligations.SpecialValuesOfArithmetic := by
  refine ⟨by decide, fun _ => fsub_self, fun a b ha hb => ⟨zero_fmul ha hb, fmul_comm a b ▸ zero_fmul ha hb⟩,
    fun a b ha hb => ⟨zero_fmul_inf ha hb, fmul_comm a b ▸ zero_fmul_inf ha hb⟩, by decide,
    fun a b ha hb => ?zeroByZero, fun _ _ => fdiv_inf_inf, fun a b ha h0 hb => ?byZero,
    fun a b h => ⟨fadd_nan h, fsub_nan h, fmul_nan h, fdiv_nan h⟩,
    fun a b => ⟨eq_canonical_of_nan (fadd_canonical_or_not_nan a b),
      eq_canonical_of_nan (fadd_canonical_or_not_nan a (fneg b)), eq_canonical_of_nan (fmul_canonical_or_not_nan a b),
      eq_canonical_of_nan (fdiv_canonical_or_not_nan a b)⟩⟩
  case zeroByZero =>
    rw [fdiv_zero (finite_of_zero ha) hb, if_pos ha]; rfl
  case byZero =>
    rw [fdiv_zero ha hb, h0]; rfl

/-! ### Comparisons (R13) -/

/-- The value that a number of units of 2^-149 stands for, infinite from the infinity's magnitude on. -/
def unitsValue (u : Int) : WithBot (WithTop ℚ) :=
  if u ≤ -(bitsUnits infBits : Int) then ⊥
  else if (bitsUnits infBits : Int) ≤ u then ((⊤ : WithTop ℚ) : WithBot (WithTop ℚ))
  else (((u : ℚ) / 2 ^ 149 : ℚ) : WithTop ℚ)

/-- The units of a pattern that is no NaN lie between the two infinities'. -/
theorem valueUnits_mem_Icc {w : Word} (h : isNaN w = false) :
    valueUnits w ∈ Set.Icc (-(bitsUnits infBits : Int)) (bitsUnits infBits) := by
  rw [Bool.eq_false_iff, Ne, isNaN_iff, not_lt] at h
  have hle := bitsUnits_mono h
  rw [← natAbs_valueUnits] at hle
  exact ⟨by omega, by omega⟩

theorem finite_iff_mem_Ioo (w : Word) :
    isFinite w = true ↔ -(bitsUnits infBits : Int) < valueUnits w ∧ valueUnits w < bitsUnits infBits := by
  rw [finite_iff_natAbs]; omega

theorem extValue_eq_unitsValue {w : Word} (h : isNaN w = false) : extValue w = unitsValue (valueUnits w) := by
  unfold extValue unitsValue
  rcases finite_or w with hf | hi | hn
  · have hIoo := (finite_iff_mem_Ioo w).mp hf
    rw [not_inf_of_finite hf, if_neg (by decide), if_neg (by omega), if_neg (by omega)]; rfl
  · have hpos : 0 < bitsUnits infBits := bitsUnits_strictMono (a := 0) (by decide)
    rw [hi, if_pos rfl, valueUnits_eq, (isInf_iff w).mp hi]
    cases signBit w
    · simp only [Bool.false_eq_true, if_false]
      rw [if_neg (by omega), if_pos le_rfl]
    · simp only [if_true, le_rfl]
  · rw [h] at hn; cases hn

theorem unitsValue_strictMonoOn :
    StrictMonoOn unitsValue (Set.Icc (-(bitsUnits infBits : Int)) (bitsUnits infBits)) := by
  intro x hx y hy hxy
  obtain ⟨hx, -⟩ := hx
  obtain ⟨-, hy⟩ := hy
  have hy' : ¬ y ≤ -(bitsUnits infBits : Int) := by omega
  have hx' : ¬ (bitsUnits infBits : Int) ≤ x := by omega
  unfold unitsValue
  rw [if_neg hy', if_neg hx']
  split
  · split <;> exact WithBot.bot_lt_coe _
  · split
    · exact WithBot.coe_lt_coe.mpr (WithTop.coe_lt_top _)
    · refine WithBot.coe_lt_coe.mpr (WithTop.coe_lt_coe.mpr ?_)
      gcongr

theorem extValue_lt_iff {a b : Word} (ha : isNaN a = false) (hb : isNaN b = false) :
    extValue a < extValue b ↔ valueUnits a < valueUnits b := by
  rw [extValue_eq_unitsValue ha, extValue_eq_unitsValue hb]
  exact unitsValue_strictMonoOn.lt_iff_lt (valueUnits_mem_Icc ha) (valueUnits_mem_Icc hb)

theorem extValue_le_iff {a b : Word} (ha : isNaN a = false) (hb : isNaN b = false) :
    extValue a ≤ extValue b ↔ valueUnits a ≤ valueUnits b := by
  rw [← not_lt, extValue_lt_iff hb ha, not_lt]

theorem extValue_eq_iff {a b : Word} (ha : isNaN a = false) (hb : isNaN b = false) :
    extValue a = extValue b ↔ valueUnits a = valueUnits b := by
  rw [le_antisymm_iff, extValue_le_iff ha hb, extValue_le_iff hb ha, ← le_antisymm_iff]

/-- The three comparisons of two words that are no NaN, the first of smaller value. -/
theorem comparisons_of_lt {a b : Word} (ha : isNaN a = false) (hb : isNaN b = false) (h : valueUnits a < valueUnits b) :
    flt a b = true ∧ fle a b = true ∧ feq a b = false ∧ feq b a = false ∧ flt b a = false ∧ fle b a = false := by
  refine ⟨(flt_iff ha hb).mpr h, (fle_iff ha hb).mpr h.le, ?_, ?_, ?_, ?_⟩
  all_goals rw [Bool.eq_false_iff, Ne]
  · rw [feq_iff ha hb]; omega
  · rw [feq_iff hb ha]; omega
  · rw [flt_iff hb ha]; omega
  · rw [fle_iff hb ha]; omega

/-- Settles O42: the comparisons compare units of 2^-149, and so do the values with the infinities at the ends. -/
theorem comparisonsCompareValues : Obligations.ComparisonsCompareValues := by
  refine ⟨fun a b h => ⟨flt_nan h, fle_nan h, feq_nan h⟩, fun a b ha hb => ⟨?lt, ?le, ?eq⟩, fun a ha => ⟨?top, ?bot⟩,
    by decide, by decide⟩
  case lt => rw [flt_iff ha hb, extValue_lt_iff ha hb]
  case le => rw [fle_iff ha hb, extValue_le_iff ha hb]
  case eq => rw [feq_iff ha hb, extValue_eq_iff ha hb]
  case top =>
    have htop : valueUnits plusInf = bitsUnits infBits := by decide +kernel
    obtain ⟨h1, h2, h3, -, h4, h5⟩ := comparisons_of_lt (not_nan_of_finite ha) (b := plusInf) rfl
      (by rw [htop]; exact ((finite_iff_mem_Ioo a).mp ha).2)
    exact ⟨h1, h2, h3, h4, h5⟩
  case bot =>
    have hbot : valueUnits 0xFF800000 = -bitsUnits infBits := by decide +kernel
    obtain ⟨h1, h2, -, h3, h4, h5⟩ := comparisons_of_lt (a := 0xFF800000) rfl (not_nan_of_finite ha)
      (by rw [hbot]; exact ((finite_iff_mem_Ioo a).mp ha).1)
    exact ⟨h1, h2, h3, h4, h5⟩

/-! ### Conversions (R14) -/

theorem valueRat_u2f {n : Nat} (h : n ≤ 2 ^ 24) : valueRat (u2f n) = n := by
  rw [valueRat, valueUnits_u2f h, Int.cast_mul, Int.cast_natCast, Int.cast_pow, Int.cast_ofNat,
    mul_div_cancel_right₀ _ (by positivity)]

/-- `ifloor` is the floor of a value that is not negative. -/
theorem ifloor_floor {v : Word} (h : 0 ≤ valueUnits v) : (ifloor v : Rat) ≤ valueRat v ∧ valueRat v < ifloor v + 1 := by
  have hlo : ifloor v * 2 ^ 149 ≤ bitsUnits (magBits v) := le_ifloor.mp le_rfl
  have hhi : bitsUnits (magBits v) < (ifloor v + 1) * 2 ^ 149 := ifloor_lt.mp (Nat.lt_succ_self _)
  rw [valueRat, valueUnits_nonneg h, Int.cast_natCast, le_div_iff₀ (by positivity), div_lt_iff₀ (by positivity)]
  exact ⟨by exact_mod_cast hlo, by exact_mod_cast hhi⟩

/-- Settles O43: a number up to 2^24 has a pattern of its own, and `ifloor` divides by the units of 1.0. -/
theorem conversionsAreExact : Obligations.ConversionsAreExact := by
  refine ⟨fun n hn => ⟨isFinite_u2f hn, valueRat_u2f hn⟩, fun v hv h0 => ifloor_floor ?_⟩
  rwa [fle_iff rfl (not_nan_of_finite hv), valueUnits_plusZero] at h0

end Sys2Proof.Machine
end

section
/-! PROOFS. What a command can do to the state, said once (`Effect`), and, the other way round, when it answers what.
-/

namespace Sys2Proof.Machine

/-! ### Everything a command can do -/

/-- The next states of a command: an answer and nothing else; a fault and nothing else; a PREPARE that fails or succeeds;
a parameter register written; a PROCESS carried out. -/
inductive Effect (s : State) : Instr → State → Prop
  | answered (i : Instr) (w : Word) : Effect s i (respondOk w 0 s)
  | rejected (i : Instr) (f : CmdFault) : Effect s i (reject f s)
  | prepareFailed (i : Instr) (f : CmdFault) : Effect s i (reject f { s with prepared := false })
  | prepared (v : Variant) {sr m : Word} {n : Nat} (hn : prepareLength s.aw sr m = .ok n) :
      Effect s (prepareInstr v sr m) (respondOk (BitVec.ofNat 32 n) 0 (prepareState v sr m n s))
  | parameter {idx : Nat} (v : Word) {r : ParamReg} (hr : paramOfIdx idx = some r) :
      Effect s (.wrreg idx v) (respondOk 0 0 { s with par := writeParam r v s.par })
  | processed {inL inR : Word} {l r : ChannelStep} (hp : s.prepared = true)
      (hl : channelStep .left s.aw s.len (s.delayOf .left) s.par.feedback inL s.left = .ok l)
      (hr : channelStep .right s.aw s.len (s.delayOf .right) s.par.feedback inR s.right = .ok r) :
      Effect s (.process inL inR) (processFinish (sharedSection s) l r inL inR s)

theorem prepare_effect (v : Variant) (sr m : Word) (s : State) : Effect s (prepareInstr v sr m) (prepare v sr m s) := by
  rcases prepare_cases v sr m s with ⟨n, hn, h⟩ | ⟨f, -, -, h⟩
  · rw [h]; exact .prepared v hn
  · rw [h]; exact .prepareFailed _ f

/-- A command that answers a next state has one of the effects. -/
theorem exec_effect {i : Instr} {s t : State} (h : exec i s = .next t) : Effect s i t := by
  cases i with
  | nop => exact Host.Outcome.next.inj h ▸ .answered _ 0
  | preparePlain sr m => exact Host.Outcome.next.inj h ▸ prepare_effect .plain sr m s
  | prepareMod sr m => exact Host.Outcome.next.inj h ▸ prepare_effect .mod sr m s
  | prepareUtil sr m => exact Host.Outcome.next.inj h ▸ prepare_effect .util sr m s
  | process inL inR =>
    rcases execProcess_cases h with ⟨-, rfl⟩ | ⟨hp, l, r, hl, hr, rfl⟩
    · exact .rejected _ .notPrepared
    · exact .processed hp hl hr
  | wrreg idx v =>
    rcases execWrreg_cases h with ⟨r, hr, rfl⟩ | ⟨-, rfl⟩
    · exact .parameter v hr
    · exact .rejected _ .badReg
  | rdreg idx =>
    rcases execRdreg_cases h with ⟨w, -, rfl⟩ | ⟨-, rfl⟩
    · exact .answered _ w
    · exact .rejected _ .badReg
  | rdmem ch a =>
    rcases execRdmem_cases h with ⟨-, rfl⟩ | ⟨-, -, rfl⟩ | ⟨-, -, -, rfl⟩
    · exact .rejected _ .notPrepared
    · exact .rejected _ .badAddr
    · exact .answered _ _

/-! ### When each command gives each of its answers -/

section Answers

variable {s : State}

theorem prepare_of_ok (v : Variant) {sr m : Word} {n : Nat} (h : prepareLength s.aw sr m = .ok n) :
    prepare v sr m s = respondOk (BitVec.ofNat 32 n) 0 (prepareState v sr m n s) := by
  rw [prepare, h]

theorem prepare_of_error (v : Variant) {sr m : Word} {f : CmdFault} (h : prepareLength s.aw sr m = .error f) :
    prepare v sr m s = reject f { s with prepared := false } := by
  rw [prepare, h]

theorem execProcess_notPrepared {inL inR : Word} (h : s.prepared = false) :
    execProcess inL inR s = .next (reject .notPrepared s) := by
  rw [execProcess, h]; rfl

theorem execWrreg_ok {idx : Nat} {v : Word} {r : ParamReg} (h : paramOfIdx idx = some r) :
    execWrreg idx v s = .next (respondOk 0 0 { s with par := writeParam r v s.par }) := by
  rw [execWrreg, writeReg, h]

theorem execWrreg_badReg {idx : Nat} {v : Word} (h : 8 ≤ idx) : execWrreg idx v s = .next (reject .badReg s) := by
  rw [execWrreg, writeReg_none h]

theorem execRdreg_ok {idx : Nat} {w : Word} (h : readReg idx s = some w) : execRdreg idx s = .next (respondOk w 0 s) := by
  rw [execRdreg, h]

theorem execRdreg_badReg {idx : Nat} (h : readReg idx s = none) : execRdreg idx s = .next (reject .badReg s) := by
  rw [execRdreg, h]

theorem execRdmem_notPrepared {ch : Chan} {a : Word} (h : s.prepared = false) :
    execRdmem ch a s = .next (reject .notPrepared s) := by
  rw [execRdmem, h]; rfl

theorem execRdmem_badAddr {ch : Chan} {a : Word} (hp : s.prepared = true) (hl : s.len ≤ a.toNat) :
    execRdmem ch a s = .next (reject .badAddr s) := by
  rw [execRdmem, hp, if_neg (by decide), if_pos hl]

theorem execRdmem_ok {ch : Chan} {a : Word} (hp : s.prepared = true) (hl : a.toNat < s.len)
    (hd : a.toNat < depthWords s.aw) :
    execRdmem ch a s = .next (respondOk (Memory.read (s.chan ch).mem a.toNat) 0 s) := by
  rw [execRdmem, hp, if_neg (by decide), if_neg (by omega), memRead_ok hd]

theorem step_idle (h : s.pending = []) : step s = .next (idle s) := by
  rw [step, takeEvent, h]

theorem step_reset {rest : List PortEvent} (h : s.pending = .reset :: rest) :
    step s = .next (resetEvent { s with pending := rest }) := by
  rw [step, takeEvent, h]

theorem step_command {c : Command} {rest : List PortEvent} (h : s.pending = .command c :: rest) :
    step s = runCommand c { s with pending := rest } := by
  rw [step, takeEvent, h]

theorem runCommand_ok {c : Command} {i : Instr} (h : decode c = .ok i) : runCommand c s = exec i s := by
  rw [runCommand, h]

theorem runCommand_error {c : Command} {e : DecodeError} (h : decode c = .error e) :
    runCommand c s = .next (illegalCommand s) := by
  rw [runCommand, h]

end Answers

end Sys2Proof.Machine
end

section
/-! PROOFS. From `Effect`, the invariants of the registers: the sticky bits (R30, R242), the latched operands (R29), the
parameter registers (R31, R51) and the frame of PROCESS (R28); and the state the machine starts in (R54). -/

namespace Sys2Proof.Machine

/-! ### The sticky bits (R30) -/

/-- A command leaves `err` as it is or sets the bit of one fault. -/
theorem Effect.err {s t : State} {i : Instr} (h : Effect s i t) : t.err = s.err ∨ ∃ f : CmdFault, t.err = s.err ||| f.mask := by
  cases h with
  | answered => exact .inl rfl
  | rejected _ f => exact .inr ⟨f, rfl⟩
  | prepareFailed _ f => exact .inr ⟨f, rfl⟩
  | prepared => exact .inl rfl
  | parameter => exact .inl rfl
  | processed =>
    rw [processFinish_err]
    split
    · exact .inr ⟨.delayRange, rfl⟩
    · exact .inl rfl

/-- Setting a bit clears none. -/
theorem recorded_of_err_or {s t : State} {m : BitVec 7} (h : t.err = s.err ||| m) {f : CmdFault}
    (hf : s.recorded f = true) : t.recorded f = true := by
  simp only [State.recorded, decide_eq_true_eq, h, BitVec.and_or_distrib_right] at hf ⊢
  exact fun h0 => hf (BitVec.or_eq_zero_iff.mp h0).1

theorem Effect.recorded {s t : State} {i : Instr} (h : Effect s i t) {f : CmdFault} (hf : s.recorded f = true) :
    t.recorded f = true := by
  rcases h.err with he | ⟨g, he⟩
  · rwa [State.recorded, he]
  · exact recorded_of_err_or he hf

/-- Settles O47: idle steps keep `err`, an illegal word and every command at most set a bit, and reset clears it. -/
theorem onlyResetClearsAFaultBit : Obligations.OnlyResetClearsAFaultBit := by
  intro s t h
  rcases step_cases h with ⟨hp, rfl⟩ | ⟨rest, hp, rfl⟩ | ⟨c, rest, e, hp, -, rfl⟩ | ⟨c, rest, i, hp, -, hx⟩
  · exact ⟨fun _ _ hf => hf, fun _ hr => by rw [hp] at hr; cases hr⟩
  · exact ⟨fun hn => absurd hp (hn rest), fun _ _ => rfl⟩
  · exact ⟨fun _ _ hf => recorded_of_err_or (m := 1) rfl hf, fun _ hr => by rw [hp] at hr; cases hr⟩
  · exact ⟨fun _ _ hf => (exec_effect hx).recorded hf, fun _ hr => by rw [hp] at hr; cases hr⟩

/-! ### The latched operands (R29) and the parameter registers (R31) -/

/-- A command writes the latched operands only as a PREPARE that succeeds. -/
theorem Effect.latched {s t : State} {i : Instr} (h : Effect s i t) :
    (t.sr, t.maxdly, t.variant, t.len) = (s.sr, s.maxdly, s.variant, s.len) ∨
    ∃ v sr m, i = prepareInstr v sr m ∧ t.rsp = some ⟨0, BitVec.ofNat 32 t.len, 0⟩ ∧ t.prepared = true := by
  cases h with
  | answered => exact .inl rfl
  | rejected => exact .inl rfl
  | prepareFailed => exact .inl rfl
  | prepared v => exact .inr ⟨v, _, _, rfl, rfl, rfl⟩
  | parameter => exact .inl rfl
  | processed => left; simp

/-- Settles O50: the step lemma `Effect.latched`, with reset as the one other writer. -/
theorem onlyPrepareWritesTheLatchedState : Obligations.OnlyPrepareWritesTheLatchedState := by
  intro s t h
  rcases step_cases h with ⟨-, rfl⟩ | ⟨rest, hp, -⟩ | ⟨c, rest, e, -, -, rfl⟩ | ⟨c, rest, i, hp, hd, hx⟩
  · exact .inl rfl
  · exact .inr (.inl ⟨rest, hp⟩)
  · exact .inl rfl
  · rcases (exec_effect hx).latched with hl | ⟨v, sr, m, rfl, hr, hprep⟩
    · exact .inl hl
    · exact .inr (.inr ⟨c, rest, v, sr, m, hp, hd, hr, hprep⟩)

/-- An index that names a parameter register is 0x00 to 0x07. -/
theorem paramOfIdx_some_le {idx : Nat} {r : ParamReg} (h : paramOfIdx idx = some r) : idx ≤ 0x07 := by
  have := paramOfIdx_isSome idx
  rw [h] at this
  exact Nat.lt_succ_iff.mp (of_decide_eq_true this.symm)

/-- A command writes the parameter registers only as a WRREG of one of them. -/
theorem Effect.par {s t : State} {i : Instr} (h : Effect s i t) :
    t.par = s.par ∨ ∃ idx v, i = .wrreg idx v ∧ idx ≤ 0x07 := by
  cases h with
  | answered => exact .inl rfl
  | rejected => exact .inl rfl
  | prepareFailed => exact .inl rfl
  | prepared => exact .inl rfl
  | parameter v hr => exact .inr ⟨_, v, rfl, paramOfIdx_some_le hr⟩
  | processed => exact .inl (processFinish_par ..)

/-- Settles O51: the step lemma `Effect.par`, with reset as the one other writer. -/
theorem onlyWrregWritesTheParameters : Obligations.OnlyWrregWritesTheParameters := by
  intro s t h hne
  rcases step_cases h with ⟨-, rfl⟩ | ⟨rest, hp, -⟩ | ⟨c, rest, e, -, -, rfl⟩ | ⟨c, rest, i, hp, hd, hx⟩
  · exact absurd rfl hne
  · exact .inl ⟨rest, hp⟩
  · exact absurd rfl hne
  · rcases (exec_effect hx).par with hpar | ⟨idx, v, rfl, hidx⟩
    · exact absurd hpar hne
    · exact .inr ⟨c, rest, idx, v, hp, hd, hidx⟩

/-! ### The frame of PROCESS (R28, R165) -/

/-- A channel's steps store one word, at the write head. -/
theorem channelStep_frame {ch : Chan} {aw len : Nat} {d fbk x : Word} {c : Channel} {r : ChannelStep}
    (hm : Memory.wf c.mem = true) (h : channelStep ch aw len d fbk x c = .ok r) {i : Nat} (hi : i ≠ c.wh) :
    Memory.read r.chan.mem i = Memory.read c.mem i := by
  obtain ⟨-, -, hc⟩ := channelStep_cases h
  rw [hc]
  exact (memory_read_write hm _ _ _).trans (if_neg hi)

theorem sharedSection_smTime {s : State} (h : s.variant = .mod) : (sharedSection s).smTime = s.smTime := by
  rw [sharedSection, h]

theorem sharedSection_smGain {s : State} (h : s.variant ≠ .util) : (sharedSection s).smGain = s.smGain := by
  unfold sharedSection
  cases hv : s.variant
  case util => exact absurd hv h
  all_goals rfl

theorem sharedSection_phase {s : State} (h : s.variant ≠ .mod) : (sharedSection s).phase = s.phase := by
  unfold sharedSection
  cases hv : s.variant
  case mod => exact absurd hv h
  all_goals rfl

theorem sharedSection_phase_mod {s : State} (h : s.variant = .mod) :
    (sharedSection s).phase = lfoAdv s.par.rate s.sr s.phase := by
  rw [sharedSection, h]

/-- Settles O20: a refused PROCESS raises its fault; one carried out writes what `processFinish` and the two channels'
steps write. -/
theorem processChangesNothingElse : Obligations.ProcessChangesNothingElse := by
  intro inL inR s t hwl hwr h
  rcases execProcess_cases h with ⟨-, rfl⟩ | ⟨hp, l, r, hl, hr, rfl⟩
  · exact ⟨⟨rfl, rfl, rfl, rfl, rfl, rfl, rfl, rfl⟩, fun _ => rfl, fun _ => rfl, fun _ => rfl,
      fun ch _ _ => by cases ch <;> rfl, .inr (.inl rfl), fun _ => ⟨rfl, rfl, rfl, rfl, rfl⟩⟩
  · refine ⟨by constructor <;> simp, fun hv => ?_, fun hv => ?_, fun hv => ?_, fun ch i hi => ?_, ?_, fun hf => ?_⟩
    · rw [processFinish_smTime, sharedSection_smTime hv]
    · rw [processFinish_smGain, sharedSection_smGain hv]
    · rw [processFinish_phase, sharedSection_phase hv]
    · cases ch with
      | left => simpa using channelStep_frame hwl hl hi
      | right => simpa using channelStep_frame hwr hr hi
    · rw [processFinish_err]
      split
      · exact .inr (.inr rfl)
      · exact .inl rfl
    · rw [hp] at hf; cases hf

/-- Settles O9. -/
theorem theStartIsTheResetState : Obligations.TheStartIsTheResetState := ⟨rfl, rfl, rfl⟩

end Sys2Proof.Machine
end

section
/-! PROOFS. The phase stays in [0, 1) (R26): the sum of a phase and an offset in [0, 1] stays below 2.0, but for the one
pair of log 16, and one subtraction brings it back. -/

namespace Sys2Proof.Machine

/-! ### The wrap (R135) -/

/-- The last phase is 1 - 2^-24. -/
theorem valueUnits_last_phase : valueUnits 0x3F7FFFFF = 2 ^ 149 - 2 ^ 125 := by decide +kernel

/-- The phase before the last is 1 - 2^-23. -/
theorem valueUnits_last_phase_but_one : valueUnits 0x3F7FFFFE = 2 ^ 149 - 2 ^ 126 := by decide +kernel

/-- The last pattern below 2.0 is 2 - 2^-23. -/
theorem valueUnits_last_below_two : valueUnits 0x3FFFFFFF = 2 ^ 150 - 2 ^ 126 := by decide +kernel

/-- A value below 1.0 is at most the last phase. -/
theorem units_le_last_phase {w : Word} (h0 : 0 ≤ valueUnits w) (h1 : valueUnits w < 2 ^ 149) :
    valueUnits w ≤ 2 ^ 149 - 2 ^ 125 := by
  rw [← valueUnits_last_phase]
  exact units_le_of_lt_next (c := one) h0 rfl rfl rfl (by rw [valueUnits_one]; exact h1)

/-- A phase that is not the last is at most the one before it. -/
theorem units_le_of_ne_last_phase {w : Word} (h0 : 0 ≤ valueUnits w) (h1 : valueUnits w < 2 ^ 149) (hne : w ≠ 0x3F7FFFFF) :
    valueUnits w ≤ 2 ^ 149 - 2 ^ 126 := by
  have hlt : valueUnits w < valueUnits 0x3F7FFFFF := by
    refine lt_of_le_of_ne (valueUnits_last_phase ▸ units_le_last_phase h0 h1) fun h => hne ?_
    exact (eq_of_units_pos (by rw [valueUnits_last_phase]; decide) h.symm).symm
  rw [← valueUnits_last_phase_but_one]
  exact units_le_of_lt_next h0 rfl rfl rfl hlt

/-- One subtraction takes a sum in [0, 2) to [0, 1). -/
theorem inUnit_wrap1 {q : Word} (h0 : 0 ≤ valueUnits q) (h1 : valueUnits q ≤ 2 ^ 150 - 2 ^ 126) : inUnit (wrap1 q) = true := by
  have hq : isFinite q = true := isFinite_of_units_le_two h0 (by omega)
  have hle := fle_iff (a := one) rfl (not_nan_of_finite hq)
  rw [valueUnits_one] at hle
  rw [wrap1, inUnit_iff]
  split
  · next h =>
    have hge := hle.mp h
    have hlo : valueUnits plusZero ≤ valueUnits (fsub q one) :=
      le_valueUnits_fsub hq isFinite_one rfl (by rw [valueUnits_plusZero, valueUnits_one]; omega)
    have hhi : valueUnits (fsub q one) ≤ valueUnits 0x3F7FFFFE :=
      valueUnits_fsub_le hq isFinite_one rfl (by rw [valueUnits_last_phase_but_one, valueUnits_one]; omega)
    rw [valueUnits_plusZero] at hlo
    rw [valueUnits_last_phase_but_one] at hhi
    exact ⟨fsub_not_nan hq isFinite_one, hlo, by omega⟩
  · next h =>
    rw [hle] at h
    exact ⟨not_nan_of_finite hq, h0, by omega⟩

/-- The sum of a phase and an offset of at most a whole cycle wraps into [0, 1), but for the last phase and 1.0. -/
theorem inUnit_wrap1_fadd {p x : Word} (hp : inUnit p = true) (hx : unitRange x = true) (hne : ¬(p = 0x3F7FFFFF ∧ x = one)) :
    inUnit (wrap1 (fadd p x)) = true := by
  have hpf := isFinite_of_inUnit hp
  have hxf := isFinite_of_unitRange hx
  obtain ⟨-, hp0, hp1⟩ := inUnit_iff.mp hp
  obtain ⟨-, hx0, hx1⟩ := unitRange_iff.mp hx
  have hsum : valueUnits p + valueUnits x ≤ 2 ^ 150 - 2 ^ 126 := by
    by_cases hlast : p = 0x3F7FFFFF
    · have hxlt : valueUnits x < 2 ^ 149 := by
        refine lt_of_le_of_ne hx1 fun h => hne ⟨hlast, ?_⟩
        exact (eq_of_units_pos (by rw [valueUnits_one]; decide) (valueUnits_one.trans h.symm)).symm
      have := units_le_last_phase hp0 hp1
      have := units_le_last_phase hx0 hxlt
      omega
    · have := units_le_of_ne_last_phase hp0 hp1 hlast
      omega
  apply inUnit_wrap1
  · rw [← valueUnits_plusZero]
    exact le_valueUnits_fadd hpf hxf rfl (by rw [valueUnits_plusZero]; omega)
  · rw [← valueUnits_last_below_two]
    exact valueUnits_fadd_le hpf hxf rfl (by rw [valueUnits_last_below_two]; exact hsum)

/-! ### The LFO and the machine -/

/-- Settles O33: both are the wrapped sum of a phase and `x`. -/
theorem phaseStaysInTheUnitInterval : Obligations.PhaseStaysInTheUnitInterval := by
  intro phase x hp hx hne
  refine ⟨inUnit_wrap1_fadd hp hx hne, fun rate sr h => ?_⟩
  rw [lfoAdv, h]
  exact inUnit_wrap1_fadd hp hx hne

/-- Refutes O34: from the last phase an increment of 1.0 gives 1.0, since the sum rounds to 2.0. -/
theorem not_phaseStaysInTheUnitIntervalUpToAWholeCycle : ¬ Obligations.PhaseStaysInTheUnitIntervalUpToAWholeCycle := by
  intro h
  exact absurd (h one one 0x3F7FFFFF (by decide) (by decide) (by decide)) (by decide)

/-- A command moves the phase only as a PROCESS in MOD, and otherwise keeps it or clears it. -/
theorem Effect.phase {s t : State} {i : Instr} (h : Effect s i t) :
    t.phase = s.phase ∨ t.phase = plusZero ∨ (isProcess i = true ∧ t.phase = lfoAdv s.par.rate s.sr s.phase) := by
  cases h with
  | answered => exact .inl rfl
  | rejected => exact .inl rfl
  | prepareFailed => exact .inl rfl
  | prepared => exact .inr (.inl rfl)
  | parameter => exact .inl rfl
  | processed =>
    rw [processFinish_phase]
    by_cases hv : s.variant = .mod
    · exact .inr (.inr ⟨rfl, sharedSection_phase_mod hv⟩)
    · exact .inl (sharedSection_phase hv)

/-- Settles O55: the phase is kept, cleared, or advanced by a PROCESS in MOD, to which the wrap lemma applies. -/
theorem everyStepKeepsThePhaseInTheUnitInterval : Obligations.EveryStepKeepsThePhaseInTheUnitInterval := by
  intro s t hs hinc h
  have hzero : inUnit plusZero = true := rfl
  rcases step_cases h with ⟨-, rfl⟩ | ⟨rest, -, rfl⟩ | ⟨c, rest, e, -, -, rfl⟩ | ⟨c, rest, i, hp, hd, hx⟩
  · exact hs
  · exact hzero
  · exact hs
  · rcases (exec_effect hx).phase with hph | hph | ⟨hi, hph⟩
    · rw [hph]; exact hs
    · rw [hph]; exact hzero
    · obtain ⟨hrange, hne⟩ := hinc c rest hp ((decodesTo_of_ok hd).trans hi)
      rw [hph]
      exact inUnit_wrap1_fadd hs hrange hne

end Sys2Proof.Machine
end

section
/-! PROOFS. The invariant (R23, R24, R25, R29, R52): reset meets it, and every step keeps it. -/

namespace Sys2Proof.Machine

/-! ### The invariant depends on a part of the state -/

/-- A state with the memory, heads and latched state of one with the invariant has it, prepared or no longer so. -/
theorem State.Inv.congr {s t : State} (h : s.Inv) (haw : t.aw = s.aw) (hlen : t.len = s.len) (hsr : t.sr = s.sr)
    (hmax : t.maxdly = s.maxdly) (hl : t.left = s.left) (hr : t.right = s.right)
    (hp : t.prepared = true → s.prepared = true) : t.Inv := by
  constructor <;> simp only [haw, hlen, hsr, hmax, hl, hr]
  case aw_pos => exact h.aw_pos
  case aw_le => exact h.aw_le
  case len_le => exact h.len_le
  case len_pos => exact fun hq => h.len_pos (hp hq)
  case len_latched => exact fun hq => h.len_latched (hp hq)
  case sr_ok => exact fun hq => h.sr_ok (hp hq)
  case maxdly_ok => exact fun hq => h.maxdly_ok (hp hq)
  case wh_width => exact h.wh_width
  case wh_lt => exact fun hq => h.wh_lt (hp hq)
  case wh_eq => exact h.wh_eq
  case left_wf => exact h.left_wf
  case right_wf => exact h.right_wf
  case left_within => exact h.left_within
  case right_within => exact h.right_within

theorem depthWords_pos (aw : Nat) : 0 < depthWords aw := Nat.two_pow_pos aw

/-- An empty, unprepared block with its heads at 0 meets the invariant, whatever stands in its banks. -/
theorem inv_of_empty {s : State} (haw : 1 ≤ s.aw) (haw' : s.aw ≤ 24) (hp : s.prepared = false) (hlen : s.len = 0)
    (hl : s.left.wh = 0) (hr : s.right.wh = 0)
    (hlw : Memory.wf s.left.mem = true) (hrw : Memory.wf s.right.mem = true)
    (hli : Memory.within (depthWords s.aw) s.left.mem = true) (hri : Memory.within (depthWords s.aw) s.right.mem = true) :
    s.Inv where
  aw_pos := haw
  aw_le := haw'
  len_le := by rw [hlen]; exact Nat.zero_le _
  len_pos := by simp [hp]
  len_latched := by simp [hp]
  sr_ok := by simp [hp]
  maxdly_ok := by simp [hp]
  wh_width := by rw [hl]; exact depthWords_pos _
  wh_lt := by simp [hp]
  wh_eq := hr.trans hl.symm
  left_wf := hlw
  right_wf := hrw
  left_within := hli
  right_within := hri

theorem resetWith_inv {aw : Nat} (h : 1 ≤ aw) (h' : aw ≤ 24) : (State.resetWith aw).Inv :=
  inv_of_empty h h' rfl rfl rfl rfl rfl rfl rfl rfl

theorem resetEvent_inv {s : State} (h : s.Inv) : (resetEvent s).Inv :=
  inv_of_empty h.aw_pos h.aw_le rfl rfl rfl rfl h.left_wf h.right_wf h.left_within h.right_within

/-- Settles O44. -/
theorem resetMeetsTheInvariant : Obligations.ResetMeetsTheInvariant :=
  ⟨resetWith_inv (by decide) (by decide), fun _ h h' => resetWith_inv h h'⟩

/-! ### PREPARE -/

theorem isFinite_of_finitePositive {w : Word} (h : finitePositive w = true) : isFinite w = true := by
  rw [finitePositive, Bool.and_eq_true] at h
  exact (isFinite_iff w).mpr (finitePositive_bits h.1 h.2).2.2

/-- A product that is not below 1.0 has a length of at least 1 (R25, R181). -/
theorem prepareLength_pos {aw n : Nat} {sr m : Word} (h : prepareLength aw sr m = .ok n) : 1 ≤ n := by
  obtain ⟨hs, hm, h1, -, rfl, -⟩ := prepareLength_ok h
  have hn := fmul_not_nan (isFinite_of_finitePositive hs) (isFinite_of_finitePositive hm)
  rw [Bool.eq_false_iff, Ne, flt_iff hn rfl, valueUnits_one, not_lt] at h1
  rw [le_ifloor, ← natAbs_valueUnits]
  omega

theorem prepareState_inv (v : Variant) {sr m : Word} {n : Nat} {s : State} (h : s.Inv)
    (hn : prepareLength s.aw sr m = .ok n) : (prepareState v sr m n s).Inv := by
  obtain ⟨hs, hm, -, -, hlen, hle⟩ := prepareLength_ok hn
  exact { h with
    len_le := hle
    len_pos := fun _ => prepareLength_pos hn
    len_latched := fun _ => hlen
    sr_ok := fun _ => hs
    maxdly_ok := fun _ => hm
    wh_width := depthWords_pos _
    wh_lt := fun _ => prepareLength_pos hn
    wh_eq := rfl
    left_wf := memory_clear_wf n h.left_wf
    right_wf := memory_clear_wf n h.right_wf
    left_within := memory_clear_within n h.left_within
    right_within := memory_clear_within n h.right_within }

/-! ### PROCESS -/

/-- A channel's steps keep its bank canonical and in its depth, and move its head on. -/
theorem channelStep_keeps {ch : Chan} {aw len : Nat} {d fbk x : Word} {c : Channel} {r : ChannelStep}
    (h : channelStep ch aw len d fbk x c = .ok r) (hwf : Memory.wf c.mem = true)
    (hin : Memory.within (depthWords aw) c.mem = true) :
    r.chan.wh = nextIndex len c.wh ∧ Memory.wf r.chan.mem = true ∧ Memory.within (depthWords aw) r.chan.mem = true := by
  obtain ⟨hwh, -, hc⟩ := channelStep_cases h
  rw [hc]
  exact ⟨rfl, memory_write_wf hwf _ _, memory_write_within _ hwh hin⟩

theorem processFinish_inv {sh : Shared} {l r : ChannelStep} {dL dR fbk inL inR : Word} {s : State} (h : s.Inv)
    (hp : s.prepared = true) (hl : channelStep .left s.aw s.len dL fbk inL s.left = .ok l)
    (hr : channelStep .right s.aw s.len dR fbk inR s.right = .ok r) : (processFinish sh l r inL inR s).Inv := by
  obtain ⟨hlwh, hlwf, hlin⟩ := channelStep_keeps hl h.left_wf h.left_within
  obtain ⟨hrwh, hrwf, hrin⟩ := channelStep_keeps hr h.right_wf h.right_within
  have hwh : l.chan.wh < s.len := hlwh ▸ nextIndex_lt (h.wh_lt hp)
  have hchannels : ({ s with left := l.chan, right := r.chan } : State).Inv :=
    { h with
      wh_width := hwh.trans_le h.len_le
      wh_lt := fun _ => hwh
      wh_eq := by rw [hlwh, hrwh, h.wh_eq]
      left_wf := hlwf
      right_wf := hrwf
      left_within := hlin
      right_within := hrin }
  exact hchannels.congr (processFinish_aw ..) (processFinish_len ..) (processFinish_sr ..) (processFinish_maxdly ..)
    (processFinish_left ..) (processFinish_right ..) fun hq => (processFinish_prepared ..).symm.trans hq

/-! ### Every step -/

theorem Effect.inv {s t : State} {i : Instr} (h : Effect s i t) (hs : s.Inv) : t.Inv := by
  cases h with
  | answered => exact hs.congr rfl rfl rfl rfl rfl rfl id
  | rejected => exact hs.congr rfl rfl rfl rfl rfl rfl id
  | prepareFailed => exact hs.congr rfl rfl rfl rfl rfl rfl nofun
  | prepared v hn => exact (prepareState_inv v hs hn).congr rfl rfl rfl rfl rfl rfl id
  | parameter => exact hs.congr rfl rfl rfl rfl rfl rfl id
  | processed hp hl hr => exact processFinish_inv hs hp hl hr

/-- Settles O45: `Effect.inv` for a command; an idle step and an illegal word touch nothing of the invariant. -/
theorem everyStepKeepsTheInvariant : Obligations.EveryStepKeepsTheInvariant := by
  intro s t hs h
  have htaken : ∀ rest, ({ s with pending := rest } : State).Inv := fun _ => hs.congr rfl rfl rfl rfl rfl rfl id
  rcases step_cases h with ⟨-, rfl⟩ | ⟨rest, -, rfl⟩ | ⟨c, rest, e, -, -, rfl⟩ | ⟨c, rest, i, -, -, hx⟩
  · exact hs.congr rfl rfl rfl rfl rfl rfl id
  · exact resetEvent_inv (htaken rest)
  · exact hs.congr rfl rfl rfl rfl rfl rfl id
  · exact (exec_effect hx).inv (htaken rest)

end Sys2Proof.Machine
end

section
/-! PROOFS. Hidden delay memory cannot be observed (R52, R54): a state that differs from another only in hidden words is
that state with other banks (`State.withBanks`), every command treats banks alike, and PROCESS reads slots below `len`
only. -/

namespace Sys2Proof.Machine

/-! ### The same state with other banks -/

/-- The state with the words of its two banks replaced. -/
def State.withBanks (s : State) (ml mr : Memory) : State :=
  { s with left := { s.left with mem := ml }, right := { s.right with mem := mr } }

/-- Two banks agree at every slot of the ring buffer, while there is one. -/
def SameSlots (s : State) (m m' : Memory) : Prop :=
  s.prepared = true → ∀ i, i < s.len → Memory.read m i = Memory.read m' i

theorem sameSlots_of_unprepared {s : State} {m m' : Memory} (h : s.prepared = false) : SameSlots s m m' :=
  fun hp => absurd hp (by simp [h])

theorem sameVisible_withBanks {s : State} {ml mr : Memory} (hl : SameSlots s s.left.mem ml)
    (hr : SameSlots s s.right.mem mr) : SameVisible s (s.withBanks ml mr) := ⟨rfl, hl, hr⟩

/-- States that look alike are one state with two pairs of banks. -/
theorem SameVisible.eq_withBanks {s t : State} (h : SameVisible s t) : t = s.withBanks t.left.mem t.right.mem :=
  (congrArg (·.withBanks t.left.mem t.right.mem) h.rest).symm

/-- The outcome `o` is a next state that looks like `s'` and carries the same response. -/
def AnswersAlike (o : Host.Outcome State Fault Refusal) (s' : State) : Prop :=
  ∃ t', o = .next t' ∧ SameVisible s' t' ∧ t'.rsp = s'.rsp

theorem answersAlike_withBanks {o : Host.Outcome State Fault Refusal} {s' : State} {ml mr : Memory}
    (h : o = .next (s'.withBanks ml mr)) (hl : SameSlots s' s'.left.mem ml) (hr : SameSlots s' s'.right.mem mr) :
    AnswersAlike o s' := ⟨_, h, sameVisible_withBanks hl hr, rfl⟩

/-! ### The control commands -/

/-- PREPARE clears the slots that become visible, or leaves the block unprepared. -/
theorem prepare_answersAlike (v : Variant) (sr m : Word) (s : State) (ml mr : Memory) :
    AnswersAlike (.next (prepare v sr m (s.withBanks ml mr))) (prepare v sr m s) := by
  have hclear : ∀ (n : Nat) (m m' : Memory) (i : Nat), i < n →
      Memory.read (Memory.clear n m) i = Memory.read (Memory.clear n m') i := fun n m m' i hi => by
    rw [memory_read_clear, memory_read_clear, if_pos hi, if_pos hi]
  rcases prepare_cases v sr m s with ⟨n, hn, h⟩ | ⟨f, hf, -, h⟩
  · rw [h, prepare_of_ok v (s := s.withBanks ml mr) hn]
    exact answersAlike_withBanks (ml := Memory.clear n ml) (mr := Memory.clear n mr) rfl (fun _ => hclear n _ _)
      (fun _ => hclear n _ _)
  · rw [h, prepare_of_error v (s := s.withBanks ml mr) hf]
    exact answersAlike_withBanks (ml := ml) (mr := mr) rfl (sameSlots_of_unprepared rfl) (sameSlots_of_unprepared rfl)

/-- No register shows a word of a bank (R50). -/
theorem readReg_withBanks (idx : Nat) (s : State) (ml mr : Memory) : readReg idx (s.withBanks ml mr) = readReg idx s := by
  have hstatus : ∀ r, readStatus r (s.withBanks ml mr) = readStatus r s := fun r => by cases r <;> rfl
  unfold readReg
  cases paramOfIdx idx with
  | some r => rfl
  | none =>
    cases statusOfIdx idx with
    | some r => exact congrArg some (hstatus r)
    | none => rfl

section Registers

variable {s s' : State} {ml mr : Memory} (hl : SameSlots s s.left.mem ml) (hr : SameSlots s s.right.mem mr)
include hl hr

theorem execWrreg_answersAlike {idx : Nat} {v : Word} (h : execWrreg idx v s = .next s') :
    AnswersAlike (execWrreg idx v (s.withBanks ml mr)) s' := by
  rcases execWrreg_cases h with ⟨r, hidx, rfl⟩ | ⟨hidx, rfl⟩
  · exact answersAlike_withBanks (execWrreg_ok hidx) hl hr
  · exact answersAlike_withBanks (execWrreg_badReg hidx) hl hr

theorem execRdreg_answersAlike {idx : Nat} (h : execRdreg idx s = .next s') :
    AnswersAlike (execRdreg idx (s.withBanks ml mr)) s' := by
  have hreg := readReg_withBanks idx s ml mr
  rcases execRdreg_cases h with ⟨w, hw, rfl⟩ | ⟨hw, rfl⟩
  · exact answersAlike_withBanks (execRdreg_ok (hreg.trans hw)) hl hr
  · exact answersAlike_withBanks (execRdreg_badReg (hreg.trans hw)) hl hr

/-- RDMEM answers a slot below `len`. -/
theorem execRdmem_answersAlike {ch : Chan} {a : Word} (h : execRdmem ch a s = .next s') :
    AnswersAlike (execRdmem ch a (s.withBanks ml mr)) s' := by
  rcases execRdmem_cases h with ⟨hp, rfl⟩ | ⟨hp, hlen, rfl⟩ | ⟨hp, hlen, hd, rfl⟩
  · exact answersAlike_withBanks (execRdmem_notPrepared (s := s.withBanks ml mr) hp) hl hr
  · exact answersAlike_withBanks (execRdmem_badAddr (s := s.withBanks ml mr) hp hlen) hl hr
  · have hslot : Memory.read ((s.withBanks ml mr).chan ch).mem a.toNat = Memory.read (s.chan ch).mem a.toNat := by
      cases ch with
      | left => exact (hl hp _ hlen).symm
      | right => exact (hr hp _ hlen).symm
    refine answersAlike_withBanks ?_ hl hr
    rw [execRdmem_ok (s := s.withBanks ml mr) hp hlen hd, hslot]
    rfl

end Registers

/-! ### PROCESS -/

/-- Within the contract both words that DL_READI reads are slots (R108). -/
theorem readPoint_lt {len wh : Nat} {d : Word} (hw : wh < len) (hl : len ≤ 2 ^ 24) (h : delayInRange len d = true) :
    (readPoint len wh d).i0 < len ∧ (readPoint len wh d).i1 < len := by
  obtain ⟨hd, h0, h1⟩ := delayInRange_units hl h
  obtain ⟨-, hp0, hp1⟩ := readPos_units hw hl hd h0 h1
  exact splitPos_lt hp0 hp1

/-- DL_READI answers alike from banks that agree at every slot. -/
theorem dlReadI_congr {ch : Chan} {aw len : Nat} {d y : Word} {c : Channel} {m' : Memory} {failed : Bool}
    (hw : c.wh < len) (hl : len ≤ 2 ^ 24) (hm : ∀ i, i < len → Memory.read c.mem i = Memory.read m' i)
    (h : dlReadI ch aw len d c = .ok (y, failed)) : dlReadI ch aw len d { c with mem := m' } = .ok (y, failed) := by
  rcases dlReadI_cases h with ⟨hd, rfl, rfl⟩ | ⟨hd, rfl, h0, h1, rfl⟩
  · exact dlReadI_fail hd
  · obtain ⟨hi0, hi1⟩ := readPoint_lt hw hl hd
    rw [hm _ hi0, hm _ hi1]
    exact dlReadI_ok hd h0 h1

/-- What a channel's steps leave, with the words of the bank replaced. -/
def ChannelStep.withBank (r : ChannelStep) (m : Memory) : ChannelStep := { r with chan := { r.chan with mem := m } }

/-- A channel's steps answer alike from banks that agree at every slot, and the banks then still agree there. -/
theorem channelStep_withBank {ch : Chan} {aw len : Nat} {d fbk x : Word} {c : Channel} {m' : Memory} {r : ChannelStep}
    (hwf : Memory.wf c.mem = true) (hwf' : Memory.wf m' = true) (hw : c.wh < len) (hl : len ≤ 2 ^ 24)
    (hm : ∀ i, i < len → Memory.read c.mem i = Memory.read m' i) (h : channelStep ch aw len d fbk x c = .ok r) :
    ∃ m'', channelStep ch aw len d fbk x { c with mem := m' } = .ok (r.withBank m'') ∧
      ∀ i, i < len → Memory.read r.chan.mem i = Memory.read m'' i := by
  obtain ⟨hwh, hread, hchan⟩ := channelStep_cases h
  have hwritten : ∀ i, i < len → Memory.read (Memory.write c.mem c.wh (fadd x c.fb)) i =
      Memory.read (Memory.write m' c.wh (fadd x c.fb)) i := fun i hi => by
    rw [memory_read_write hwf, memory_read_write hwf', hm i hi]
  have hread' := dlReadI_congr (c := { c with mem := Memory.write c.mem c.wh (fadd x c.fb) }) hw hl hwritten hread
  refine ⟨Memory.write m' c.wh (fadd x c.fb), ?_, ?_⟩
  · rw [channelStep_ok (c := { c with mem := m' }) hwh hread', ChannelStep.withBank, hchan]
  · rw [hchan]; exact hwritten

theorem sharedSection_withBanks (s : State) (ml mr : Memory) : sharedSection (s.withBanks ml mr) = sharedSection s := rfl

theorem processFinish_withBanks (sh : Shared) (l r : ChannelStep) (inL inR : Word) (s : State) (ml mr ml' mr' : Memory) :
    processFinish sh (l.withBank ml') (r.withBank mr') inL inR (s.withBanks ml mr) =
      (processFinish sh l r inL inR s).withBanks ml' mr' := by
  have hfailed : ((l.withBank ml').failed || (r.withBank mr').failed) = (l.failed || r.failed) := rfl
  unfold processFinish
  rw [hfailed]
  cases l.failed || r.failed <;> rfl

theorem execProcess_answersAlike {s s' : State} {ml mr : Memory} {inL inR : Word} (hs : s.Inv)
    (hlwf : Memory.wf ml = true) (hrwf : Memory.wf mr = true) (hl : SameSlots s s.left.mem ml)
    (hr : SameSlots s s.right.mem mr) (h : execProcess inL inR s = .next s') :
    AnswersAlike (execProcess inL inR (s.withBanks ml mr)) s' := by
  rcases execProcess_cases h with ⟨hp, rfl⟩ | ⟨hp, l, r, hstepL, hstepR, rfl⟩
  · exact answersAlike_withBanks (execProcess_notPrepared (s := s.withBanks ml mr) hp) hl hr
  · have hlen : s.len ≤ 2 ^ 24 := hs.len_le.trans (Nat.pow_le_pow_right (by decide) hs.aw_le)
    have hwh := hs.wh_lt hp
    obtain ⟨ml', hstepL', hslotsL⟩ := channelStep_withBank hs.left_wf hlwf hwh hlen (hl hp) hstepL
    obtain ⟨mr', hstepR', hslotsR⟩ := channelStep_withBank hs.right_wf hrwf (hs.wh_eq ▸ hwh) hlen (hr hp) hstepR
    refine answersAlike_withBanks (ml := ml') (mr := mr') ?_ ?_ ?_
    · rw [execProcess_ok (s := s.withBanks ml mr) hp hstepL' hstepR', sharedSection_withBanks, processFinish_withBanks]
    · exact fun _ i hi => by simpa using hslotsL i (by simpa using hi)
    · exact fun _ i hi => by simpa using hslotsR i (by simpa using hi)

/-! ### Every step -/

theorem exec_answersAlike {i : Instr} {s s' : State} {ml mr : Memory} (hs : s.Inv) (hlwf : Memory.wf ml = true)
    (hrwf : Memory.wf mr = true) (hl : SameSlots s s.left.mem ml) (hr : SameSlots s s.right.mem mr)
    (h : exec i s = .next s') : AnswersAlike (exec i (s.withBanks ml mr)) s' := by
  cases i with
  | nop => exact Host.Outcome.next.inj h ▸ answersAlike_withBanks rfl hl hr
  | preparePlain sr m => exact Host.Outcome.next.inj h ▸ prepare_answersAlike .plain sr m s ml mr
  | prepareMod sr m => exact Host.Outcome.next.inj h ▸ prepare_answersAlike .mod sr m s ml mr
  | prepareUtil sr m => exact Host.Outcome.next.inj h ▸ prepare_answersAlike .util sr m s ml mr
  | process inL inR => exact execProcess_answersAlike hs hlwf hrwf hl hr h
  | wrreg idx v => exact execWrreg_answersAlike hl hr h
  | rdreg idx => exact execRdreg_answersAlike hl hr h
  | rdmem ch a => exact execRdmem_answersAlike hl hr h

/-- Settles O54: the second state is the first with other banks, and each kind of step answers alike from it. -/
theorem hiddenMemoryIsUnobservable : Obligations.HiddenMemoryIsUnobservable := by
  intro s t s' hs ht hv h
  obtain ⟨ml, mr, hlwf, hrwf, hl, hr, rfl⟩ : ∃ ml mr, Memory.wf ml = true ∧ Memory.wf mr = true ∧
      SameSlots s s.left.mem ml ∧ SameSlots s s.right.mem mr ∧ t = s.withBanks ml mr :=
    ⟨_, _, ht.left_wf, ht.right_wf, hv.left_slots, hv.right_slots, hv.eq_withBanks⟩
  show AnswersAlike (step (s.withBanks ml mr)) s'
  rcases step_cases h with ⟨hp, rfl⟩ | ⟨rest, hp, rfl⟩ | ⟨c, rest, e, hp, hd, rfl⟩ | ⟨c, rest, i, hp, hd, hx⟩
  · exact answersAlike_withBanks (step_idle (s := s.withBanks ml mr) hp) hl hr
  · exact answersAlike_withBanks (step_reset (s := s.withBanks ml mr) hp) (sameSlots_of_unprepared rfl)
      (sameSlots_of_unprepared rfl)
  · rw [step_command (s := s.withBanks ml mr) hp, runCommand_error hd]
    exact answersAlike_withBanks rfl hl hr
  · rw [step_command (s := s.withBanks ml mr) hp, runCommand_ok hd]
    exact exec_answersAlike (s := { s with pending := rest }) (hs.congr rfl rfl rfl rfl rfl rfl id) hlwf hrwf hl hr hx

end Sys2Proof.Machine
end

section
/-! PROOFS. Every command is answered (R62, R85, R176): within the invariant no access leaves its bank, so a command has a
next state, and its response stands there. The commands that observe change nothing else (R180, R188, R189). -/

namespace Sys2Proof.Machine

/-- Settles O5. -/
theorem stepRunsTheDecodedCommand : Obligations.StepRunsTheDecodedCommand :=
  fun _ _ _ _ hp hd => (step_command hp).trans (runCommand_ok hd)

/-! ### The commands that observe -/

theorem code_ne_zero (f : CmdFault) : f.code ≠ 0 := by cases f <;> decide

/-- NOP, RDREG and RDMEM answer a word or a fault, from the state as it is. -/
theorem observer_cases {i : Instr} {s t : State} (hi : i = .nop ∨ (∃ idx, i = .rdreg idx) ∨ ∃ ch a, i = .rdmem ch a)
    (h : exec i s = .next t) : (∃ w, t = respondOk w 0 s) ∨ ∃ f, t = reject f s := by
  rcases hi with rfl | ⟨idx, rfl⟩ | ⟨ch, a, rfl⟩
  · exact .inl ⟨0, (Host.Outcome.next.inj h).symm⟩
  · rcases execRdreg_cases h with ⟨w, -, ht⟩ | ⟨-, ht⟩
    · exact .inl ⟨w, ht⟩
    · exact .inr ⟨.badReg, ht⟩
  · rcases execRdmem_cases h with ⟨-, ht⟩ | ⟨-, -, ht⟩ | ⟨-, -, -, ht⟩
    · exact .inr ⟨.notPrepared, ht⟩
    · exact .inr ⟨.badAddr, ht⟩
    · exact .inl ⟨_, ht⟩

/-- Settles O52: an answer leaves `err`, and a fault never has code 0. -/
theorem observersChangeNothing : Obligations.ObserversChangeNothing := by
  intro i s t hi h
  rcases observer_cases hi h with ⟨w, rfl⟩ | ⟨f, rfl⟩
  · exact ⟨rfl, fun _ => rfl⟩
  · exact ⟨rfl, fun hcode => absurd (Option.some.inj hcode) (code_ne_zero f)⟩

/-! ### No access leaves its bank (R62) -/

/-- DL_READI answers from a head that is a slot, whatever the delay. -/
theorem dlReadI_answers (ch : Chan) {aw len : Nat} (d : Word) {c : Channel} (hw : c.wh < len) (hlen : len ≤ 2 ^ 24)
    (hdepth : len ≤ depthWords aw) : ∃ y failed, dlReadI ch aw len d c = .ok (y, failed) := by
  cases hd : delayInRange len d with
  | false => exact ⟨_, _, dlReadI_fail hd⟩
  | true =>
    obtain ⟨h0, h1⟩ := readPoint_lt hw hlen hd
    exact ⟨_, _, dlReadI_ok hd (h0.trans_le hdepth) (h1.trans_le hdepth)⟩

theorem channelStep_answers (ch : Chan) {aw len : Nat} (d fbk x : Word) {c : Channel} (hw : c.wh < len)
    (hlen : len ≤ 2 ^ 24) (hdepth : len ≤ depthWords aw) : ∃ r, channelStep ch aw len d fbk x c = .ok r := by
  obtain ⟨y, failed, hread⟩ :=
    dlReadI_answers ch d (c := { c with mem := Memory.write c.mem c.wh (fadd x c.fb) }) hw hlen hdepth
  exact ⟨_, channelStep_ok (hw.trans_le hdepth) hread⟩

/-! ### Every command has a next state -/

theorem execWrreg_answers (s : State) (idx : Nat) (v : Word) : ∃ t, execWrreg idx v s = .next t := by
  cases hidx : paramOfIdx idx with
  | some r => exact ⟨_, execWrreg_ok hidx⟩
  | none => exact ⟨_, execWrreg_badReg (by simpa [hidx] using paramOfIdx_isSome idx)⟩

theorem execRdreg_answers (s : State) (idx : Nat) : ∃ t, execRdreg idx s = .next t := by
  cases hidx : readReg idx s with
  | some w => exact ⟨_, execRdreg_ok hidx⟩
  | none => exact ⟨_, execRdreg_badReg hidx⟩

section WithinTheInvariant

variable {s : State} (hs : s.Inv)
include hs

theorem execProcess_answers (inL inR : Word) : ∃ t, execProcess inL inR s = .next t := by
  cases hp : s.prepared with
  | false => exact ⟨_, execProcess_notPrepared hp⟩
  | true =>
    have hlen : s.len ≤ 2 ^ 24 := hs.len_le.trans (Nat.pow_le_pow_right (by decide) hs.aw_le)
    have hwh := hs.wh_lt hp
    obtain ⟨l, hl⟩ := channelStep_answers .left (s.delayOf .left) s.par.feedback inL hwh hlen hs.len_le
    obtain ⟨r, hr⟩ := channelStep_answers .right (s.delayOf .right) s.par.feedback inR (hs.wh_eq ▸ hwh) hlen hs.len_le
    exact ⟨_, execProcess_ok hp hl hr⟩

theorem execRdmem_answers (ch : Chan) (a : Word) : ∃ t, execRdmem ch a s = .next t := by
  cases hp : s.prepared with
  | false => exact ⟨_, execRdmem_notPrepared hp⟩
  | true =>
    rcases Nat.lt_or_ge a.toNat s.len with hslot | hpast
    · exact ⟨_, execRdmem_ok hp hslot (hslot.trans_le hs.len_le)⟩
    · exact ⟨_, execRdmem_badAddr hp hpast⟩

/-- Every command has a next state in a state with the invariant. -/
theorem exec_answers (i : Instr) : ∃ t, exec i s = .next t := by
  cases i with
  | nop => exact ⟨_, rfl⟩
  | preparePlain sr m => exact ⟨_, rfl⟩
  | prepareMod sr m => exact ⟨_, rfl⟩
  | prepareUtil sr m => exact ⟨_, rfl⟩
  | process inL inR => exact execProcess_answers hs inL inR
  | wrreg idx v => exact execWrreg_answers s idx v
  | rdreg idx => exact execRdreg_answers s idx
  | rdmem ch a => exact execRdmem_answers hs ch a

end WithinTheInvariant

/-! ### The port after a step (R85) -/

/-- No command touches what the host presents next. -/
theorem Effect.pending {s t : State} {i : Instr} (h : Effect s i t) : t.pending = s.pending := by
  cases h with
  | answered => rfl
  | rejected => rfl
  | prepareFailed => rfl
  | prepared => rfl
  | parameter => rfl
  | processed => exact processFinish_pending ..

/-- Every command presents a response. -/
theorem Effect.rspValid {s t : State} {i : Instr} (h : Effect s i t) : t.rspValid = true := by
  cases h with
  | answered => rfl
  | rejected => rfl
  | prepareFailed => rfl
  | prepared => rfl
  | parameter => rfl
  | processed => rw [State.rspValid, processFinish_rsp]; rfl

/-- A transfer, legal or not, is answered and leaves the port alone. -/
theorem runCommand_answers {s : State} (hs : s.Inv) (c : Command) :
    ∃ t, runCommand c s = .next t ∧ t.pending = s.pending ∧ t.rspValid = true := by
  cases hd : decode c with
  | error e => exact ⟨_, runCommand_error hd, rfl, rfl⟩
  | ok i =>
    obtain ⟨t, ht⟩ := exec_answers hs i
    exact ⟨t, (runCommand_ok hd).trans ht, (exec_effect ht).pending, (exec_effect ht).rspValid⟩

/-- Settles O46: one case for each thing the host can present; only a command leaves a response. -/
theorem everyCommandIsAnswered : Obligations.EveryCommandIsAnswered := by
  intro s hs
  cases hp : s.pending with
  | nil => exact ⟨idle s, step_idle hp, hp, iff_of_false Bool.false_ne_true nofun⟩
  | cons e rest =>
    cases e with
    | reset => exact ⟨_, step_reset hp, rfl, iff_of_false Bool.false_ne_true nofun⟩
    | command c =>
      have htaken : ({ s with pending := rest } : State).Inv := hs.congr rfl rfl rfl rfl rfl rfl id
      obtain ⟨t, ht, hpending, hvalid⟩ := runCommand_answers htaken c
      exact ⟨t, (step_command hp).trans ht, hpending, iff_of_true hvalid ⟨c, rest, rfl⟩⟩

end Sys2Proof.Machine
end

section
/-! PROOFS. Encoding and decoding: the decoder undoes the encoder (R81, R82, R63), accepts exactly the rows of R86, and
takes the operands from the operand words alone (R83). -/

namespace Sys2Proof

open Laws.EncodeMatchesRow (row)

/-! ### The decoder undoes the encoder -/

theorem decode_encode {i : Instr} (h : i.wf = true) : decode (encode i) = .ok i := by
  cases i with
  | nop => exact decode_commandWord_nop 0 0
  | preparePlain s m => exact decode_commandWord_prepare s m (by decide)
  | prepareMod s m => exact decode_commandWord_prepare s m (by decide)
  | prepareUtil s m => exact decode_commandWord_prepare s m (by decide)
  | process inL inR => exact decode_commandWord_process inL inR
  | wrreg idx v => exact decode_commandWord_wrreg v 0 (of_decide_eq_true h)
  | rdreg idx => exact decode_commandWord_rdreg 0 0 (of_decide_eq_true h)
  | rdmem ch a => cases ch <;> exact decode_commandWord_rdmem a 0 (by decide)

/-- The twelve bytes of a legal command are read as that command, and no byte after them (R63). -/
theorem decodeBytes_commandToBytes {c : Command} {i : Instr} (h : decode c = .ok i) (rest : List Byte) :
    decodeBytes (commandToBytes c ++ rest) = .ok (i, rest) := by
  simp only [commandToBytes, wordToBytes, List.cons_append, List.nil_append, decodeBytes, wordOfBytes_bytes, h]

/-- Settles O1: the words by cases on the command, the bytes because four bytes of a word give the word back. -/
theorem decodeOfEncodeIsTheCommand : Obligations.DecodeOfEncodeIsTheCommand := fun _ rest h =>
  ⟨decode_encode h, decodeBytes_commandToBytes (decode_encode h) rest⟩

/-! ### The rows of R86 -/

theorem encode_word_matches_row {i : Instr} (h : i.wf = true) : (encode i).word &&& (row i).2 = (row i).1 := by
  cases i with
  | nop => exact Laws.EncodeMatchesRow.nop h
  | preparePlain s m => exact Laws.EncodeMatchesRow.preparePlain s m h
  | prepareMod s m => exact Laws.EncodeMatchesRow.prepareMod s m h
  | prepareUtil s m => exact Laws.EncodeMatchesRow.prepareUtil s m h
  | process inL inR => exact Laws.EncodeMatchesRow.process inL inR h
  | wrreg idx v => exact Laws.EncodeMatchesRow.wrreg idx v h
  | rdreg idx => exact Laws.EncodeMatchesRow.rdreg idx h
  | rdmem ch a => exact Laws.EncodeMatchesRow.rdmem ch a h

theorem opcodeRows_rowOf (i : Instr) : opcodeRows[rowOf i]? = some (row i) := by
  cases i <;> rfl

/-- What the decoder accepts is well formed, and its encoding has the word it came from. -/
theorem encode_word_of_decode {c : Command} {i : Instr} (h : decode c = .ok i) :
    i.wf = true ∧ (encode i).word = c.word := by
  obtain ⟨hr, hcases⟩ := decode_cases h
  rw [eq_commandWord hr]
  rcases hcases with ⟨ho, ha, rfl⟩ | ⟨ho, hd⟩ | ⟨ho, ha, rfl⟩ | ⟨ho, rfl⟩ | ⟨ho, rfl⟩ | ⟨ho, hd⟩
  · rw [ho, ha]; exact ⟨rfl, rfl⟩
  · rw [ho]
    rcases decodePrepare_cases hd with ⟨ha, rfl⟩ | ⟨ha, rfl⟩ | ⟨ha, rfl⟩ <;> rw [ha] <;> exact ⟨rfl, rfl⟩
  · rw [ho, ha]; exact ⟨rfl, rfl⟩
  · rw [ho]; exact ⟨decide_eq_true (argField_lt _), rfl⟩
  · rw [ho]; exact ⟨decide_eq_true (argField_lt _), rfl⟩
  · obtain ⟨ch, ha, rfl⟩ := decodeRdmem_cases hd
    rw [ho, ha]; exact ⟨rfl, rfl⟩

theorem word_matches_row_of_decode {c : Command} {i : Instr} (h : decode c = .ok i) :
    c.word &&& (row i).2 = (row i).1 := by
  obtain ⟨hwf, hword⟩ := encode_word_of_decode h
  exact hword ▸ encode_word_matches_row hwf

/-- The masks of R86 are a run of ones above `k` free bits: clearing the free bits of a word is two shifts. -/
theorem and_high_mask {n : Nat} (w : BitVec n) (k : Nat) : w &&& (BitVec.allOnes n <<< k) = (w >>> k) <<< k := by
  ext i hi
  by_cases h : i < k
  · simp [h]
  · simp [h, Nat.add_sub_of_le (Nat.le_of_not_lt h), BitVec.getLsbD_eq_getElem hi]

/-- A word that matches a row differs from its match word only in the free bits of its mask. -/
theorem eq_commandWord_add_of_and_eq {w : Word} {opc arg k : Nat}
    (h : w &&& (BitVec.allOnes 32 <<< k) = commandWord opc arg) : ∃ j, j < 2 ^ k ∧ w = commandWord opc (arg + j) := by
  refine ⟨w.toNat % 2 ^ k, Nat.mod_lt _ (Nat.two_pow_pos k), BitVec.eq_of_toNat_eq ?_⟩
  have hhigh : w.toNat / 2 ^ k * 2 ^ k = (commandWord opc arg).toNat := by
    rw [← h, and_high_mask, BitVec.toNat_shiftLeft, BitVec.toNat_ushiftRight, Nat.shiftLeft_eq, Nat.shiftRight_eq_div_pow]
    exact (Nat.mod_eq_of_lt ((Nat.div_mul_le_self _ _).trans_lt w.isLt)).symm
  have hsplit := Nat.div_add_mod' w.toNat (2 ^ k)
  have hlt := w.isLt
  simp only [commandWord, BitVec.toNat_ofNat] at hhigh ⊢
  omega

/-- A word that matches row `n` decodes to a command of row `n`: rows 0 to 4 fix every bit, the others leave an argument
free. -/
theorem decode_of_matches {c : Command} {n : Nat} {r : Word × Word} (hr : opcodeRows[n]? = some r)
    (h : c.word &&& r.2 = r.1) : ∃ i, decode c = .ok i ∧ rowOf i = n := by
  obtain ⟨w, a, b⟩ := c
  match n, hr with
  | 0, rfl =>
    obtain rfl : w = commandWord 0 0 := BitVec.and_allOnes.symm.trans h
    exact ⟨_, decode_commandWord_nop a b, rfl⟩
  | 1, rfl =>
    obtain rfl : w = commandWord 1 0 := BitVec.and_allOnes.symm.trans h
    exact ⟨_, decode_commandWord_prepare a b (by decide), rfl⟩
  | 2, rfl =>
    obtain rfl : w = commandWord 1 1 := BitVec.and_allOnes.symm.trans h
    exact ⟨_, decode_commandWord_prepare a b (by decide), rfl⟩
  | 3, rfl =>
    obtain rfl : w = commandWord 1 2 := BitVec.and_allOnes.symm.trans h
    exact ⟨_, decode_commandWord_prepare a b (by decide), rfl⟩
  | 4, rfl =>
    obtain rfl : w = commandWord 2 0 := BitVec.and_allOnes.symm.trans h
    exact ⟨_, decode_commandWord_process a b, rfl⟩
  | 5, rfl =>
    obtain ⟨j, hj, rfl⟩ := eq_commandWord_add_of_and_eq (opc := 3) (arg := 0) (k := 8) h
    exact ⟨_, decode_commandWord_wrreg a b (by omega), rfl⟩
  | 6, rfl =>
    obtain ⟨j, hj, rfl⟩ := eq_commandWord_add_of_and_eq (opc := 4) (arg := 0) (k := 8) h
    exact ⟨_, decode_commandWord_rdreg a b (by omega), rfl⟩
  | 7, rfl =>
    obtain ⟨j, hj, rfl⟩ := eq_commandWord_add_of_and_eq (opc := 5) (arg := 0) (k := 1) h
    rw [decode_commandWord_rdmem a b (by omega)]
    interval_cases j
    · exact ⟨_, rfl, rfl⟩
    · exact ⟨_, rfl, rfl⟩

/-- A transfer decodes to a command of row `n` exactly when its word matches row `n`. -/
theorem decode_row_iff (c : Command) (n : Nat) :
    (∃ i, decode c = .ok i ∧ rowOf i = n) ↔ ∃ r, opcodeRows[n]? = some r ∧ c.word &&& r.2 = r.1 := by
  constructor
  · rintro ⟨i, hd, rfl⟩
    exact ⟨row i, opcodeRows_rowOf i, word_matches_row_of_decode hd⟩
  · rintro ⟨r, hr, hm⟩
    exact decode_of_matches hr hm

/-- Settles O2: `decode_row_iff`, and an error is the absence of a command, hence of a row. -/
theorem decodeAcceptsExactlyTheOpcodeRows : Obligations.DecodeAcceptsExactlyTheOpcodeRows := by
  intro c
  refine ⟨decode_row_iff c, ?_, ?_⟩
  · rintro ⟨e, he⟩ r hr hm
    obtain ⟨n, hn⟩ := List.mem_iff_getElem?.mp hr
    obtain ⟨i, hd, -⟩ := decode_of_matches hn hm
    rw [he] at hd
    cases hd
  · intro hnone
    cases hd : decode c with
    | error e => exact ⟨e, rfl⟩
    | ok i => exact absurd (word_matches_row_of_decode hd) (hnone _ (List.mem_of_getElem? (opcodeRows_rowOf i)))

/-! ### The operand words (R83) -/

theorem decodePrepare_operands (arg : Nat) (s m s' m' : Word) :
    decodePrepare arg s' m' = (decodePrepare arg s m).map (withOperands s' m') := by
  unfold decodePrepare
  split_ifs <;> rfl

theorem decodeRdmem_operands (arg : Nat) (a a' b' : Word) :
    decodeRdmem arg a' = (decodeRdmem arg a).map (withOperands a' b') := by
  unfold decodeRdmem
  split_ifs <;> rfl

/-- The operand words decide neither the command nor the error: they only fill in the operands. -/
theorem decode_operands (w a b a' b' : Word) :
    decode ⟨w, a', b'⟩ = (decode ⟨w, a, b⟩).map (withOperands a' b') := by
  unfold decode
  dsimp only
  split
  · rfl
  · split
    · rfl
    · split
      · split <;> rfl
      · exact decodePrepare_operands _ _ _ _ _
      · split <;> rfl
      · rfl
      · rfl
      · exact decodeRdmem_operands _ _ _ _
      · rfl

/-- Settles O3: both clauses, and that the operands are the words given, are cases of `decode_operands`. -/
theorem unusedOperandWordsAreIgnored : Obligations.UnusedOperandWordsAreIgnored := by
  intro w a b a' b'
  refine ⟨fun i h => ⟨?_, ?_⟩, fun e h => ?_⟩
  · have hsame := decode_operands w a b a b
    rw [h] at hsame
    exact Except.ok.inj hsame
  · rw [decode_operands w a b, h]; rfl
  · rw [decode_operands w a b, h]; rfl

/-! ### Words of 95_test_vectors.md -/

/-- Settles O4: each word is decoded by computation. -/
theorem wordsFromTheOpcodeMapDecode : Obligations.WordsFromTheOpcodeMapDecode :=
  ⟨rfl, rfl, rfl, rfl, rfl, rfl, rfl, rfl, rfl, rfl, rfl, rfl⟩

end Sys2Proof
end

section
/-! PROOFS. The commands of a list presented one after another, and DEFAULTS (R92). -/

namespace Sys2Proof.Machine

/-- A well-formed command presented first is the one that a step executes. -/
theorem step_offered {s : State} {i : Instr} {is : List Instr} (h : i.wf = true) :
    step (s.offered (i :: is)) = exec i (s.offered is) :=
  (step_command rfl).trans (runCommand_ok (decode_encode h))

/-- `s` with other parameter registers and another response: all that WRREG of a parameter register changes. -/
def State.withPar (s : State) (p : Params) (o : Option Response) : State := { s with par := p, rsp := o }

/-- A run that starts with a write of a parameter register. -/
theorem runSteps_offered_wrreg {s : State} {p : Params} {o : Option Response} {idx : Nat} {v : Word} {is : List Instr}
    {n : Nat} {r : ParamReg} (hr : paramOfIdx idx = some r) :
    runSteps (n + 1) ((s.withPar p o).offered (.wrreg idx v :: is)) =
      runSteps n ((s.withPar (writeParam r v p) (some ⟨0, 0, 0⟩)).offered is) := by
  have hwf : (Instr.wrreg idx v).wf = true := decide_eq_true (by have := paramOfIdx_some_le hr; omega)
  exact runSteps_succ ((step_offered hwf).trans (execWrreg_ok hr))

/-- Settles O17: eight writes, one for each field of the parameters. -/
theorem defaultsRestoreTheParameters : Obligations.DefaultsRestoreTheParameters := by
  intro s
  calc runSteps 8 ((s.withPar s.par s.rsp).offered Instr.defaults)
    _ = runSteps 7 _ := runSteps_offered_wrreg (r := .drywet) rfl
    _ = runSteps 6 _ := runSteps_offered_wrreg (r := .depth) rfl
    _ = runSteps 5 _ := runSteps_offered_wrreg (r := .rate) rfl
    _ = runSteps 4 _ := runSteps_offered_wrreg (r := .phaseoff) rfl
    _ = runSteps 3 _ := runSteps_offered_wrreg (r := .feedback) rfl
    _ = runSteps 2 _ := runSteps_offered_wrreg (r := .delaytime) rfl
    _ = runSteps 1 _ := runSteps_offered_wrreg (r := .mode) rfl
    _ = runSteps 0 _ := runSteps_offered_wrreg (r := .gain) rfl
    _ = _ := rfl

end Sys2Proof.Machine
end

section
/-! PROOFS. The ring buffer under a run of transfers (R110): a transfer that is no PREPARE keeps the ring and its length,
and moves the heads on by one slot if it is a PROCESS and by none if not. -/

namespace Sys2Proof.Machine

/-! ### What PROCESS does to the ring (R164, R165, R168) -/

/-- A channel's steps as the statements speak of them. -/
theorem channelStep_done {ch : Chan} {s t : State} {d x : Word} {r : ChannelStep}
    (h : channelStep ch s.aw s.len d s.par.feedback x (s.chan ch) = .ok r) (hwf : Memory.wf (s.chan ch).mem = true)
    (hwh : (s.chan ch).wh < s.len) (ht : t.chan ch = r.chan) : ChannelDone ch s t x r.delayed where
  stored := by rw [ht, (channelStep_cases h).2.2]; exact (memory_read_write hwf _ _ _).trans (if_pos rfl)
  others := fun _ hi => by rw [ht]; exact channelStep_frame hwf h hi
  fb := by rw [ht, (channelStep_cases h).2.2]
  wh := by rw [ht, (channelStep_cases h).2.2]; exact nextIndex_eq_mod hwh

/-- A PROCESS in a prepared state carries out both channels' steps and stays prepared, with the length it had. -/
theorem execProcess_done {inL inR : Word} {s t : State} (hs : s.Inv) (hp : s.prepared = true)
    (h : exec (.process inL inR) s = .next t) :
    t.prepared = true ∧ t.len = s.len ∧
      ∃ yL yR, ChannelDone .left s t inL yL ∧ ChannelDone .right s t inR yR := by
  rcases execProcess_cases h with ⟨hp', -⟩ | ⟨-, l, r, hl, hr, rfl⟩
  · rw [hp] at hp'; cases hp'
  · have hwh := hs.wh_lt hp
    exact ⟨(processFinish_prepared ..).trans hp, processFinish_len .., l.delayed, r.delayed,
      channelStep_done (ch := .left) hl hs.left_wf hwh (processFinish_left ..),
      channelStep_done (ch := .right) hr hs.right_wf (hs.wh_eq ▸ hwh) (processFinish_right ..)⟩

/-! ### Transfers that are no PREPARE -/

/-- `t` is a good prepared state with the ring of `s`, its heads `n` slots further on. -/
structure Advanced (n : Nat) (s t : State) : Prop where
  inv : t.Inv
  prepared : t.prepared = true
  len : t.len = s.len
  wh : t.left.wh = (s.left.wh + n) % s.len

theorem Advanced.trans {m n : Nat} {s t u : State} (h : Advanced m s t) (h' : Advanced n t u) : Advanced (m + n) s u where
  inv := h'.inv
  prepared := h'.prepared
  len := h'.len.trans h.len
  wh := by rw [h'.wh, h.wh, h.len, Nat.mod_add_mod, Nat.add_assoc]

/-- A good prepared state with the length and the left channel of `s` has not moved on. -/
theorem advanced_zero {s t : State} (hs : s.Inv) (hp : s.prepared = true) (ht : t.Inv) (hp' : t.prepared = true)
    (hlen : t.len = s.len) (hleft : t.left = s.left) : Advanced 0 s t :=
  ⟨ht, hp', hlen, by rw [hleft]; exact (Nat.mod_eq_of_lt (hs.wh_lt hp)).symm⟩

/-- Of the commands that are no PREPARE, only PROCESS moves the heads. -/
theorem exec_advanced {i : Instr} {s t : State} (hs : s.Inv) (hp : s.prepared = true) (hi : isPrepare i = false)
    (h : exec i s = .next t) : Advanced (isProcess i).toNat s t := by
  have ht : t.Inv := (exec_effect h).inv hs
  have observer (hobs : i = .nop ∨ (∃ idx, i = .rdreg idx) ∨ ∃ ch a, i = .rdmem ch a) : Advanced 0 s t := by
    rcases observer_cases hobs h with ⟨w, rfl⟩ | ⟨f, rfl⟩ <;> exact advanced_zero hs hp ht hp rfl rfl
  cases i with
  | nop => exact observer (.inl rfl)
  | rdreg idx => exact observer (.inr (.inl ⟨idx, rfl⟩))
  | rdmem ch a => exact observer (.inr (.inr ⟨ch, a, rfl⟩))
  | preparePlain => cases hi
  | prepareMod => cases hi
  | prepareUtil => cases hi
  | wrreg idx v =>
    rcases execWrreg_cases h with ⟨r, -, rfl⟩ | ⟨-, rfl⟩ <;> exact advanced_zero hs hp ht hp rfl rfl
  | process inL inR =>
    obtain ⟨hp', hlen, yL, yR, hl, -⟩ := execProcess_done hs hp h
    exact ⟨ht, hp', hlen, hl.wh⟩

/-- A transfer that is no PREPARE, an illegal one included, is answered and leaves the port alone. -/
theorem runCommand_advanced {c : Command} {s : State} (hs : s.Inv) (hp : s.prepared = true)
    (hc : decodesTo isPrepare c = false) :
    ∃ t, runCommand c s = .next t ∧ t.pending = s.pending ∧ Advanced (decodesTo isProcess c).toNat s t := by
  obtain ⟨t, ht, hpending, -⟩ := runCommand_answers hs c
  refine ⟨t, ht, hpending, ?_⟩
  cases hd : decode c with
  | error e =>
    rw [runCommand_error hd] at ht
    cases ht
    rw [decodesTo_of_error hd]
    exact advanced_zero hs hp (hs.congr rfl rfl rfl rfl rfl rfl id) hp rfl rfl
  | ok i =>
    rw [runCommand_ok hd] at ht
    rw [decodesTo_of_ok hd] at hc ⊢
    exact exec_advanced hs hp hc ht

/-- The run through the port: every PROCESS in it counts one slot. -/
theorem runSteps_advanced {cs : List Command} {s : State} (hs : s.Inv) (hp : s.prepared = true)
    (hpending : s.pending = cs.map PortEvent.command) (hcs : ∀ c ∈ cs, decodesTo isPrepare c = false) :
    ∃ t, runSteps cs.length s = .next t ∧ Advanced (cs.countP (decodesTo isProcess)) s t := by
  induction cs generalizing s with
  | nil => exact ⟨s, rfl, advanced_zero hs hp hs hp rfl rfl⟩
  | cons c cs ih =>
    obtain ⟨hc, hcs⟩ := List.forall_mem_cons.mp hcs
    have htaken : ({ s with pending := cs.map PortEvent.command } : State).Inv := hs.congr rfl rfl rfl rfl rfl rfl id
    obtain ⟨s', hs', hpending', hfirst⟩ := runCommand_advanced htaken hp hc
    obtain ⟨t, ht, hrest⟩ := ih hfirst.inv hfirst.prepared hpending' hcs
    refine ⟨t, (runSteps_succ ((step_command hpending).trans hs')).trans ht, ?_⟩
    have hcount : (c :: cs).countP (decodesTo isProcess) =
        (decodesTo isProcess c).toNat + cs.countP (decodesTo isProcess) := by
      rw [List.countP_cons, Nat.add_comm]; cases decodesTo isProcess c <;> rfl
    have hfirst : Advanced (decodesTo isProcess c).toNat s s' := ⟨hfirst.inv, hfirst.prepared, hfirst.len, hfirst.wh⟩
    rw [hcount]
    exact hfirst.trans hrest

/-- Settles O23: the run puts both heads at the number of its PROCESS commands, and the next one stores there. -/
theorem processNumberWritesSlotModuloLength : Obligations.ProcessNumberWritesSlotModuloLength := by
  intro s cs inL inR hs hp hwh hcs
  obtain ⟨t, ht, hrun⟩ := runSteps_advanced (s := { s with pending := cs.map PortEvent.command })
    (hs.congr rfl rfl rfl rfl rfl rfl id) hp rfl hcs
  obtain ⟨u, hu⟩ := exec_answers hrun.inv (.process inL inR)
  obtain ⟨-, -, yL, yR, hl, hr⟩ := execProcess_done hrun.inv hrun.prepared hu
  have hleft : t.left.wh = cs.countP (decodesTo isProcess) % s.len := by rw [hrun.wh, hwh, Nat.zero_add]
  have hright : t.right.wh = cs.countP (decodesTo isProcess) % s.len := hrun.inv.wh_eq.trans hleft
  have hnext (k : Nat) : (k % s.len + 1) % t.len = (k + 1) % s.len := by rw [hrun.len, Nat.mod_add_mod]
  refine ⟨t, u, ht, hu, ?_, ?_, hleft ▸ hl.stored, hright ▸ hr.stored,
    fun i hi => ⟨hl.others i (hleft ▸ hi), hr.others i (hright ▸ hi)⟩⟩
  · rw [← hnext, ← hleft]; exact hl.wh
  · rw [← hnext, ← hright]; exact hr.wh

end Sys2Proof.Machine
end

section
/-! PROOFS. The delay line as numbers (R104 to R106, R108): the laws of the read in units of 2^-149 carried over to values. -/

namespace Sys2Proof.Machine

/-! ### Values against whole numbers -/

theorem valueRat_lt_iff {w : Word} {n : Int} : valueRat w < n ↔ valueUnits w < n * 2 ^ 149 := by
  rw [valueRat, div_lt_iff₀ (by positivity)]; exact_mod_cast Iff.rfl

theorem lt_valueRat_iff {w : Word} {n : Int} : (n : Rat) < valueRat w ↔ n * 2 ^ 149 < valueUnits w := by
  rw [valueRat, lt_div_iff₀ (by positivity)]; exact_mod_cast Iff.rfl

theorem le_valueRat_iff {w : Word} {n : Int} : (n : Rat) ≤ valueRat w ↔ n * 2 ^ 149 ≤ valueUnits w := by
  rw [← not_lt, valueRat_lt_iff, not_lt]

theorem valueRat_le_iff {w : Word} {n : Int} : valueRat w ≤ n ↔ valueUnits w ≤ n * 2 ^ 149 := by
  rw [← not_lt, lt_valueRat_iff, not_lt]

theorem valueRat_nonneg_iff {w : Word} : 0 ≤ valueRat w ↔ 0 ≤ valueUnits w := by
  simpa using le_valueRat_iff (w := w) (n := 0)

theorem valueRat_lt_natCast_iff {w : Word} {n : Nat} : valueRat w < n ↔ valueUnits w < (n : Int) * 2 ^ 149 :=
  valueRat_lt_iff (n := n)

/-! ### The range check (R104) -/

/-- Settles O24. -/
theorem rangeCheckIsTheHalfOpenInterval : Obligations.RangeCheckIsTheHalfOpenInterval := by
  intro len d hlen
  rw [valueRat_nonneg_iff, valueRat_lt_natCast_iff]
  exact ⟨delayInRange_units hlen, fun ⟨hd, h0, h1⟩ => delayInRange_of_units hlen (not_nan_of_finite hd) h0 h1⟩

/-! ### The read position (R105, R108) -/

/-- The fraction of SPLIT is the position less its whole part, as a value. -/
theorem valueRat_of_units_sub {p q : Word} {n : Nat} (h : valueUnits q = valueUnits p - (n : Int) * 2 ^ 149) :
    valueRat q = valueRat p - n := by
  rw [valueRat, valueRat, h, Int.cast_sub, Int.cast_mul, Int.cast_natCast, Int.cast_pow, Int.cast_ofNat, sub_div,
    mul_div_cancel_right₀ _ (by positivity)]

/-- Settles O25: the bounds of the first difference, of the position, of the indices and of the fraction. -/
theorem readPositionIsInRange : Obligations.ReadPositionIsInRange := by
  intro len wh d hwh hlen hcheck
  obtain ⟨hd, h0, h1⟩ := delayInRange_units hlen hcheck
  obtain ⟨hlo, hhi⟩ := pos0_units hwh hlen hd h0 h1
  obtain ⟨hpos, hpos0, hpos1⟩ := readPos_units hwh hlen hd h0 h1
  obtain ⟨hi0, hi1⟩ := readPoint_lt hwh hlen hcheck
  obtain ⟨hfrac, hvalue, hfrac0, hfrac1⟩ := splitPos_frac hlen hpos hpos0 hpos1
  refine ⟨?_, ?_, hpos, valueRat_nonneg_iff.mpr hpos0, valueRat_lt_natCast_iff.mpr hpos1, hi0, hi1, hfrac,
    valueRat_of_units_sub hvalue, valueRat_nonneg_iff.mpr hfrac0, ?_⟩
  · exact_mod_cast lt_valueRat_iff.mpr (show (-(len : Int)) * 2 ^ 149 < _ by rwa [neg_mul])
  · have := valueRat_le_iff.mpr hhi
    rwa [Nat.cast_sub (by omega), Nat.cast_one, Int.cast_sub, Int.cast_natCast, Int.cast_one] at this
  · exact_mod_cast valueRat_lt_natCast_iff.mpr (show _ < ((1 : Nat) : Int) * 2 ^ 149 by rwa [Nat.cast_one, one_mul])

/-! ### The write head (R106) -/

/-- Settles O27. -/
theorem advanceWrapsAtTheLength : Obligations.AdvanceWrapsAtTheLength := fun _ _ h => ⟨rfl, nextIndex_lt h⟩

end Sys2Proof.Machine
end

section
/-! PROOFS. A read at delay zero (R109, R122): the position is the write head and the fraction +0, so INTERP takes the word
just written whole and the next slot's word times a zero. -/

namespace Sys2Proof.Machine

/-! ### 1.0 as a factor and a zero as a summand -/

theorem not_zero_of_inf {w : Word} (h : isInf w = true) : isZero w = false := by
  rw [Bool.eq_false_iff, Ne, isZero_iff, (isInf_iff w).mp h]; decide

/-- A product with 1.0 is exact, a zero's and an infinity's sign included. -/
theorem one_fmul {x : Word} (h : isNaN x = false) : fmul one x = x := by
  rcases finite_or x with hx | hx | hx
  · rw [fmul_finite isFinite_one hx, roundMag_exact (m := magBits x) (by positivity) ((isFinite_iff x).mp hx).le]
    · exact (congrArg (packBits · _) (Bool.false_bne _)).trans (packBits_self x)
    · rw [Nat.mul_comm]; congr 1
  · have : fmul one x = packBits (signBit x) infBits := by
      simp [fmul, hx, h, not_zero_of_inf hx, show isNaN one = false from rfl, show isZero one = false from rfl,
        show signBit one = false from rfl]
    rw [this, ← (isInf_iff x).mp hx, packBits_self]
  · rw [hx] at h; cases h

/-- The sign of a value that is not zero is the pattern's. -/
theorem decide_valueUnits_neg {x : Word} (h : valueUnits x ≠ 0) : decide (valueUnits x < 0) = signBit x := by
  have hv := valueUnits_eq x
  cases hs : signBit x
  · rw [hs, if_neg (by decide)] at hv
    exact decide_eq_false (by omega)
  · rw [hs, if_pos rfl] at hv
    exact decide_eq_true (by omega)

/-- A zero of either sign leaves a number that is no zero as it is. -/
theorem fadd_zero {x z : Word} (h : isNaN x = false) (h0 : isZero x = false) (hz : isZero z = true) : fadd x z = x := by
  have hzf := finite_of_zero hz
  rcases finite_or x with hx | hx | hx
  · have hval : valueUnits x + valueUnits z = valueUnits x := by
      rw [valueUnits_eq_zero.mpr ((isZero_iff z).mp hz), Int.add_zero]
    have hne : valueUnits x ≠ 0 := by rw [Ne, valueUnits_eq_zero, ← isZero_iff, h0]; decide
    rw [fadd_finite hx hzf, hval, if_neg hne, natAbs_valueUnits,
      roundMag_exact one_pos ((isFinite_iff x).mp hx).le (Nat.mul_one _).symm, decide_valueUnits_neg hne]
    exact packBits_self x
  · simp [fadd, hx, h, not_nan_of_finite hzf, not_inf_of_finite hzf]
  · rw [hx] at h; cases h

/-- A sum of zeros is a zero. -/
theorem isZero_fadd {x z : Word} (hx : isZero x = true) (hz : isZero z = true) : isZero (fadd x z) = true := by
  rw [isZero_iff, magBits_fadd (finite_of_zero hx) (finite_of_zero hz), valueUnits_eq_zero.mpr ((isZero_iff x).mp hx),
    valueUnits_eq_zero.mpr ((isZero_iff z).mp hz)]
  exact roundMag_zero one_pos

/-- A zero times a number is a zero, times anything else the canonical NaN. -/
theorem plusZero_fmul (x : Word) :
    (isFinite x = true → isZero (fmul plusZero x) = true) ∧ (isFinite x = false → fmul plusZero x = canonicalNaN) := by
  constructor
  · intro hx
    rw [zero_fmul rfl hx, isZero_iff, magBits_packBits _ (by decide)]
  · intro hx
    rcases finite_or x with hf | hi | hn
    · rw [hf] at hx; cases hx
    · exact zero_fmul_inf rfl hi
    · exact fmul_nan (.inr hn)

/-! ### INTERP at the fraction +0 (R121, R122) -/

theorem interp_plusZero (x0 x1 : Word) : interp x0 x1 plusZero = fadd (fmul one x0) (fmul plusZero x1) := by
  rw [interp, show fsub one plusZero = one by decide]

/-- With a finite second word INTERP gives the first back. -/
theorem interp_plusZero_finite {x0 x1 : Word} (h0 : isNaN x0 = false) (h1 : isFinite x1 = true) :
    feq (interp x0 x1 plusZero) x0 = true ∧ (isZero x0 = false → interp x0 x1 plusZero = x0) := by
  have hz := (plusZero_fmul x1).1 h1
  rw [interp_plusZero, one_fmul h0]
  cases hx : isZero x0 with
  | false =>
    rw [fadd_zero h0 hx hz]
    exact ⟨(feq_iff h0 h0).mpr rfl, fun _ => rfl⟩
  | true =>
    have hsum := isZero_fadd hx hz
    refine ⟨(feq_iff (not_nan_of_finite (finite_of_zero hsum)) h0).mpr ?_, nofun⟩
    rw [valueUnits_eq_zero.mpr ((isZero_iff _).mp hsum), valueUnits_eq_zero.mpr ((isZero_iff _).mp hx)]

/-- A NaN as the first word, or a second word that is no number, gives the canonical NaN. -/
theorem interp_plusZero_canonical {x0 x1 : Word} (h : isNaN x0 = true ∨ isFinite x1 = false) :
    interp x0 x1 plusZero = canonicalNaN := by
  rw [interp_plusZero]
  rcases h with h | h
  · exact fadd_nan (.inl (by rw [fmul_nan (.inr h)]; rfl))
  · exact fadd_nan (.inr (by rw [(plusZero_fmul x1).2 h]; rfl))

/-! ### The read point at delay zero (R103, R105) -/

theorem ifloor_u2f {n : Nat} (h : n ≤ 2 ^ 24) : ifloor (u2f n) = n := by
  obtain ⟨m, hm, hv, he⟩ := u2f_bits h
  rw [ifloor, magUnits_eq, he, magBits_packBits _ (hm.trans infBits_lt), hv, Nat.mul_div_cancel _ (by positivity)]

theorem fsub_u2f_plusZero {n : Nat} (h : n ≤ 2 ^ 24) : fsub (u2f n) plusZero = u2f n := by
  rcases Nat.eq_zero_or_pos n with rfl | hn
  · decide
  · refine fadd_zero (not_nan_of_finite (isFinite_u2f h)) ?_ rfl
    rw [Bool.eq_false_iff, Ne, isZero_iff, ← valueUnits_eq_zero, valueUnits_u2f h]
    exact (Int.mul_pos (by omega) (by positivity)).ne'

/-- Neither correction of READPOS applies to a position that is a slot. -/
theorem readPos_plusZero {len wh : Nat} (hwh : wh < len) (hlen : len ≤ 2 ^ 24) : readPos len wh plusZero = u2f wh := by
  have hf := not_nan_of_finite (isFinite_u2f (n := wh) (by omega))
  have hv := valueUnits_u2f (n := wh) (by omega)
  have hlow : ¬ flt (u2f wh) plusZero = true := by
    rw [flt_iff hf rfl, hv, valueUnits_plusZero]; omega
  have hhigh : ¬ fle (u2f len) (u2f wh) = true := by
    rw [fle_iff (not_nan_of_finite (isFinite_u2f hlen)) hf, hv, valueUnits_u2f hlen]; omega
  rw [readPos, fsub_u2f_plusZero (by omega)]
  rw [if_neg hlow, if_neg hhigh]

theorem readPoint_plusZero {len wh : Nat} (hwh : wh < len) (hlen : len ≤ 2 ^ 24) :
    readPoint len wh plusZero = ⟨wh, (wh + 1) % len, plusZero⟩ := by
  have hwh' : wh ≤ 2 ^ 24 := by omega
  rw [readPoint, readPos_plusZero hwh hlen, splitPos, ifloor_u2f hwh', nextIndex_eq_mod hwh,
    fsub_self (isFinite_u2f hwh')]
  rfl

/-- DL_READI at delay zero from a head that is a slot. -/
theorem dlReadI_plusZero (ch : Chan) {aw len : Nat} {c : Channel} (hwh : c.wh < len) (hlen : len ≤ 2 ^ 24)
    (hdepth : len ≤ depthWords aw) :
    dlReadI ch aw len plusZero c =
      .ok (interp (Memory.read c.mem c.wh) (Memory.read c.mem ((c.wh + 1) % len)) plusZero, false) := by
  have hcheck : delayInRange len plusZero = true :=
    delayInRange_of_units hlen rfl valueUnits_plusZero.ge
      (by rw [valueUnits_plusZero]; exact Int.mul_pos (by omega) (by positivity))
  obtain ⟨h0, h1⟩ := readPoint_lt hwh hlen hcheck
  rw [dlReadI_ok hcheck (h0.trans_le hdepth) (h1.trans_le hdepth), readPoint_plusZero hwh hlen]

/-- Settles O26: the read is INTERP of the word written and the next slot's word at the fraction +0. -/
theorem delayZeroReturnsTheWordWritten : Obligations.DelayZeroReturnsTheWordWritten := by
  intro ch aw len v c hwf hwh hdepth haw
  have hlen : len ≤ 2 ^ 24 := hdepth.trans (Nat.pow_le_pow_right (by decide) haw)
  have hread := dlReadI_plusZero ch (c := { c with mem := Memory.write c.mem c.wh v }) hwh hlen hdepth
  have hwritten : Memory.read (Memory.write c.mem c.wh v) c.wh = v := (memory_read_write hwf _ _ _).trans (if_pos rfl)
  rw [hwritten] at hread
  exact ⟨_, _, dlWrite_ok (hwh.trans_le hdepth), hread,
    fun hnext => ⟨fun hv => interp_plusZero_finite hv hnext, fun hv => interp_plusZero_canonical (.inl hv)⟩,
    fun hnext => interp_plusZero_canonical (.inr hnext)⟩

end Sys2Proof.Machine
end

section
/-! PROOFS. INTERP at both ends (R121). The fraction 1.0 is the fraction +0 with the two words exchanged, so its end is the
one already proved for a read at delay zero. -/

namespace Sys2Proof.Machine

theorem fadd_comm {a b : Word} (ha : isFinite a = true) (hb : isFinite b = true) : fadd a b = fadd b a := by
  rw [fadd_finite ha hb, fadd_finite hb ha, Int.add_comm, Bool.and_comm]

theorem interp_one (x0 x1 : Word) : interp x0 x1 one = fadd (fmul plusZero x0) (fmul one x1) := by
  rw [interp, show fsub one one = plusZero by decide]

theorem interp_one_eq_interp_plusZero {x0 x1 : Word} (h0 : isFinite x0 = true) (h1 : isFinite x1 = true) :
    interp x0 x1 one = interp x1 x0 plusZero := by
  have hzero : isFinite (fmul plusZero x0) = true := finite_of_zero ((plusZero_fmul x0).1 h0)
  have hone : isFinite (fmul one x1) = true := by rwa [one_fmul (not_nan_of_finite h1)]
  rw [interp_one, interp_plusZero, fadd_comm hzero hone]

/-- Settles O28: both ends from the one at +0; the two examples add zeros of different signs. -/
theorem interpReturnsItsEnds : Obligations.InterpReturnsItsEnds := by
  refine ⟨fun x0 x1 h0 h1 => ?ends, by decide, by decide⟩
  obtain ⟨heq0, hbits0⟩ := interp_plusZero_finite (not_nan_of_finite h0) h1
  obtain ⟨heq1, hbits1⟩ := interp_plusZero_finite (not_nan_of_finite h1) h0
  rw [interp_one_eq_interp_plusZero h0 h1]
  exact ⟨heq0, heq1, hbits0, hbits1⟩

end Sys2Proof.Machine
end

section
/-! PROOFS. The smoother (R125, R129, R130). A coefficient is at most one half, so the part of the difference that a step
takes off is at most the exact difference, although the difference was itself rounded: where the rounding went up, the
pattern before the rounded one is below the exact difference and still at least half of the rounded one. -/

namespace Sys2Proof.Machine

/-! ### A rounded part of a rounded magnitude -/

/-- The next pattern is at most twice as large. -/
theorem bitsUnits_succ_le_two_mul {m : Nat} (h : 0 < m) : bitsUnits (m + 1) ≤ 2 * bitsUnits m := by
  rcases exists_step m with hm | ⟨k, s, rfl, hs, hs'⟩
  · rw [bitsUnits_small (by omega), bitsUnits_small (by omega)]; omega
  · rw [bitsUnits_step hs hs'.le, Nat.add_assoc, bitsUnits_step (by omega) hs', ← Nat.mul_assoc]
    exact Nat.mul_le_mul_right _ (by omega)

/-- A factor of at most 1.0 gives no larger pattern. -/
theorem roundMag_mul_le {u m : Nat} (hu : u ≤ 2 ^ 149) : roundMag (u * bitsUnits m) (2 ^ 149) ≤ m :=
  roundMag_le_of_le (by positivity) (by rw [Nat.mul_comm]; exact Nat.mul_le_mul_left _ hu)

/-- At most half of a rounded magnitude, rounded again, is at most the exact magnitude. -/
theorem bitsUnits_round_half_le {u n : Nat} (hu : 2 * u ≤ 2 ^ 149) :
    bitsUnits (roundMag (u * bitsUnits (roundMag n 1)) (2 ^ 149)) ≤ n := by
  rcases Nat.lt_or_ge n (bitsUnits (roundMag n 1)) with hup | hdown
  case inr => exact (bitsUnits_mono (roundMag_mul_le (by omega))).trans hdown
  case inl =>
    cases hr : roundMag n 1 with
    | zero => rw [hr, bitsUnits_zero] at hup; omega
    | succ p =>
      rw [hr] at hup
      have hp : bitsUnits p < n := by
        by_contra h
        have := roundMag_le_of_le (n := n) (d := 1) (m := p) one_pos (by omega)
        omega
      have hpos : 0 < p := by
        by_contra h
        rw [show p = 0 by omega, bitsUnits_zero] at hp
        rw [show p = 0 by omega, bitsUnits_small (by decide)] at hup
        omega
      have hpart : u * bitsUnits (p + 1) ≤ bitsUnits p * 2 ^ 149 :=
        calc u * bitsUnits (p + 1) ≤ u * (2 * bitsUnits p) := Nat.mul_le_mul_left _ (bitsUnits_succ_le_two_mul hpos)
          _ = bitsUnits p * (2 * u) := by ring
          _ ≤ bitsUnits p * 2 ^ 149 := Nat.mul_le_mul_left _ hu
      exact (bitsUnits_mono (roundMag_le_of_le (by positivity) hpart)).trans hp.le

/-! ### The part of the difference that a step takes off -/

/-- A factor without a sign of at most one half, as both coefficients are. -/
structure AtMostHalf (k : Word) : Prop where
  finite : isFinite k = true
  sign : signBit k = false
  le_half : 2 * bitsUnits (magBits k) ≤ 2 ^ 149

/-- K_TIME and K_GAIN (R126) are such factors. -/
theorem atMostHalf_of_coefficient {k : Word} (h : k = kTime ∨ k = kGain) : AtMostHalf k := by
  rcases h with rfl | rfl
  · exact ⟨by decide, by decide, by decide⟩
  · exact ⟨by decide, by decide, by decide⟩

section
variable {cur target k : Word} (hk : AtMostHalf k)
include hk

theorem AtMostHalf.isFinite_fmul {e : Word} (he : isFinite e = true) : isFinite (fmul k e) = true := by
  rw [isFinite_iff] at he ⊢
  rw [magBits_fmul hk.finite ((isFinite_iff e).mpr he)]
  have := hk.le_half
  exact (roundMag_mul_le (by omega)).trans_lt he

theorem AtMostHalf.signBit_fmul {e : Word} (he : isFinite e = true) : signBit (fmul k e) = signBit e := by
  rw [Machine.signBit_fmul hk.finite he, hk.sign, Bool.false_bne]

variable (hc : isFinite cur = true) (he : isFinite (fsub cur target) = true)
include hc he

theorem smStep_not_nan : isNaN (smStep cur target k) = false := fsub_not_nan hc (hk.isFinite_fmul he)

variable (ht : isFinite target = true)
include ht

/-- The part taken off is at most the exact difference, in magnitude. -/
theorem natAbs_smoothing_part_le :
    (valueUnits (fmul k (fsub cur target))).natAbs ≤ (valueUnits cur - valueUnits target).natAbs := by
  have hmag : magBits (fsub cur target) = roundMag (valueUnits cur - valueUnits target).natAbs 1 := by
    rw [fsub, magBits_fadd hc (by simpa using ht), valueUnits_fneg, ← sub_eq_add_neg]
  rw [natAbs_valueUnits, magBits_fmul hk.finite he, hmag]
  exact bitsUnits_round_half_le hk.le_half

/-- The part taken off lies between zero and the exact difference. -/
theorem smoothing_part_between :
    (valueUnits cur ≤ valueUnits target →
      valueUnits cur - valueUnits target ≤ valueUnits (fmul k (fsub cur target)) ∧
        valueUnits (fmul k (fsub cur target)) ≤ 0) ∧
    (valueUnits target ≤ valueUnits cur →
      0 ≤ valueUnits (fmul k (fsub cur target)) ∧
        valueUnits (fmul k (fsub cur target)) ≤ valueUnits cur - valueUnits target) := by
  have habs := natAbs_smoothing_part_le hk hc he ht
  have hv := valueUnits_eq (fmul k (fsub cur target))
  have hsign : valueUnits cur - valueUnits target ≠ 0 →
      signBit (fmul k (fsub cur target)) = decide (valueUnits cur - valueUnits target < 0) := fun hne => by
    rw [hk.signBit_fmul he, fsub_finite hc ht, if_neg hne, signBit_packBits _ (roundMag_lt _ _)]
  rcases lt_trichotomy (valueUnits cur - valueUnits target) 0 with hlt | heq | hgt
  · rw [hsign hlt.ne, decide_eq_true hlt, if_pos rfl] at hv
    omega
  · omega
  · rw [hsign hgt.ne', decide_eq_false hgt.not_gt, if_neg (by decide)] at hv
    omega

/-! ### The step -/

/-- The step lies between `cur` and the target. -/
theorem smStep_between :
    (valueUnits cur ≤ valueUnits target →
      valueUnits cur ≤ valueUnits (smStep cur target k) ∧ valueUnits (smStep cur target k) ≤ valueUnits target) ∧
    (valueUnits target ≤ valueUnits cur →
      valueUnits (smStep cur target k) ≤ valueUnits cur ∧ valueUnits target ≤ valueUnits (smStep cur target k)) := by
  have hs := hk.isFinite_fmul he
  obtain ⟨hup, hdown⟩ := smoothing_part_between hk hc he ht
  refine ⟨fun h => ?_, fun h => ?_⟩
  · obtain ⟨hlo, hhi⟩ := hup h
    exact ⟨le_valueUnits_fsub hc hs (not_nan_of_finite hc) (by omega),
      valueUnits_fsub_le hc hs (not_nan_of_finite ht) (by omega)⟩
  · obtain ⟨hlo, hhi⟩ := hdown h
    exact ⟨valueUnits_fsub_le hc hs (not_nan_of_finite hc) (by omega),
      le_valueUnits_fsub hc hs (not_nan_of_finite ht) (by omega)⟩

end

/-- Settles O31: the step is the exact difference of `cur` and a part of the way to the target, rounded once. -/
theorem smootherNeverOvershoots : Obligations.SmootherNeverOvershoots := by
  intro cur target k hk hc ht he
  have hk := atMostHalf_of_coefficient hk
  have hcn := not_nan_of_finite hc
  have htn := not_nan_of_finite ht
  have hn := smStep_not_nan hk hc he
  rw [fle_iff hcn htn, fle_iff htn hcn, fle_iff hcn hn, fle_iff hn htn, fle_iff hn hcn, fle_iff htn hn]
  exact smStep_between hk hc he ht

/-! ### At the target (R129) -/

/-- Words of equal value have a zero as their difference. -/
theorem isZero_fsub_of_units_eq {a b : Word} (ha : isFinite a = true) (hb : isFinite b = true)
    (h : valueUnits a = valueUnits b) : isZero (fsub a b) = true := by
  rw [fsub_finite ha hb, if_pos (sub_eq_zero.mpr h), isZero_iff, magBits_packBits _ (by decide)]

/-- Subtracting +0 keeps a finite word, a zero's sign included. -/
theorem fsub_plusZero {x : Word} (h : isFinite x = true) : fsub x plusZero = x := by
  have hsign : (signBit x && !signBit plusZero) = signBit x := Bool.and_true _
  cases h0 : isZero x with
  | false => exact fadd_zero (not_nan_of_finite h) h0 (by decide)
  | true =>
    have hm := (isZero_iff x).mp h0
    rw [fsub_finite h isFinite_plusZero, valueUnits_eq_zero.mpr hm, valueUnits_plusZero, if_pos (sub_self 0), hsign, ← hm]
    exact packBits_self x

theorem smStep_self {x k : Word} (hk : AtMostHalf k) (hx : isFinite x = true) : smStep x x k = x := by
  have hpart : fmul k (fsub x x) = plusZero := by
    rw [fsub_self hx, fmul_comm, zero_fmul (by decide) hk.finite, hk.sign]; rfl
  rw [smStep, hpart]
  exact fsub_plusZero hx

/-- Settles O30: with equal values the step lies between the two; with equal patterns it takes +0 off. -/
theorem smootherStaysAtItsTarget : Obligations.SmootherStaysAtItsTarget := by
  intro cur target k hk hc ht
  have hk := atMostHalf_of_coefficient hk
  have hcn := not_nan_of_finite hc
  refine ⟨fun heq => ?value, fun h => h ▸ smStep_self hk hc⟩
  rw [feq_iff hcn (not_nan_of_finite ht)] at heq
  have he := finite_of_zero (isZero_fsub_of_units_eq hc ht heq)
  obtain ⟨hlo, hhi⟩ := (smStep_between hk hc he ht).1 heq.le
  exact (feq_iff (smStep_not_nan hk hc he) hcn).mpr (by omega)

end Sys2Proof.Machine
end

section
/-! PROOFS. The sine of the LFO (R141). A value that LFO_SIN answers in [0, 1) is an exact one (the quarter points), one that
`sinAdmits` accepts, or the polynomial of `sinRat` rounded to binary32; each is within SIN_ERR of the real sine. Then the
top of the delay-time window (R145), from the end of INTERP at the fraction 1.0 (R121). -/

namespace Sys2Proof.Machine

/-! ### The rounding error of a number in [-1, 1] -/

/-- Below 2.0 the patterns are at most 2^-23 apart. -/
theorem bitsUnits_succ_le_add {m : Nat} (h : m < 0x40000000) : bitsUnits (m + 1) ≤ bitsUnits m + 2 ^ 126 := by
  rcases exists_step m with hm | ⟨k, s, rfl, hs, hs'⟩
  · rw [bitsUnits_small (by omega), bitsUnits_small (by omega)]; omega
  · rw [bitsUnits_step hs hs'.le, Nat.add_assoc, bitsUnits_step (by omega) hs', Nat.succ_mul]
    exact Nat.add_le_add_left (Nat.pow_le_pow_right (by decide) (by omega)) _

theorem bitsUnits_one : bitsUnits (magBits one) = 2 ^ 149 := by decide

/-- A magnitude of at most 1.0 rounds to one of at most 1.0, no farther away than 2^-24. -/
theorem roundMag_error_le {n d : Nat} (hd : 0 < d) (h : n ≤ 2 ^ 149 * d) :
    roundMag n d ≤ magBits one ∧ |(bitsUnits (roundMag n d) : Int) * d - n| ≤ 2 ^ 125 * d := by
  have hle : roundMag n d ≤ magBits one := roundMag_le_of_le hd (by rwa [bitsUnits_one])
  refine ⟨hle, ?_⟩
  have hbits : roundMag n d = roundBits n d := roundMag_of_lt (hle.trans_lt (by decide))
  rw [hbits, show magBits one = 0x3F800000 by decide] at hle
  rw [hbits]
  obtain ⟨habove, hbelow⟩ := roundBits_between (n := n) hd
  generalize roundBits n d = m at *
  have hup : 2 * n ≤ 2 * (bitsUnits m * d) + 2 ^ 126 * d :=
    calc 2 * n ≤ (bitsUnits m + bitsUnits (m + 1)) * d := habove
      _ ≤ (bitsUnits m + (bitsUnits m + 2 ^ 126)) * d := by gcongr; exact bitsUnits_succ_le_add (by omega)
      _ = 2 * (bitsUnits m * d) + 2 ^ 126 * d := by ring
  have hdown : 2 * (bitsUnits m * d) ≤ 2 * n + 2 ^ 126 * d := by
    cases m with
    | zero => simp
    | succ p =>
      calc 2 * (bitsUnits (p + 1) * d) = (bitsUnits (p + 1) + bitsUnits (p + 1)) * d := by ring
        _ ≤ (bitsUnits p + 2 ^ 126 + bitsUnits (p + 1)) * d := by gcongr; exact bitsUnits_succ_le_add (by omega)
        _ = (bitsUnits p + bitsUnits (p + 1)) * d + 2 ^ 126 * d := by ring
        _ ≤ 2 * n + 2 ^ 126 * d := Nat.add_le_add_right (hbelow p.succ_pos) _
  rw [abs_le, ← Int.natCast_mul]
  omega

/-- A rational as its sign and the magnitude that `roundRat` rounds. -/
theorem abs_eq_units (r : Rat) : |r| = (r.num.natAbs * 2 ^ 149 : Nat) / (r.den * 2 ^ 149) := by
  rw [Nat.cast_mul, Nat.cast_pow, Nat.cast_ofNat, mul_div_mul_right _ _ (by positivity), Nat.cast_natAbs, Int.cast_abs,
    ← abs_of_pos (show (0 : Rat) < r.den by exact_mod_cast r.pos), ← abs_div, Rat.num_div_den]

/-- `roundRat` keeps the sign and rounds the magnitude. -/
theorem abs_valueRat_roundRat_sub (r : Rat) :
    |valueRat (roundRat r) - r| = |(bitsUnits (magBits (roundRat r)) : Rat) / 2 ^ 149 - abs r| := by
  have hsign : signBit (roundRat r) = decide (r < 0) := signBit_packBits _ (roundMag_lt _ _)
  rw [valueRat_eq, hsign]
  rcases lt_or_ge r 0 with hr | hr
  · rw [decide_eq_true hr, if_pos rfl, abs_of_neg hr, ← abs_neg, neg_sub', neg_neg]
  · rw [decide_eq_false hr.not_gt, if_neg (by decide), abs_of_nonneg hr]

theorem abs_valueRat (w : Word) : |valueRat w| = (bitsUnits (magBits w) : Rat) / 2 ^ 149 := by
  rw [valueRat, abs_div, ← Int.cast_abs, Int.abs_eq_natAbs, natAbs_valueUnits, Int.cast_natCast, abs_of_pos (by positivity)]

/-- A number in [-1, 1] rounds to a finite value in [-1, 1], no farther away than 2^-24. -/
theorem roundRat_close {r : Rat} (h : |r| ≤ 1) :
    isFinite (roundRat r) = true ∧ |valueRat (roundRat r)| ≤ 1 ∧ |valueRat (roundRat r) - r| ≤ 1 / 2 ^ 24 := by
  have hden : (0 : Rat) < r.den * 2 ^ 149 := by have := r.pos; positivity
  have hbits : magBits (roundRat r) = roundMag (r.num.natAbs * 2 ^ 149) r.den := magBits_packBits _ (roundMag_lt _ _)
  rw [abs_valueRat_roundRat_sub, abs_valueRat, isFinite_iff, hbits]
  rw [abs_eq_units r] at h ⊢
  rw [div_le_one hden] at h
  generalize r.num.natAbs * 2 ^ 149 = n at *
  obtain ⟨hle, herr⟩ := roundMag_error_le r.pos (n := n) (by rw [mul_comm]; exact_mod_cast h)
  generalize roundMag n r.den = m at *
  refine ⟨hle.trans_lt (by decide), ?_, ?_⟩
  · have : bitsUnits m ≤ 2 ^ 149 := bitsUnits_one ▸ bitsUnits_mono hle
    rw [div_le_one (by positivity)]
    exact_mod_cast this
  · have hsub : (bitsUnits m : Rat) / 2 ^ 149 - n / (r.den * 2 ^ 149) =
        ((bitsUnits m * r.den - n : Int) : Rat) / (r.den * 2 ^ 149) := by
      have : (r.den : Rat) ≠ 0 := by exact_mod_cast r.den_nz
      push_cast; field_simp
    rw [hsub, abs_div, abs_of_pos hden, div_le_iff₀ hden, ← Int.cast_abs]
    calc ((|(bitsUnits m * r.den - n : Int)| : Int) : Rat) ≤ ((2 ^ 125 * r.den : Int) : Rat) := Int.cast_le.mpr herr
      _ = 1 / 2 ^ 24 * (r.den * 2 ^ 149) := by push_cast; ring

/-! ### Values that R141 admits -/

/-- R141 (b) and (d) of a value `v` at phase `p`, as numbers. -/
structure AdmissibleSine (p v : Word) : Prop where
  finite : isFinite v = true
  abs_le_one : |valueRat v| ≤ 1
  close : |(valueRat v : ℝ) - Real.sin (2 * Real.pi * (valueRat p : ℝ))| ≤ (Config.sinErr : ℝ)

/-- SIN_ERR leaves room for the error of `sinRat` and a rounding (log 8). -/
theorem le_sinErr : (1 : ℝ) / 2 ^ 24 + ((sinRatErr : ℚ) : ℝ) ≤ (Config.sinErr : ℝ) := by
  have : (0 : ℝ) ≤ Config.sinErrExtra := Nat.cast_nonneg _
  simp only [Config.sinErr, sinRatErr]
  push_cast
  rw [le_div_iff₀ (by positivity)]
  linarith

theorem AdmissibleSine.between {p v : Word} (h : AdmissibleSine p v) : fle minusOne v = true ∧ fle v one = true := by
  obtain ⟨hlo, hhi⟩ := abs_le.mp h.abs_le_one
  have hn := not_nan_of_finite h.finite
  rw [fle_iff rfl hn, fle_iff hn rfl, show valueUnits minusOne = -1 * 2 ^ 149 by decide,
    show valueUnits one = 1 * 2 ^ 149 by decide, ← le_valueRat_iff, ← valueRat_le_iff]
  exact ⟨by simpa using hlo, by simpa using hhi⟩

/-- A finite value that is the sine itself. -/
theorem admissibleSine_of_eq {p v : Word} (hv : isFinite v = true)
    (h : Real.sin (2 * Real.pi * (valueRat p : ℝ)) = (valueRat v : ℝ)) : AdmissibleSine p v where
  finite := hv
  abs_le_one := by have := Real.abs_sin_le_one (2 * Real.pi * (valueRat p : ℝ)); rw [h] at this; exact_mod_cast this
  close := by
    have herr : (0 : ℝ) ≤ ((sinRatErr : ℚ) : ℝ) := by simp [sinRatErr]
    rw [h, sub_self, abs_zero]
    exact le_trans (by positivity) le_sinErr

/-- R141 (c) is exact: the sine at the four quarter points. -/
theorem admissibleSine_quarters : AdmissibleSine 0x00000000 plusZero ∧ AdmissibleSine 0x3E800000 one ∧
    AdmissibleSine 0x3F000000 plusZero ∧ AdmissibleSine 0x3F400000 minusOne := by
  have zero : valueRat 0x00000000 = 0 := by
    rw [valueRat, show valueUnits 0x00000000 = 0 by decide]; norm_num
  have quarter : valueRat 0x3E800000 = 1 / 4 := by
    rw [valueRat, show valueUnits 0x3E800000 = 2 ^ 147 by decide]; norm_num
  have twoQuarters : valueRat 0x3F000000 = 1 / 2 := by
    rw [valueRat, show valueUnits 0x3F000000 = 2 ^ 148 by decide]; norm_num
  have threeQuarters : valueRat 0x3F400000 = 3 / 4 := by
    rw [valueRat, show valueUnits 0x3F400000 = 3 * 2 ^ 147 by decide]; norm_num
  have vone : valueRat one = 1 := by rw [valueRat, valueUnits_one]; norm_num
  have vminusOne : valueRat minusOne = -1 := by rw [valueRat, show valueUnits minusOne = -2 ^ 149 by decide]; norm_num
  refine ⟨admissibleSine_of_eq rfl ?_, admissibleSine_of_eq rfl ?_, admissibleSine_of_eq rfl ?_, admissibleSine_of_eq rfl ?_⟩
  · rw [plusZero, zero]; simp
  · rw [quarter, vone, show 2 * Real.pi * ((1 / 4 : ℚ) : ℝ) = Real.pi / 2 by push_cast; ring, Real.sin_pi_div_two]; simp
  · rw [twoQuarters, plusZero, zero, show 2 * Real.pi * ((1 / 2 : ℚ) : ℝ) = Real.pi by push_cast; ring, Real.sin_pi]; simp
  · rw [threeQuarters, vminusOne, show 2 * Real.pi * ((3 / 4 : ℚ) : ℝ) = Real.pi / 2 + Real.pi by push_cast; ring,
      Real.sin_add_pi, Real.sin_pi_div_two]
    simp

theorem abs_clampUnit_le_one (c : Rat) : |clampUnit c| ≤ 1 := by
  rw [clampUnit]
  split
  · simp
  · split
    · simp
    · next h h' => exact abs_le.mpr ⟨not_lt.mp h, not_lt.mp h'⟩

/-- Clamping to [-1, 1] does not move away from a number of [-1, 1]. -/
theorem clampUnit_close {c : Rat} {x e : ℝ} (hx : |x| ≤ 1) (h : |(c : ℝ) - x| ≤ e) : |(clampUnit c : ℝ) - x| ≤ e := by
  obtain ⟨hx0, hx1⟩ := abs_le.mp hx
  obtain ⟨h0, h1⟩ := abs_le.mp h
  rw [clampUnit]
  split
  · next hc =>
    have hc : (c : ℝ) < -1 := by exact_mod_cast hc
    push_cast
    exact abs_le.mpr ⟨by linarith, by linarith⟩
  · split
    · next hc =>
      have hc : (1 : ℝ) < c := by exact_mod_cast hc
      push_cast
      exact abs_le.mpr ⟨by linarith, by linarith⟩
    · exact h

section Phase

variable {p : Word} (hp : inUnit p = true)
include hp

/-- `sinRat` at a phase in [0, 1) stands for the sine. -/
theorem sinRat_valueRat_close :
    |((sinRat (valueRat p) : ℚ) : ℝ) - Real.sin (2 * Real.pi * (valueRat p : ℝ))| ≤ ((sinRatErr : ℚ) : ℝ) := by
  obtain ⟨-, h0, h1⟩ := inUnit_iff.mp hp
  exact sinRat_close (valueRat_nonneg_iff.mpr h0) (by simpa using (valueRat_le_iff (n := 1)).mpr (by omega))

/-- What `sinAdmits` accepts is within SIN_ERR less `sinRatErr` of `sinRat`, so within SIN_ERR of the sine. -/
theorem admissibleSine_of_sinAdmits {v : Word} (h : sinAdmits p v = true) : AdmissibleSine p v := by
  simp only [sinAdmits, Bool.and_eq_true, decide_eq_true_eq] at h
  obtain ⟨⟨⟨⟨hfin, hlo⟩, hhi⟩, hclo⟩, hchi⟩ := h
  refine ⟨hfin, abs_le.mpr ⟨hlo, hhi⟩, ?_⟩
  have hnear : |(valueRat v : ℝ) - (sinRat (valueRat p) : ℝ)| ≤ (Config.sinErr : ℝ) - (sinRatErr : ℝ) := by
    have : |valueRat v - sinRat (valueRat p)| ≤ Config.sinErr - sinRatErr := abs_le.mpr ⟨by linarith, by linarith⟩
    exact_mod_cast this
  calc _ ≤ |(valueRat v : ℝ) - (sinRat (valueRat p) : ℝ)| + |(sinRat (valueRat p) : ℝ) - _| := abs_sub_le _ _ _
    _ ≤ (Config.sinErr - sinRatErr) + sinRatErr := add_le_add hnear (sinRat_valueRat_close hp)
    _ = Config.sinErr := sub_add_cancel _ _

/-- The value that LFO_SIN takes where the free function is not admissible is admissible. -/
theorem admissibleSine_roundRat : AdmissibleSine p (roundRat (clampUnit (sinRat (valueRat p)))) := by
  obtain ⟨hfin, hone, hround⟩ := roundRat_close (abs_clampUnit_le_one (sinRat (valueRat p)))
  refine ⟨hfin, hone, ?_⟩
  have hclamp := clampUnit_close (Real.abs_sin_le_one _) (sinRat_valueRat_close hp)
  generalize clampUnit (sinRat (valueRat p)) = c at *
  have hround' : |(valueRat (roundRat c) : ℝ) - (c : ℝ)| ≤ 1 / 2 ^ 24 := by
    have := (Rat.cast_le (K := ℝ)).mpr hround
    push_cast at this
    exact this
  calc _ ≤ |(valueRat (roundRat c) : ℝ) - (c : ℝ)| + |(c : ℝ) - _| := abs_sub_le _ _ _
    _ ≤ 1 / 2 ^ 24 + sinRatErr := add_le_add hround' hclamp
    _ ≤ Config.sinErr := le_sinErr

theorem admissibleSine_lfoSinUnit : AdmissibleSine p (lfoSinUnit p) := by
  obtain ⟨h0, h1, h2, h3⟩ := admissibleSine_quarters
  unfold lfoSinUnit
  split
  case isTrue h => exact h ▸ h0
  split
  case isTrue h => exact h ▸ h1
  split
  case isTrue h => exact h ▸ h2
  split
  case isTrue h => exact h ▸ h3
  split
  case isTrue h => exact admissibleSine_of_sinAdmits hp h
  case isFalse => exact admissibleSine_roundRat hp

theorem lfoSin_of_inUnit : lfoSin p = lfoSinUnit p := by
  rw [lfoSin, (inUnit_iff.mp hp).1, if_neg (by decide)]
  exact if_pos hp

end Phase

theorem lfoSin_nan {p : Word} (hn : isNaN p = true) : lfoSin p = canonicalNaN := if_pos hn

theorem lfoSin_of_not_inUnit {p : Word} (hn : isNaN p = false) (hp : inUnit p = false) : lfoSin p = Config.lfoSinRaw p := by
  rw [lfoSin, hn, if_neg (by decide)]
  exact if_neg (Bool.eq_false_iff.mp hp)

/-- Settles O35: in [0, 1) by the cases of `lfoSinUnit`; outside it by the definition of LFO_SIN. -/
theorem lfoSineIsAdmissible : Obligations.LfoSineIsAdmissible := by
  refine ⟨fun p hp => ?_, rfl, rfl, rfl, rfl, fun _ => lfoSin_nan, fun _ => lfoSin_of_not_inUnit⟩
  have h := admissibleSine_lfoSinUnit hp
  rw [← lfoSin_of_inUnit hp] at h
  exact ⟨h.finite, h.between.1, h.between.2, h.close⟩

/-! ### The top of the window (R145) -/

/-- INTERP at the fraction 1.0 gives a second word that is no zero back bit for bit (R121). -/
theorem interp_one_finite {x0 x1 : Word} (h0 : isFinite x0 = true) (h1 : isFinite x1 = true) (hz : isZero x1 = false) :
    interp x0 x1 one = x1 := by
  rw [interp_one_eq_interp_plusZero h0 h1]
  exact (interp_plusZero_finite (not_nan_of_finite h1) h0).2 hz

theorem window_finite (mode : Mode) :
    isFinite (window mode).1 = true ∧ isFinite (window mode).2 = true ∧ isZero (window mode).2 = false := by
  cases mode <;> decide

/-- The map takes 1.0 to the top of the window: the fraction is 1.0 (R143). -/
theorem lfoMap_one (mode : Mode) : lfoMap one mode = (window mode).2 := by
  obtain ⟨hlo, hhi, hz⟩ := window_finite mode
  have hfrac : fmul (fadd one one) half = one := by decide
  rw [lfoMap, hfrac]
  exact interp_one_finite hlo hhi hz

/-- At full depth the delay time at a peak of the sine is the top of the window. -/
theorem lfoTime_of_peak {ph : Word} (mode : Mode) (h : lfoSin ph = one) : lfoTime ph one mode = (window mode).2 := by
  rw [lfoTime, h, one_fmul rfl, lfoMap_one]

/-- Settles O36: the top of the window at every peak, of which phase 0.25 is one; then R145's numbers. -/
theorem peakReachesTheTopOfTheWindow : Obligations.PeakReachesTheTopOfTheWindow := by
  have hpeak : lfoSin 0x3E800000 = one := rfl
  refine ⟨fun ph mode h => ?_, lfoTime_of_peak .chorus hpeak, lfoTime_of_peak .flanger hpeak, by decide⟩
  rw [lfoTime_of_peak mode h]
  cases mode <;> rfl

end Sys2Proof.Machine
end

section
/-! PROOFS. PROCESS step by step (R160 to R170, R204): in a prepared state with the invariant it completes, and what it
leaves of a channel depends on that channel and the shared units only (R175). -/

namespace Sys2Proof.Machine

/-- Settles O18. -/
theorem processBeforePrepareIsRefused : Obligations.ProcessBeforePrepareIsRefused :=
  fun _ _ _ hp => execProcess_notPrepared hp

/-! ### The invariant of one channel -/

theorem State.Inv.len_le_two_pow {s : State} (hs : s.Inv) : s.len ≤ 2 ^ 24 :=
  hs.len_le.trans (Nat.pow_le_pow_right (by decide) hs.aw_le)

theorem State.Inv.chan_wh_lt {s : State} (hs : s.Inv) (hp : s.prepared = true) (ch : Chan) : (s.chan ch).wh < s.len := by
  cases ch with
  | left => exact hs.wh_lt hp
  | right => exact hs.wh_eq ▸ hs.wh_lt hp

theorem State.Inv.chan_wf {s : State} (hs : s.Inv) (ch : Chan) : Memory.wf (s.chan ch).mem = true := by
  cases ch with
  | left => exact hs.left_wf
  | right => exact hs.right_wf

/-! ### The eight steps -/

/-- The delayed sample of a channel's steps and their range check, as the statements speak of them (R102 to R105). -/
theorem channelStep_delayed {ch : Chan} {s t : State} {d x : Word} {r : ChannelStep}
    (h : channelStep ch s.aw s.len d s.par.feedback x (s.chan ch) = .ok r) (ht : t.chan ch = r.chan) :
    r.delayed = delayedIn ch s t d ∧ r.failed = !delayInRange s.len d := by
  obtain ⟨-, hread, hchan⟩ := channelStep_cases h
  rw [delayedIn, ht, hchan]
  rcases dlReadI_cases hread with ⟨hd, hfailed, hy⟩ | ⟨hd, hfailed, -, -, hy⟩
  · rw [hd, hfailed]; exact ⟨hy, rfl⟩
  · rw [if_pos hd, hd, hfailed]; exact ⟨hy, rfl⟩

/-- What a PROCESS carried out from `s` leaves in `t`, in terms of the delays that `s` asks for (R160). -/
structure Processed (inL inR : Word) (s t : State) : Prop where
  smTime : t.smTime = (sharedSection s).smTime
  smGain : t.smGain = (sharedSection s).smGain
  phase : t.phase = (sharedSection s).phase
  left : ChannelDone .left s t inL (delayedIn .left s t (s.delayOf .left))
  right : ChannelDone .right s t inR (delayedIn .right s t (s.delayOf .right))
  err : t.err = if s.delaysInRange then s.err else s.err ||| 0b0000100
  rsp : t.rsp = some ⟨if s.delaysInRange then 0 else 3,
    mixOut s.variant t.smGain s.par.drywet inL (delayedIn .left s t (s.delayOf .left)),
    mixOut s.variant t.smGain s.par.drywet inR (delayedIn .right s t (s.delayOf .right))⟩
  keeps : ProcessKeeps s t

theorem processFinish_processed {inL inR : Word} {s : State} {l r : ChannelStep} (hs : s.Inv) (hp : s.prepared = true)
    (hl : channelStep .left s.aw s.len (s.delayOf .left) s.par.feedback inL s.left = .ok l)
    (hr : channelStep .right s.aw s.len (s.delayOf .right) s.par.feedback inR s.right = .ok r) :
    Processed inL inR s (processFinish (sharedSection s) l r inL inR s) := by
  have hleft : (processFinish (sharedSection s) l r inL inR s).chan .left = l.chan := processFinish_left ..
  have hright : (processFinish (sharedSection s) l r inL inR s).chan .right = r.chan := processFinish_right ..
  obtain ⟨hyL, hfailedL⟩ := channelStep_delayed (ch := .left) hl hleft
  obtain ⟨hyR, hfailedR⟩ := channelStep_delayed (ch := .right) hr hright
  have hfailed : (l.failed || r.failed) = !s.delaysInRange := by
    rw [hfailedL, hfailedR, ← Bool.not_and, State.delaysInRange]
  exact {
    smTime := processFinish_smTime ..
    smGain := processFinish_smGain ..
    phase := processFinish_phase ..
    left := hyL ▸ channelStep_done (ch := .left) hl (hs.chan_wf _) (hs.chan_wh_lt hp _) hleft
    right := hyR ▸ channelStep_done (ch := .right) hr (hs.chan_wf _) (hs.chan_wh_lt hp _) hright
    err := by rw [processFinish_err, hfailed]; cases s.delaysInRange <;> rfl
    rsp := by
      rw [← hyL, ← hyR, processFinish_smGain, processFinish_rsp, hfailed]
      cases s.delaysInRange <;> rfl
    keeps := by constructor <;> simp }

/-- PROCESS completes in a prepared state with the invariant. -/
theorem exec_process_processed {s : State} (hs : s.Inv) (hp : s.prepared = true) (inL inR : Word) :
    ∃ t, exec (.process inL inR) s = .next t ∧ Processed inL inR s t := by
  obtain ⟨l, hl⟩ := channelStep_answers .left (s.delayOf .left) s.par.feedback inL (hs.chan_wh_lt hp .left)
    hs.len_le_two_pow hs.len_le
  obtain ⟨r, hr⟩ := channelStep_answers .right (s.delayOf .right) s.par.feedback inR (hs.chan_wh_lt hp .right)
    hs.len_le_two_pow hs.len_le
  exact ⟨_, execProcess_ok hp hl hr, processFinish_processed hs hp hl hr⟩

/-- Settles O19: the statement's delay times are those of the once-per-sample section, read variant by variant. -/
theorem processDoesTheEightSteps : Obligations.ProcessDoesTheEightSteps := by
  intro inL inR s hs hp
  obtain ⟨t, ht, h⟩ := exec_process_processed hs hp inL inR
  refine ⟨t, (sharedSection s).tLeft, (sharedSection s).tRight, ht, ?units, h.left, h.right, ⟨h.err, ?response⟩, h.keeps⟩
  case units =>
    rw [h.smTime, h.smGain, h.phase, sharedSection]
    cases s.variant <;> exact ⟨rfl, rfl, rfl, rfl, rfl⟩
  case response =>
    have hrsp := h.rsp
    revert hrsp
    cases s.variant <;> exact id

/-! ### One channel does not see the other (R175) -/

/-- One of two things, by channel. -/
def byChannel {α : Type} (ch : Chan) (l r : α) : α :=
  match ch with
  | .left => l
  | .right => r

/-- The data word of a channel. -/
def Response.data (p : Response) (ch : Chan) : Word := byChannel ch p.d0 p.d1

/-- The same state with another channel in the place of the one that `ch` is not. -/
def State.withOther (s : State) (ch : Chan) (c : Channel) : State :=
  match ch with
  | .left => { s with right := c }
  | .right => { s with left := c }

/-- PROCESS with input `x` on channel `ch` and `y` on the other. -/
def processOn (ch : Chan) (x y : Word) : Instr := .process (byChannel ch x y) (byChannel ch y x)

/-- A PROCESS carried out, as one channel sees it. -/
theorem exec_processOn_prepared {ch : Chan} {x y : Word} {s t : State} (hp : s.prepared = true)
    (h : exec (processOn ch x y) s = .next t) :
    ∃ r, channelStep ch s.aw s.len (s.delayOf ch) s.par.feedback x (s.chan ch) = .ok r ∧
      t.chan ch = r.chan ∧ t.smTime = (sharedSection s).smTime ∧ t.smGain = (sharedSection s).smGain ∧
      t.phase = (sharedSection s).phase ∧
      t.rsp.map (·.data ch) = some (mixOut s.variant (sharedSection s).smGain s.par.drywet x r.delayed) := by
  rcases execProcess_cases h with ⟨hp', -⟩ | ⟨-, l, r, hl, hr, rfl⟩
  · rw [hp] at hp'; cases hp'
  · rw [processFinish_smTime, processFinish_smGain, processFinish_phase, processFinish_rsp]
    cases ch with
    | left => exact ⟨l, hl, processFinish_left .., rfl, rfl, rfl, rfl⟩
    | right => exact ⟨r, hr, processFinish_right .., rfl, rfl, rfl, rfl⟩

/-- Two PROCESS with the same input on channel `ch`, from states that differ in the other channel only. -/
theorem exec_processOn_withOther {ch : Chan} {x y y' : Word} {c : Channel} {s t t' : State}
    (h : exec (processOn ch x y) s = .next t) (h' : exec (processOn ch x y') (s.withOther ch c) = .next t') :
    t.chan ch = t'.chan ch ∧ t.smTime = t'.smTime ∧ t.smGain = t'.smGain ∧ t.phase = t'.phase ∧
      t.rsp.map (·.data ch) = t'.rsp.map (·.data ch) := by
  have hprepared : (s.withOther ch c).prepared = s.prepared := by cases ch <;> rfl
  cases hp : s.prepared with
  | false =>
    rw [hp] at hprepared
    obtain rfl := Host.Outcome.next.inj (h.symm.trans (execProcess_notPrepared hp))
    obtain rfl := Host.Outcome.next.inj (h'.symm.trans (execProcess_notPrepared hprepared))
    cases ch <;> exact ⟨rfl, rfl, rfl, rfl, rfl⟩
  | true =>
    obtain ⟨r, hr, hchan, htime, hgain, hphase, hdata⟩ := exec_processOn_prepared hp h
    obtain ⟨r', hr', hchan', htime', hgain', hphase', hdata'⟩ := exec_processOn_prepared (hprepared.trans hp) h'
    have hstep : channelStep ch (s.withOther ch c).aw (s.withOther ch c).len ((s.withOther ch c).delayOf ch)
        (s.withOther ch c).par.feedback x ((s.withOther ch c).chan ch) =
          channelStep ch s.aw s.len (s.delayOf ch) s.par.feedback x (s.chan ch) := by cases ch <;> rfl
    have hshared : sharedSection (s.withOther ch c) = sharedSection s := by cases ch <;> rfl
    have hmix : mixOut (s.withOther ch c).variant (sharedSection s).smGain (s.withOther ch c).par.drywet =
        mixOut s.variant (sharedSection s).smGain s.par.drywet := by cases ch <;> rfl
    obtain rfl : r = r' := Except.ok.inj (hr.symm.trans (hstep.symm.trans hr'))
    rw [hshared] at htime' hgain' hphase' hdata'
    rw [hmix] at hdata'
    exact ⟨hchan.trans hchan'.symm, htime.trans htime'.symm, hgain.trans hgain'.symm, hphase.trans hphase'.symm,
      hdata.trans hdata'.symm⟩

theorem delayOf_left_eq_right {s : State} (h : s.variant ≠ .mod) : s.delayOf .left = s.delayOf .right := by
  unfold State.delayOf sharedSection
  cases hv : s.variant with
  | mod => exact absurd hv h
  | plain => rfl
  | util => rfl

/-- Settles O21: the same argument for either channel. -/
theorem channelsAreIndependent : Obligations.ChannelsAreIndependent := fun _ _ _ _ _ _ _ =>
  ⟨fun h h' => exec_processOn_withOther (ch := .left) h h', fun h h' => exec_processOn_withOther (ch := .right) h h',
    delayOf_left_eq_right⟩

end Sys2Proof.Machine
end

section
/-! PROOFS. The crossfade is INTERP with the factors exchanged (R120, R169), so its ends are INTERP's (R174). -/

namespace Sys2Proof.Machine

theorem mixXfade_eq_interp (x y w : Word) : mixXfade x y w = interp x y w := by
  rw [mixXfade, interp, fmul_comm x, fmul_comm y]

/-- A first word that is no number gives a NaN at the fraction 1.0. -/
theorem isNaN_interp_one {x0 x1 : Word} (h : isFinite x0 = false) : isNaN (interp x0 x1 one) = true := by
  rw [interp_one, (plusZero_fmul x0).2 h, fadd_nan (.inl rfl)]
  rfl

/-- Settles O29. -/
theorem crossfadeReturnsItsEnds : Obligations.CrossfadeReturnsItsEnds := by
  intro x y
  rw [mixXfade_eq_interp, mixXfade_eq_interp]
  refine ⟨fun hx hy => ?ends, fun hy => ?dry, isNaN_interp_one⟩
  case ends =>
    obtain ⟨hdry, hwet, -⟩ := interpReturnsItsEnds.1 x y hx hy
    exact ⟨hdry, hwet⟩
  case dry =>
    rw [interp_plusZero_canonical (.inr hy)]
    rfl

end Sys2Proof.Machine
end

section
/-! PROOFS. Silence stays silence (R173). A zero times a finite factor is a zero, and every factor that PROCESS uses is
finite: FEEDBACK, the stepped gain, the crossfade weights and the two weights of the read. -/

namespace Sys2Proof.Machine

/-! ### Zeros through the arithmetic -/

theorem isZero_zero_fmul {a b : Word} (ha : isZero a = true) (hb : isFinite b = true) : isZero (fmul a b) = true := by
  rw [zero_fmul ha hb, isZero_iff, magBits_packBits _ (by decide)]

/-- 1.0 is below half the last place of the largest finite number, so a difference from 1.0 does not overflow. -/
theorem isFinite_one_fsub {w : Word} (hw : isFinite w = true) : isFinite (fsub one w) = true := by
  have hlargest : bitsUnits (infBits - 1) + 2 ^ 149 < (2 ^ 25 - 1) * 2 ^ 252 := by decide +kernel
  have hunits : (valueUnits w).natAbs ≤ bitsUnits (infBits - 1) := by
    rw [natAbs_valueUnits]
    exact bitsUnits_mono (Nat.le_sub_one_of_lt ((isFinite_iff w).mp hw))
  have hround : ¬ infBits ≤ roundBits (valueUnits one + valueUnits (fneg w)).natAbs 1 := by
    rw [infBits_le_roundBits_iff one_pos, valueUnits_one, valueUnits_fneg]
    omega
  rw [isFinite_iff, fsub, magBits_fadd isFinite_one (by simpa using hw), roundMag_eq]
  exact (min_le_left _ _).trans_lt (not_le.mp hround)

theorem isZero_interp {x0 x1 frac : Word} (h0 : isZero x0 = true) (h1 : isZero x1 = true) (hf : isFinite frac = true) :
    isZero (interp x0 x1 frac) = true := by
  rw [← mixXfade_eq_interp]
  exact isZero_fadd (isZero_zero_fmul h0 (isFinite_one_fsub hf)) (isZero_zero_fmul h1 hf)

theorem isZero_mixOut {v : Variant} {g w x y : Word} (hg : v = .util → isFinite g = true) (hw : isFinite w = true)
    (hx : isZero x = true) (hy : isZero y = true) : isZero (mixOut v g w x y) = true := by
  have hxfade : isZero (mixXfade x y w) = true := mixXfade_eq_interp x y w ▸ isZero_interp hx hy hw
  cases v with
  | plain => exact hxfade
  | mod => exact hxfade
  | util =>
    have hgain : isZero (fmul g x) = true := fmul_comm x g ▸ isZero_zero_fmul hx (hg rfl)
    exact isZero_fadd hgain hy

/-! ### Zeros through a channel -/

section Channel

variable {ch : Chan} {s t : State} {d x y : Word}

/-- A zero stored in a ring of zeros. -/
theorem ChannelDone.ringIsZero (h : ChannelDone ch s t x y) (hx : isZero x = true) (hfb : isZero (s.chan ch).fb = true)
    (hring : ringIsZero s.len (s.chan ch)) : ringIsZero s.len (t.chan ch) := by
  intro i hi
  by_cases hwh : i = (s.chan ch).wh
  · rw [hwh, h.stored]; exact isZero_fadd hx hfb
  · rw [h.others i hwh]; exact hring i hi

/-- A read of two zeros, the fraction being finite (R108). -/
theorem isZero_delayedIn (hwh : (s.chan ch).wh < s.len) (hlen : s.len ≤ 2 ^ 24) (hd : delayInRange s.len d = true)
    (hring : ringIsZero s.len (t.chan ch)) : isZero (delayedIn ch s t d) = true := by
  obtain ⟨-, -, -, -, -, hi0, hi1, hfrac, -⟩ := readPositionIsInRange _ _ _ hwh hlen hd
  rw [delayedIn, if_pos hd]
  exact isZero_interp (hring _ hi0) (hring _ hi1) hfrac

end Channel

theorem sharedSection_smGain_util {s : State} (h : s.variant = .util) :
    (sharedSection s).smGain = smStep s.smGain s.par.gain kGain := by
  rw [sharedSection, h]

/-- Settles O22: the rings stay zero, so the samples read, their feedback products and the outputs are zeros. -/
theorem silenceStaysSilence : Obligations.SilenceStaysSilence := by
  intro inL inR s hs hp hrange hfeedback hdrywet hgain hinL hinR hfbL hfbR hringL hringR
  obtain ⟨t, ht, h⟩ := exec_process_processed hs hp inL inR
  obtain ⟨hdL, hdR⟩ := Bool.and_eq_true_iff.mp hrange
  have hringL' := h.left.ringIsZero hinL hfbL hringL
  have hringR' := h.right.ringIsZero hinR hfbR hringR
  have hyL := isZero_delayedIn (hs.chan_wh_lt hp .left) hs.len_le_two_pow hdL hringL'
  have hyR := isZero_delayedIn (hs.chan_wh_lt hp .right) hs.len_le_two_pow hdR hringR'
  have hgain' : s.variant = .util → isFinite t.smGain = true := fun hv => by
    rw [h.smGain, sharedSection_smGain_util hv]; exact hgain hv
  refine ⟨t, ht, ⟨_, _, ?response, isZero_mixOut hgain' hdrywet hinL hyL, isZero_mixOut hgain' hdrywet hinR hyR⟩,
    ?fbL, ?fbR, ?ringL, ?ringR⟩
  case response => rw [h.rsp, if_pos hrange]
  case fbL => exact h.left.fb ▸ isZero_zero_fmul hyL hfeedback
  case fbR => exact h.right.fb ▸ isZero_zero_fmul hyR hfeedback
  case ringL => rw [h.keeps.len]; exact hringL'
  case ringR => rw [h.keeps.len]; exact hringR'

end Sys2Proof.Machine
end

section
/-! PROOFS. The control commands (45_control.md): NOP, the registers and the slots as the host reads and writes them, and
PREPARE with the one way out of the unprepared state. -/

namespace Sys2Proof.Machine

/-! ### Command words, as the rules of the commands write them -/

theorem decode_wrreg_word {idx : Nat} (v b : Word) (h : idx ≤ 0xFF) :
    decode ⟨0x03000000 ||| BitVec.ofNat 32 idx, v, b⟩ = .ok (.wrreg idx v) := by
  have hword : commandWord 3 idx = 0x03000000 ||| BitVec.ofNat 32 idx := commandWord_eq_or (by decide) (by omega)
  exact hword ▸ decode_commandWord_wrreg v b (by omega)

theorem decode_rdreg_word {idx : Nat} (a b : Word) (h : idx ≤ 0xFF) :
    decode ⟨0x04000000 ||| BitVec.ofNat 32 idx, a, b⟩ = .ok (.rdreg idx) := by
  have hword : commandWord 4 idx = 0x04000000 ||| BitVec.ofNat 32 idx := commandWord_eq_or (by decide) (by omega)
  exact hword ▸ decode_commandWord_rdreg a b (by omega)

theorem decode_rdmem_word (ch : Chan) (a b : Word) :
    decode ⟨0x05000000 ||| BitVec.ofNat 32 ch.num, a, b⟩ = .ok (.rdmem ch a) := by
  cases ch with
  | left => exact decode_commandWord_rdmem (arg := 0) a b (by decide)
  | right => exact decode_commandWord_rdmem (arg := 1) a b (by decide)

/-! ### NOP (R180) -/

/-- Settles O10. -/
theorem nopOnlyAnswers : Obligations.NopOnlyAnswers := fun _ a b => ⟨decode_commandWord_nop a b, rfl⟩

/-! ### The parameter registers (R187) -/

/-- The index of a parameter register (R50). -/
def ParamReg.index : ParamReg → Nat
  | .drywet => 0x00
  | .depth => 0x01
  | .rate => 0x02
  | .phaseoff => 0x03
  | .feedback => 0x04
  | .delaytime => 0x05
  | .mode => 0x06
  | .gain => 0x07

@[simp] theorem paramOfIdx_index (r : ParamReg) : paramOfIdx r.index = some r := by cases r <;> rfl

@[simp] theorem readReg_index (r : ParamReg) (s : State) : readReg r.index s = some (readParam r s.par) := by
  rw [readReg, paramOfIdx_index]

theorem index_eq_mode_iff (r : ParamReg) : r.index = 0x06 ↔ r = .mode := by cases r <;> decide

theorem exists_index_eq {idx : Nat} (h : idx ≤ 0x07) : ∃ r : ParamReg, r.index = idx := by
  interval_cases idx
  exacts [⟨.drywet, rfl⟩, ⟨.depth, rfl⟩, ⟨.rate, rfl⟩, ⟨.phaseoff, rfl⟩, ⟨.feedback, rfl⟩, ⟨.delaytime, rfl⟩,
    ⟨.mode, rfl⟩, ⟨.gain, rfl⟩]

/-- Settles O14: the index names a parameter register, so `readParam_writeParam` says what RDREG reads afterwards. -/
theorem wrregWritesOneParameterRegister : Obligations.WrregWritesOneParameterRegister := by
  intro idx v s
  refine ⟨fun b hidx => decode_wrreg_word v b hidx, fun hidx => ?_, fun hidx _ => execWrreg_badReg hidx⟩
  obtain ⟨r, rfl⟩ := exists_index_eq hidx
  refine ⟨_, execWrreg_ok (paramOfIdx_index r), ?written, fun j hj hne => ?others, rfl⟩
  case written =>
    rw [readReg_index, respondOk_par, readParam_writeParam, if_pos rfl, mode_word_ofWord]
    simp only [index_eq_mode_iff]
  case others =>
    obtain ⟨r', rfl⟩ := exists_index_eq hj
    have hother : r' ≠ r := fun h => hne (congrArg ParamReg.index h)
    rw [readReg_index, readReg_index, respondOk_par, readParam_writeParam, if_neg hother]

/-! ### Every register read (R188) -/

theorem exec_rdreg {idx : Nat} {w : Word} {s : State} (h : readReg idx s = some w) :
    exec (.rdreg idx) s = .next { s with rsp := some ⟨0, w, 0⟩ } := execRdreg_ok h

theorem mode_word_eq (m : Mode) : m.word = if m = .flanger then 1 else 0 := by cases m <;> rfl

theorem statusWord_eq_or (p : Bool) (v : Variant) : statusWord p v =
    (if p then 1 else 0) ||| (match v with | .plain => 0 | .mod => 2 | .util => 4) := by
  cases p <;> cases v <;> rfl

/-- No register stands at 0x08 to 0x0F or past 0x1D (R31, R50). -/
theorem readReg_none {idx : Nat} (s : State) (h : 0x07 < idx ∧ idx < 0x10 ∨ 0x1D < idx) : readReg idx s = none := by
  have hparam : paramOfIdx idx = none := by
    rw [← Option.isNone_iff_eq_none, ← Option.not_isSome, paramOfIdx_isSome, decide_eq_false (by omega), Bool.not_false]
  have hstatus : statusOfIdx idx = none := by
    rw [← Option.isNone_iff_eq_none, ← Option.not_isSome, statusOfIdx_isSome, decide_eq_false (by omega), Bool.not_false]
  rw [readReg, hparam, hstatus]

/-- Settles O15: each word is that of `readReg`; MODE, STATUS and ERR are rewritten to the bits of R38, R42 and R43. -/
theorem rdregReadsEveryRegister : Obligations.RdregReadsEveryRegister := by
  intro idx s
  have hmode : readReg 0x06 s = some (if s.par.mode = .flanger then 1 else 0) := congrArg some (mode_word_eq _)
  have herr : readReg 0x13 s = some (BitVec.ofNat 32 s.err.toNat) := congrArg some (BitVec.ofNat_toNat 32 s.err).symm
  exact ⟨fun a b hidx => decode_rdreg_word a b hidx,
    exec_rdreg rfl, exec_rdreg rfl, exec_rdreg rfl, exec_rdreg rfl, exec_rdreg rfl, exec_rdreg rfl, exec_rdreg hmode,
    exec_rdreg rfl, exec_rdreg rfl, exec_rdreg rfl, exec_rdreg (congrArg some (statusWord_eq_or _ _)), exec_rdreg herr,
    exec_rdreg rfl, exec_rdreg rfl, exec_rdreg rfl, exec_rdreg rfl, exec_rdreg rfl, exec_rdreg rfl, exec_rdreg rfl,
    exec_rdreg rfl, exec_rdreg rfl, exec_rdreg rfl,
    fun hidx => execRdreg_badReg (readReg_none s (hidx.imp_right And.left))⟩

/-! ### A slot read (R189) -/

/-- Settles O16. -/
theorem rdmemReadsASlot : Obligations.RdmemReadsASlot := fun ch i _ =>
  ⟨decode_rdmem_word ch i, execRdmem_notPrepared, execRdmem_badAddr,
    fun hp hslot hlen => execRdmem_ok hp hslot (hslot.trans_le hlen)⟩

/-! ### PREPARE (R181 to R184) -/

theorem exec_prepareInstr (v : Variant) (sr m : Word) (s : State) :
    exec (prepareInstr v sr m) s = .next (prepare v sr m s) := by cases v <;> rfl

/-- Operands that pass every check have a length (R181, R183, R210). -/
theorem prepareLength_of_checks {aw : Nat} {sr m : Word} (hsr : finitePositive sr = true) (hm : finitePositive m = true)
    (hlow : flt (fmul sr m) one = false) (hinf : feq (fmul sr m) plusInf = false)
    (hfits : ifloor (fmul sr m) ≤ depthWords aw) : prepareLength aw sr m = .ok (ifloor (fmul sr m)) := by
  simp [prepareLength, hsr, hm, hlow, hinf, hfits]

/-- PREPARE clears both banks alike (R107, R184). -/
theorem prepareState_chan (v : Variant) (sr m : Word) (n : Nat) (s : State) (ch : Chan) :
    (prepareState v sr m n s).chan ch = prepareChannel n (s.chan ch) := by cases ch <;> rfl

/-- Settles O11: the operands have a length, so PREPARE leaves `prepareState`. -/
theorem prepareLeavesThePreparedState : Obligations.PrepareLeavesThePreparedState := by
  intro v sr m s hsr hsr' hm hm' hlow hinf hfits
  have hlen := prepareLength_of_checks (Bool.and_eq_true_iff.mpr ⟨hsr, hsr'⟩) (Bool.and_eq_true_iff.mpr ⟨hm, hm'⟩) hlow hinf
    hfits
  refine ⟨_, (exec_prepareInstr v sr m s).trans (congrArg _ (prepare_of_ok v hlen)), rfl, rfl, rfl, rfl, rfl,
    fun ch i => ?slots, fun ch => ?channel, rfl, rfl, rfl, rfl, rfl, rfl, rfl, rfl⟩
  case slots =>
    exact (congrArg (Memory.read ·.mem i) (prepareState_chan v sr m _ s ch)).trans (memory_read_clear _ _ i)
  case channel => cases ch <;> exact ⟨rfl, rfl, rfl⟩

/-- A product of accepted operands is at least 1.0 (R181). -/
theorem one_le_product_of_prepareLength {aw n : Nat} {sr m : Word} (h : prepareLength aw sr m = .ok n) :
    2 ^ 149 ≤ valueUnits (fmul sr m) := by
  obtain ⟨hsr, hm, hlow, -⟩ := prepareLength_ok h
  have hnan := fmul_not_nan (isFinite_of_finitePositive hsr) (isFinite_of_finitePositive hm)
  rwa [Bool.eq_false_iff, Ne, flt_iff hnan rfl, valueUnits_one, not_lt] at hlow

/-- Settles O13: `ifloor` is the floor of a product that is not negative, and a delay of at least the length is out of
range. -/
theorem prepareLengthIsTheFloorOfTheProduct : Obligations.PrepareLengthIsTheFloorOfTheProduct := by
  refine ⟨fun aw n sr m haw h => ?_, by decide, by decide, by decide⟩
  obtain ⟨-, -, -, -, hn, hdepth⟩ := prepareLength_ok h
  have hlen : n ≤ 2 ^ 24 := hdepth.trans (Nat.pow_le_pow_right (by decide) haw)
  obtain ⟨hlo, hhi⟩ := ifloor_floor (le_trans (by decide) (one_le_product_of_prepareLength h))
  rw [← hn] at hlo hhi
  refine ⟨prepareLength_pos h, hdepth, hlo, hhi, valueRat_u2f hlen, ?_⟩
  rw [fmul_comm, Bool.eq_false_iff]
  intro hrange
  obtain ⟨-, -, hlt⟩ := (rangeCheckIsTheHalfOpenInterval n _ hlen).mp hrange
  exact absurd hlo (not_le.mpr hlt)

/-! ### While not prepared (R185, R202) -/

/-- A command makes an unprepared block prepared only as a PREPARE that succeeds. -/
theorem Effect.prepareInstr_of_prepared {s t : State} {i : Instr} (h : Effect s i t) (hs : s.prepared = false)
    (ht : t.prepared = true) : ∃ v sr m, i = prepareInstr v sr m ∧ ∃ n, t.rsp = some ⟨0, n, 0⟩ := by
  have hkept : t.prepared ≠ s.prepared := by rw [hs, ht]; decide
  cases h with
  | answered => exact absurd rfl hkept
  | rejected => exact absurd rfl hkept
  | prepareFailed => cases ht
  | prepared v => exact ⟨v, _, _, rfl, _, rfl⟩
  | parameter => exact absurd rfl hkept
  | processed => exact absurd (processFinish_prepared ..) hkept

/-- A step in which the host presents a legal command executes it. -/
theorem exec_of_step {s t : State} {c : Command} {rest : List PortEvent} {i : Instr} (h : step s = .next t)
    (hp : s.pending = .command c :: rest) (hd : decode c = .ok i) : exec i { s with pending := rest } = .next t :=
  ((step_command hp).trans (runCommand_ok hd)).symm.trans h

/-- Settles O53: a step that makes the block prepared is a PREPARE by `Effect.prepareInstr_of_prepared`; PROCESS and RDMEM
raise NotPrepared. -/
theorem unpreparedUntilAPrepareSucceeds : Obligations.UnpreparedUntilAPrepareSucceeds := by
  intro s t hs h
  refine ⟨fun ht => ?_, fun c rest hp hd => ?_⟩
  · rcases step_cases h with ⟨-, rfl⟩ | ⟨rest, -, rfl⟩ | ⟨c, rest, e, -, -, rfl⟩ | ⟨c, rest, i, hp, hd, hx⟩
    · exact absurd (hs.symm.trans ht) Bool.false_ne_true
    · exact absurd ht Bool.false_ne_true
    · exact absurd (hs.symm.trans ht) Bool.false_ne_true
    · obtain ⟨v, sr, m, rfl, hrsp⟩ := (exec_effect hx).prepareInstr_of_prepared hs ht
      exact ⟨c, rest, v, sr, m, hp, hd, hrsp⟩
  · have hrefused : t = reject .notPrepared { s with pending := rest } := by
      rcases hd with ⟨x, y, hd⟩ | ⟨ch, a, hd⟩
      · exact Host.Outcome.next.inj ((exec_of_step h hp hd).symm.trans (execProcess_notPrepared hs))
      · exact Host.Outcome.next.inj ((exec_of_step h hp hd).symm.trans (execRdmem_notPrepared hs))
    rw [hrefused]
    rfl

end Sys2Proof.Machine
end

section
/-! PROOFS. The faults (60_exceptions.md): the response and the sticky bit by which a command reports one (R203), the two
faults PREPARE raises (R205, R206), the illegal word (R201) and the fault pin (R209). -/

namespace Sys2Proof.Machine

/-! ### Code and bit of a fault (R200) -/

theorem code_toNat_le (f : CmdFault) : f.code.toNat ≤ 7 := by cases f <;> decide

theorem mask_ne_zero (f : CmdFault) : f.mask ≠ 0 := by cases f <;> decide

/-- Bit n belongs to the fault with code n + 1. -/
theorem mask_eq_shift (f : CmdFault) : f.mask = (1 : BitVec 7) <<< (f.code.toNat - 1) := by cases f <;> rfl

/-- Every bit of `err` belongs to a fault. -/
theorem exists_mask_eq_twoPow {n : Nat} (h : n < 7) : ∃ f : CmdFault, f.mask = BitVec.twoPow 7 n := by
  interval_cases n
  exacts [⟨.illegalCmd, rfl⟩, ⟨.notPrepared, rfl⟩, ⟨.delayRange, rfl⟩, ⟨.resourceExhaustion, rfl⟩, ⟨.prepareRange, rfl⟩,
    ⟨.badReg, rfl⟩, ⟨.badAddr, rfl⟩]

/-! ### How a command reports a fault (R203) -/

/-- A fault whose bit was set is recorded. -/
theorem recorded_of_err_eq {s t : State} {f : CmdFault} (h : t.err = s.err ||| f.mask) : t.recorded f = true := by
  simp only [State.recorded, decide_eq_true_eq, h, BitVec.and_or_distrib_right, BitVec.and_self]
  exact fun h0 => mask_ne_zero f (BitVec.or_eq_zero_iff.mp h0).2

/-- A command answers code 0 and leaves `err`, or answers a fault's code and sets that fault's bit. -/
theorem Effect.reports {s t : State} {i : Instr} (h : Effect s i t) :
    ∃ r, t.rsp = some r ∧
      ((r.code = 0 ∧ t.err = s.err) ∨ ∃ f : CmdFault, r.code = f.code ∧ t.err = s.err ||| f.mask) := by
  cases h with
  | answered => exact ⟨_, rfl, .inl ⟨rfl, rfl⟩⟩
  | rejected _ f => exact ⟨_, rfl, .inr ⟨f, rfl, rfl⟩⟩
  | prepareFailed _ f => exact ⟨_, rfl, .inr ⟨f, rfl, rfl⟩⟩
  | prepared => exact ⟨_, rfl, .inl ⟨rfl, rfl⟩⟩
  | parameter => exact ⟨_, rfl, .inl ⟨rfl, rfl⟩⟩
  | processed =>
    refine ⟨_, processFinish_rsp .., ?_⟩
    rw [processFinish_err]
    split
    · exact .inr ⟨.delayRange, rfl, rfl⟩
    · exact .inl ⟨rfl, rfl⟩

/-- Settles O48: `Effect.reports`, with the fault's bit placed by its code. -/
theorem responseCodeAndBitNameTheFault : Obligations.ResponseCodeAndBitNameTheFault := by
  intro i s t h
  obtain ⟨r, hr, hok | ⟨f, hcode, herr⟩⟩ := (exec_effect h).reports
  · exact ⟨r, hr, .inl hok⟩
  · refine ⟨r, hr, .inr ⟨f, hcode, ?_, ?_, recorded_of_err_eq herr⟩⟩
    · rw [hcode]; exact code_toNat_le f
    · rw [hcode, ← mask_eq_shift, herr]

/-! ### The illegal word (R201) -/

/-- Settles O6. -/
theorem stepAnswersAnIllegalWord : Obligations.StepAnswersAnIllegalWord :=
  fun _ _ _ _ _ _ hp hd => (step_command hp).trans (runCommand_error hd)

/-! ### The faults of PREPARE (R205, R206) -/

/-- Operands that are not finite and positive, or whose product is below one slot, are out of range (R206). -/
theorem prepareLength_prepareRange {sr m : Word} (aw : Nat)
    (h : finitePositive sr = false ∨ finitePositive m = false ∨ flt (fmul sr m) one = true) :
    prepareLength aw sr m = .error .prepareRange := by
  rcases h with hsr | hm | hlow
  · simp [prepareLength, hsr]
  · simp [prepareLength, hm]
  · simp [prepareLength, hlow]

/-- Operands in range whose product overflows or does not fit a bank exhaust it (R205, R210). -/
theorem prepareLength_resourceExhaustion {aw : Nat} {sr m : Word} (hsr : finitePositive sr = true)
    (hm : finitePositive m = true) (hlow : flt (fmul sr m) one = false)
    (h : feq (fmul sr m) plusInf = true ∨ depthWords aw < ifloor (fmul sr m)) :
    prepareLength aw sr m = .error .resourceExhaustion := by
  simp [prepareLength, hsr, hm, hlow, h]

/-- A PREPARE whose operands give no length rejects them and becomes unprepared (R181, R185). -/
theorem exec_prepareInstr_of_error (v : Variant) {sr m : Word} {s : State} {f : CmdFault}
    (h : prepareLength s.aw sr m = .error f) :
    exec (prepareInstr v sr m) s = .next (reject f { s with prepared := false }) :=
  (exec_prepareInstr v sr m s).trans (congrArg _ (prepare_of_error v h))

/-- Settles O12: the operands fail the check of one fault, and PREPARE rejects them with it. -/
theorem prepareTurnsAwayBadOperands : Obligations.PrepareTurnsAwayBadOperands := fun v _ _ s =>
  ⟨fun h => exec_prepareInstr_of_error v (prepareLength_prepareRange s.aw h),
    fun hsr hm hlow h => exec_prepareInstr_of_error v (prepareLength_resourceExhaustion hsr hm hlow h)⟩

/-! ### The fault pin (R209) -/

/-- A bit that is set is a fault's. -/
theorem exists_mask_of_ne_zero {e : BitVec 7} (h : e ≠ 0) : ∃ f : CmdFault, e &&& f.mask ≠ 0 := by
  obtain ⟨n, hn, hbit⟩ : ∃ n, n < 7 ∧ e.getLsbD n = true := by
    by_contra! hnone
    exact h (BitVec.eq_of_getLsbD_eq fun n hn => by simpa using hnone n hn)
  obtain ⟨f, hf⟩ := exists_mask_eq_twoPow hn
  refine ⟨f, ?_⟩
  rw [hf, BitVec.and_twoPow, if_pos hbit, ← hf]
  exact mask_ne_zero f

/-- Settles O49: `err` is zero if and only if it holds no fault's bit. -/
theorem faultPinIsTheOrOfTheBits : Obligations.FaultPinIsTheOrOfTheBits := by
  intro s
  simp only [State.faultPin, State.recorded, decide_eq_true_eq]
  refine ⟨exists_mask_of_ne_zero, ?_⟩
  rintro ⟨f, hf⟩ hzero
  exact hf (by rw [hzero]; exact BitVec.zero_and)

end Sys2Proof.Machine
end

section
/-! PROOFS. Safety of the delay times (70_reset_and_hazards.md): a smoothed time stays legal (R236), because a product with
the sample rate keeps the order of the times. -/

namespace Sys2Proof.Machine

/-! ### A product as a rounded whole number -/

/-- The value of the exact result `x / d` units rounded once, its sign kept. -/
def roundUnits (d : Nat) (x : Int) : Int :=
  if x < 0 then -(bitsUnits (roundMag x.natAbs d) : Int) else bitsUnits (roundMag x.natAbs d)

/-- Rounding keeps the order of signed results. -/
theorem roundUnits_mono {d : Nat} (hd : 0 < d) : Monotone (roundUnits d) := by
  intro x y hxy
  have hmag : ∀ {m n : Nat}, m ≤ n → bitsUnits (roundMag m d) ≤ bitsUnits (roundMag n d) := fun h =>
    bitsUnits_mono (roundMag_mono hd hd (Nat.mul_le_mul_right d h))
  rw [roundUnits, roundUnits]
  split
  · next hx =>
    split
    · have := hmag (show y.natAbs ≤ x.natAbs by omega)
      omega
    · omega
  · have := hmag (show x.natAbs ≤ y.natAbs by omega)
    rw [if_neg (by omega)]
    omega

/-- The value of a finite product: the exact product, rounded once. -/
theorem valueUnits_fmul {a b : Word} (ha : isFinite a = true) (hb : isFinite b = true) :
    valueUnits (fmul a b) = roundUnits (2 ^ 149) (valueUnits a * valueUnits b) := by
  have hmag : (valueUnits a * valueUnits b).natAbs = bitsUnits (magBits a) * bitsUnits (magBits b) := by
    rw [Int.natAbs_mul, natAbs_valueUnits, natAbs_valueUnits]
  rw [valueUnits_eq (fmul a b), signBit_fmul ha hb, magBits_fmul ha hb, ← hmag, roundUnits]
  rcases eq_or_ne (valueUnits a * valueUnits b) 0 with h0 | h0
  · rw [h0, Int.natAbs_zero, roundMag_zero (by decide), bitsUnits_zero]
    simp
  · have hsign : (signBit a != signBit b) = decide (valueUnits a * valueUnits b < 0) := by
      have ha0 := left_ne_zero_of_mul h0
      have hb0 := right_ne_zero_of_mul h0
      rw [← decide_valueUnits_neg ha0, ← decide_valueUnits_neg hb0]
      rw [Bool.eq_iff_iff]
      simp only [bne_iff_ne, ne_eq, decide_eq_true_eq, mul_neg_iff, decide_eq_decide]
      omega
    rw [hsign]
    simp only [decide_eq_true_eq]

/-- A factor that is not negative keeps the order of the other factor. -/
theorem valueUnits_fmul_mono {a b r : Word} (ha : isFinite a = true) (hb : isFinite b = true) (hr : isFinite r = true)
    (hpos : 0 ≤ valueUnits r) (h : valueUnits a ≤ valueUnits b) : valueUnits (fmul a r) ≤ valueUnits (fmul b r) := by
  rw [valueUnits_fmul ha hr, valueUnits_fmul hb hr]
  exact roundUnits_mono (by decide) (mul_le_mul_of_nonneg_right h hpos)

/-! ### The smoothed delay time (R236) -/

theorem valueUnits_pos_of_finitePositive {r : Word} (h : finitePositive r = true) : 0 < valueUnits r := by
  rw [finitePositive, Bool.and_eq_true] at h
  obtain ⟨hz, hi⟩ := h
  rwa [flt_iff rfl (not_nan_of_flt hi).1, valueUnits_plusZero] at hz

/-- A finite magnitude is at most the largest one. -/
theorem natAbs_valueUnits_le {w : Word} (h : isFinite w = true) : (valueUnits w).natAbs ≤ (2 ^ 24 - 1) * 2 ^ 253 := by
  rw [isFinite_iff] at h
  calc (valueUnits w).natAbs = bitsUnits (magBits w) := natAbs_valueUnits w
    _ ≤ bitsUnits (infBits - 1) := bitsUnits_mono (by omega)
    _ = (2 ^ 24 - 1) * 2 ^ 253 := by decide +kernel

/-- A difference below the threshold of R19 does not overflow. -/
theorem isFinite_fsub {a b : Word} (ha : isFinite a = true) (hb : isFinite b = true)
    (h : (valueUnits a - valueUnits b).natAbs < (2 ^ 25 - 1) * 2 ^ 252) : isFinite (fsub a b) = true := by
  have hmag : magBits (fsub a b) = roundMag (valueUnits a - valueUnits b).natAbs 1 := by
    rw [fsub, magBits_fadd ha (by simpa using hb), valueUnits_fneg, ← sub_eq_add_neg]
  have hov := infBits_le_roundBits_iff (n := (valueUnits a - valueUnits b).natAbs) one_pos
  rw [isFinite_iff, hmag, roundMag_eq]
  omega

/-- A time whose delay is not negative is itself above -1.0: at -1.0 and below no product with a positive rate rounds to a
zero. -/
theorem neg_one_lt_of_fmul_nonneg {t r : Word} (ht : isFinite t = true) (hr : isFinite r = true) (hpos : 0 < valueUnits r)
    (h : 0 ≤ valueUnits (fmul t r)) : -2 ^ 149 < valueUnits t := by
  by_contra! hle
  have hexact : valueUnits t * valueUnits r ≤ -2 ^ 149 := by nlinarith
  have hround := roundUnits_mono (d := 2 ^ 149) (by decide) hexact
  rw [← valueUnits_fmul ht hr, show roundUnits (2 ^ 149) (-2 ^ 149) = -1 by decide +kernel] at hround
  omega

/-- A value between two finite ones is finite. -/
theorem isFinite_of_between {a b w : Word} (ha : isFinite a = true) (hb : isFinite b = true)
    (h : (valueUnits a ≤ valueUnits w ∧ valueUnits w ≤ valueUnits b) ∨
      (valueUnits w ≤ valueUnits a ∧ valueUnits b ≤ valueUnits w)) : isFinite w = true := by
  rw [finite_iff_natAbs] at *
  omega

/-- Settles O32: the difference does not overflow, so the smoothed time lies between the two times, and so does its product
with the rate between theirs. -/
theorem smoothingKeepsTheDelayInRange : Obligations.SmoothingKeepsTheDelayInRange := by
  intro len cur target r hlen hr hc ht hdc hdt
  have hrf := isFinite_of_finitePositive hr
  have hrpos := valueUnits_pos_of_finitePositive hr
  obtain ⟨-, hc0, hc1⟩ := delayInRange_units hlen hdc
  obtain ⟨-, ht0, ht1⟩ := delayInRange_units hlen hdt
  have he : isFinite (fsub cur target) = true := by
    have := neg_one_lt_of_fmul_nonneg hc hrf hrpos hc0
    have := neg_one_lt_of_fmul_nonneg ht hrf hrpos ht0
    have := natAbs_valueUnits_le hc
    have := natAbs_valueUnits_le ht
    exact isFinite_fsub hc ht (by omega)
  obtain ⟨hup, hdown⟩ := smStep_between (atMostHalf_of_coefficient (k := kTime) (.inl rfl)) hc he ht
  have hbetween := (le_total (valueUnits cur) (valueUnits target)).imp hup hdown
  have hs := isFinite_of_between hc ht hbetween
  have hmono : ∀ {a b : Word}, isFinite a = true → isFinite b = true → valueUnits a ≤ valueUnits b →
      valueUnits (delaySamples a r) ≤ valueUnits (delaySamples b r) := fun ha hb =>
    valueUnits_fmul_mono ha hb hrf hrpos.le
  refine delayInRange_of_units hlen (fmul_not_nan hs hrf) ?_ ?_
  · rcases hbetween with ⟨hlo, -⟩ | ⟨-, hlo⟩
    · exact hc0.trans (hmono hc hs hlo)
    · exact ht0.trans (hmono ht hs hlo)
  · rcases hbetween with ⟨-, hhi⟩ | ⟨hhi, -⟩
    · exact (hmono hs ht hhi).trans_lt ht1
    · exact (hmono hs hc hhi).trans_lt hc1

end Sys2Proof.Machine
end

section
/-! PROOFS. The modulated delay time stays in its window (R142, R143, R237). The fraction of the map is in [0, 1]. At 1.0 the
map gives the top of the window (R145). At every other fraction `u` the exact mixture is below the top by
`(1 - u) * (top - bottom)`, which is at least 2^-24 of the width of the window, and the three roundings before the last one
give back less than that and half a unit in the last place of the top. -/

namespace Sys2Proof.Machine

/-! ### How far rounding goes up -/

/-- The step from a pattern to the next in the exponent steps up to `k`. -/
theorem bitsUnits_succ_le_add_pow {m k : Nat} (h : m < (k + 2) * 2 ^ 23) : bitsUnits (m + 1) ≤ bitsUnits m + 2 ^ k := by
  rcases exists_step m with hm | ⟨j, s, rfl, hs, hs'⟩
  · rw [bitsUnits_small (by omega), bitsUnits_small (by omega)]
    exact Nat.add_le_add_left Nat.one_le_two_pow _
  · rw [bitsUnits_step hs hs'.le, Nat.add_assoc, bitsUnits_step (by omega) hs', Nat.succ_mul]
    exact Nat.add_le_add_left (Nat.pow_le_pow_right (by decide) (by omega)) _

/-- Up to the end of exponent step `k` a magnitude rounds up by at most half of `2 ^ k` units. -/
theorem two_mul_round_le {n d m k : Nat} (hd : 0 < d) (hm : m ≤ (k + 2) * 2 ^ 23) (h : n ≤ bitsUnits m * d) :
    2 * (bitsUnits (roundMag n d) * d) ≤ 2 * n + 2 ^ k * d := by
  have hle := roundMag_le_of_le hd h
  have hbits : roundMag n d ≤ roundBits n d := min_le_left _ _
  cases hr : roundMag n d with
  | zero => simp
  | succ p =>
    rw [hr] at hle hbits
    have hmid : (bitsUnits p + bitsUnits (p + 1)) * d ≤ 2 * n := by
      have := (lt_roundBits_iff hd p).mp hbits
      omega
    calc 2 * (bitsUnits (p + 1) * d) = (bitsUnits (p + 1) + bitsUnits (p + 1)) * d := by ring
      _ ≤ (bitsUnits p + 2 ^ k + bitsUnits (p + 1)) * d := by gcongr; exact bitsUnits_succ_le_add_pow (by omega)
      _ = (bitsUnits p + bitsUnits (p + 1)) * d + 2 ^ k * d := by ring
      _ ≤ 2 * n + 2 ^ k * d := Nat.add_le_add_right hmid _

/-! ### The depth and the fraction (R142, R143) -/

/-- A factor of magnitude at most 1.0 gives no larger magnitude. -/
theorem natAbs_fmul_le {a b : Word} (ha : isFinite a = true) (hb : isFinite b = true) (h : (valueUnits a).natAbs ≤ 2 ^ 149) :
    (valueUnits (fmul a b)).natAbs ≤ (valueUnits b).natAbs := by
  rw [natAbs_valueUnits] at h
  rw [natAbs_valueUnits, natAbs_valueUnits, magBits_fmul ha hb]
  exact bitsUnits_mono (roundMag_mul_le h)

/-- The sine scaled by the depth is in [-1, 1] (R142). -/
theorem scaled_sine_in_unit {ph depth : Word} (hp : inUnit ph = true) (hd : unitRange depth = true) :
    isFinite (fmul (lfoSin ph) depth) = true ∧ (valueUnits (fmul (lfoSin ph) depth)).natAbs ≤ 2 ^ 149 := by
  rw [lfoSin_of_inUnit hp]
  have hs := admissibleSine_lfoSinUnit hp
  have hone : (valueUnits (lfoSinUnit ph)).natAbs ≤ 2 ^ 149 := by
    have := hs.abs_le_one
    rw [abs_valueRat, div_le_one (by positivity)] at this
    rw [natAbs_valueUnits]
    exact_mod_cast this
  obtain ⟨-, hd0, hd1⟩ := unitRange_iff.mp hd
  have hle := natAbs_fmul_le hs.finite (isFinite_of_unitRange hd) hone
  exact ⟨finite_of_abs_le (n := 1) (by decide) (by omega), by omega⟩

/-- The fraction of the map is in [0, 1] (R143). -/
theorem map_fraction_in_unit {m : Word} (hm : isFinite m = true) (h : (valueUnits m).natAbs ≤ 2 ^ 149) :
    unitRange (fmul (fadd m one) half) = true := by
  have htwo : valueUnits 0x40000000 = 2 ^ 150 := by decide
  have hlo : valueUnits plusZero ≤ valueUnits (fadd m one) :=
    le_valueUnits_fadd hm isFinite_one rfl (by rw [valueUnits_plusZero, valueUnits_one]; omega)
  have hhi : valueUnits (fadd m one) ≤ valueUnits 0x40000000 :=
    valueUnits_fadd_le hm isFinite_one rfl (by rw [htwo, valueUnits_one]; omega)
  have hf : isFinite (fadd m one) = true :=
    isFinite_of_units_le_two (by rwa [valueUnits_plusZero] at hlo) (by rwa [htwo] at hhi)
  have hhalf : 0 ≤ valueUnits half := by decide
  have hlo' := valueUnits_fmul_mono isFinite_plusZero hf rfl hhalf hlo
  have hhi' := valueUnits_fmul_mono hf rfl rfl hhalf hhi
  rw [show fmul plusZero half = plusZero by decide, valueUnits_plusZero] at hlo'
  rw [show fmul 0x40000000 half = one by decide, valueUnits_one] at hhi'
  exact unitRange_iff.mpr ⟨fmul_not_nan hf rfl, hlo', hhi'⟩

/-! ### The mixture (R120, R143) -/

/-- A part of `b`, with `b` up to the end of exponent step `k`: it is finite, not negative, and at most half of `2 ^ k` units
above the exact product. -/
theorem fmul_part_units {a b : Word} {k : Nat} (ha : unitRange a = true) (hb : isFinite b = true) (hb0 : 0 ≤ valueUnits b)
    (hk : magBits b ≤ (k + 2) * 2 ^ 23) :
    isFinite (fmul a b) = true ∧ 0 ≤ valueUnits (fmul a b) ∧
      2 ^ 150 * valueUnits (fmul a b) ≤ 2 * (valueUnits a * valueUnits b) + 2 ^ k * 2 ^ 149 := by
  have haf := isFinite_of_unitRange ha
  obtain ⟨-, ha0, ha1⟩ := unitRange_iff.mp ha
  have hle := natAbs_fmul_le haf hb (by omega)
  have hfin : isFinite (fmul a b) = true := by
    rw [finite_iff_natAbs] at hb ⊢
    omega
  have hab : 0 ≤ valueUnits a * valueUnits b := mul_nonneg ha0 hb0
  have hexact : (valueUnits a * valueUnits b).natAbs ≤ bitsUnits (magBits b) * 2 ^ 149 := by
    rw [Int.natAbs_mul, natAbs_valueUnits b, mul_comm]
    exact Nat.mul_le_mul_left _ (by omega)
  have hround := two_mul_round_le (by decide) hk hexact
  rw [valueUnits_fmul haf hb, roundUnits, if_neg (by omega)]
  refine ⟨hfin, Int.natCast_nonneg _, ?_⟩
  zify at hround
  rw [abs_of_nonneg hab] at hround
  linarith

/-- The first weight of INTERP at a fraction in [0, 1]: in [0, 1], and at most 2^-25 above the exact one. -/
theorem one_fsub_units {u : Word} (hu : unitRange u = true) :
    unitRange (fsub one u) = true ∧ 2 * valueUnits (fsub one u) ≤ 2 * (2 ^ 149 - valueUnits u) + 2 ^ 125 := by
  have huf := isFinite_of_unitRange hu
  obtain ⟨-, hu0, hu1⟩ := unitRange_iff.mp hu
  have hlo : valueUnits plusZero ≤ valueUnits (fsub one u) :=
    le_valueUnits_fsub isFinite_one huf rfl (by rw [valueUnits_plusZero, valueUnits_one]; omega)
  have hhi : valueUnits (fsub one u) ≤ valueUnits one := valueUnits_fsub_le isFinite_one huf rfl (by omega)
  rw [valueUnits_plusZero] at hlo
  rw [valueUnits_one] at hhi
  refine ⟨unitRange_iff.mpr ⟨fsub_not_nan isFinite_one huf, hlo, hhi⟩, ?_⟩
  have hround := two_mul_round_le (n := (2 ^ 149 - valueUnits u).natAbs) (d := 1) (m := magBits one) (k := 125) one_pos
    (by decide) (by rw [bitsUnits_one]; omega)
  rw [valueUnits_fsub isFinite_one huf, valueUnits_one, if_neg (by omega)]
  omega

/-- The exponent step of the top of a window: units in the last place are `2 ^ topStep` units of 2^-149. -/
def topStep : Mode → Nat
  | .chorus => 120
  | .flanger => 118

/-- The window against that step: both ends positive, the bottom two steps lower, the next pattern one unit in the last
place above the top. -/
theorem window_units (mode : Mode) :
    0 ≤ valueUnits (window mode).1 ∧ 0 ≤ valueUnits (window mode).2 ∧
      magBits (window mode).1 ≤ (topStep mode - 2 + 2) * 2 ^ 23 ∧ magBits (window mode).2 ≤ (topStep mode + 2) * 2 ^ 23 ∧
      bitsUnits (magBits (window mode).2) + bitsUnits (magBits (window mode).2 + 1) =
        2 * bitsUnits (magBits (window mode).2) + 2 ^ topStep mode := by
  cases mode <;> decide +kernel

/-- The numbers of the windows: with a fraction `U` of at most 1 - 2^-24, a weight `W` and parts `A` and `B` as far off as
rounding can take them, the sum of the parts is less than half a unit in the last place above the top. -/
theorem mixture_lt_midpoint (mode : Mode) {U W A B : Int} (hU : U ≤ 2 ^ 149 - 2 ^ 125)
    (hW : 2 * W ≤ 2 * (2 ^ 149 - U) + 2 ^ 125)
    (hA : 2 ^ 150 * A ≤ 2 * (W * valueUnits (window mode).1) + 2 ^ (topStep mode - 2) * 2 ^ 149)
    (hB : 2 ^ 150 * B ≤ 2 * (U * valueUnits (window mode).2) + 2 ^ topStep mode * 2 ^ 149) :
    2 * (A + B) < 2 * valueUnits (window mode).2 + 2 ^ topStep mode := by
  cases mode with
  | chorus =>
    rw [show valueUnits (window .chorus).1 = 0xA3D70A * 2 ^ 118 by decide +kernel] at hA
    rw [show valueUnits (window .chorus).2 = 0xF5C28F * 2 ^ 120 by decide +kernel] at hB ⊢
    simp only [topStep] at *
    omega
  | flanger =>
    rw [show valueUnits (window .flanger).1 = 0x83126F * 2 ^ 116 by decide +kernel] at hA
    rw [show valueUnits (window .flanger).2 = 0xA3D70A * 2 ^ 118 by decide +kernel] at hB ⊢
    simp only [topStep] at *
    omega

/-- A sum that is not negative and less than half a unit in the last place above the top rounds to at most the top. -/
theorem fadd_le_top (mode : Mode) {a b : Word} (ha : isFinite a = true) (hb : isFinite b = true)
    (h0 : 0 ≤ valueUnits a + valueUnits b)
    (h : 2 * (valueUnits a + valueUnits b) < 2 * valueUnits (window mode).2 + 2 ^ topStep mode) :
    valueUnits (fadd a b) ≤ valueUnits (window mode).2 := by
  obtain ⟨-, htop0, -, -, hnext⟩ := window_units mode
  have htop := valueUnits_nonneg htop0
  have hbits : roundBits (valueUnits a + valueUnits b).natAbs 1 ≤ magBits (window mode).2 := by
    rw [← not_lt, lt_roundBits_iff one_pos, hnext]
    zify
    rw [abs_of_nonneg h0]
    omega
  rw [valueUnits_fadd ha hb, if_neg h0.not_gt, htop]
  exact_mod_cast bitsUnits_mono ((min_le_left _ _).trans hbits)

/-- INTERP over a window at a fraction in [0, 1] is at least 0 and at most the top. -/
theorem interp_window_units (mode : Mode) {u : Word} (hu : unitRange u = true) :
    isNaN (interp (window mode).1 (window mode).2 u) = false ∧
      0 ≤ valueUnits (interp (window mode).1 (window mode).2 u) ∧
      valueUnits (interp (window mode).1 (window mode).2 u) ≤ valueUnits (window mode).2 := by
  obtain ⟨hlof, hhif, hhiz⟩ := window_finite mode
  obtain ⟨hlo0, hhi0, hlok, hhik, -⟩ := window_units mode
  obtain ⟨hw, hW⟩ := one_fsub_units hu
  obtain ⟨haf, ha0, hA⟩ := fmul_part_units hw hlof hlo0 hlok
  obtain ⟨hbf, hb0, hB⟩ := fmul_part_units hu hhif hhi0 hhik
  obtain ⟨-, hu0, hu1⟩ := unitRange_iff.mp hu
  refine ⟨fadd_not_nan haf hbf, ?_, ?_⟩
  · rw [← valueUnits_plusZero]
    exact le_valueUnits_fadd haf hbf rfl (by rw [valueUnits_plusZero]; omega)
  · rcases hu1.lt_or_eq with hlt | heq
    · exact fadd_le_top mode haf hbf (by omega) (mixture_lt_midpoint mode (units_le_last_phase hu0 hlt) hW hA hB)
    · have hone : u = one := eq_of_units_pos (by omega) (heq.trans valueUnits_one.symm)
      rw [hone, interp_one_finite hlof hhif hhiz]

/-- Settles O37: the scaled sine is in [-1, 1], so the fraction of the map is in [0, 1]. -/
theorem modulatedDelayTimeIsAtMostTheWindowTop : Obligations.ModulatedDelayTimeIsAtMostTheWindowTop := by
  intro ph depth mode hp hd
  obtain ⟨hmf, hm⟩ := scaled_sine_in_unit hp hd
  obtain ⟨hn, h0, htop⟩ := interp_window_units mode (map_fraction_in_unit hmf hm)
  have hhin := not_nan_of_finite (window_finite mode).2.1
  rw [lfoTime, lfoMap, fle_iff rfl hn, fle_iff hn hhin, valueUnits_plusZero]
  exact ⟨h0, htop⟩

end Sys2Proof.Machine
end

section
/-! PROOFS. Reset (R230) and the idle port (R232). -/

namespace Sys2Proof.Machine

/-- Settles O7. -/
theorem resetEventGivesTheResetValues : Obligations.ResetEventGivesTheResetValues := fun _ _ => step_reset

/-- Settles O8. -/
theorem anIdlePortChangesNothing : Obligations.AnIdlePortChangesNothing := fun _ => step_idle

end Sys2Proof.Machine
end
